-- ==== Sys2Proof/Word.lean ====
section
/-! DEFINITION. The plain data of the block: pixels, blocks, store words, and who issues an operation
(00_scope.md R8, R13; 60_exceptions.md R199). -/

namespace Sys2Proof

/-- "8-bit unsigned, 0 = Black, 255 = White" (R13, R19). -/
abbrev Pixel := BitVec 8

/-- PixelBlock: "a 32-bit unsigned packing four consecutive pixels" (R13, R19). -/
abbrev Block := BitVec 32

/-- A store word. One container of 64 bits serves both word widths `W` of R8: with `W = 32` the upper
32 bits are 0, which `Machine.StoreWf` states and every step keeps (log entry 2, DESIGN CHOICE, safe). -/
abbrev Word := BitVec 64

/-- Who issues an operation. The one distinction the spec draws is the loader against everybody else
(60_exceptions.md R199 b, R194 g). -/
inductive Issuer where
  | loader
  | driver
  deriving DecidableEq, Repr

/-- The agents that can take a step (00_scope.md R14). -/
inductive Agent where
  | host
  | encoder
  | decoder
  deriving DecidableEq, Repr

/-- `Black = 0x00` (R19). -/
def black : Pixel := 0x00

/-- `White = 0xFF` (R19). -/
def white : Pixel := 0xFF

/-- `WhiteBlock = 0xFFFFFFFF` (R19). -/
def whiteBlock : Block := 0xFFFFFFFF

/-- `BlackBlock = 0x00000000` (R19). -/
def blackBlock : Block := 0x00000000

end Sys2Proof
end

