-- ==== Sys2Proof/Config.lean ====
section
/-! DEFINITION. What one instance of the block fixes (00_scope.md R8 to R12) and the free values of the
model (93_implementation_defined.md U1). -/

namespace Sys2Proof

/-- `W ∈ {32, 64}` (R8); "No other width is allowed" (U7), so no other width can be written down. -/
inductive WordWidth where
  | w32
  | w64
  deriving DecidableEq, Repr

/-- `W` as a number of bits (R8). -/
def WordWidth.bits : WordWidth → Nat
  | .w32 => 32
  | .w64 => 64

/-- `PACK_ORDER` (R9): which end of a block pixel `p0` takes. -/
inductive PackOrder where
  | p0Msb
  | p0Lsb
  deriving DecidableEq, Repr

/-- The parameters of one instance. They are constants of the instance: a field of State holds them so
that every statement is about every instance, and no step changes them (log entry 1). `NBS` (R12) is the
number of stores in State. -/
structure Params where
  /-- `W`, R8 -/
  width : WordWidth
  /-- `PACK_ORDER`, R9 -/
  packOrder : PackOrder
  /-- `MAX_WORDS`, R10; `none` is `∞` -/
  maxWords : Option Nat
  /-- `IW`, R11; `none` is `∞` -/
  indexBits : Option Nat
  deriving DecidableEq, Repr

/-- `W` of an instance, in bits (R8). -/
def Params.w (p : Params) : Nat := p.width.bits

/-- The instance that `State.reset` is. `P0_MSB`, `∞` and `∞` are the spec's defaults (92_eei_decisions.md,
table of OPEN parameters); `W = 32` is this model's choice, the spec naming no default for it
(log entry 1, DESIGN CHOICE). -/
def Params.default : Params :=
  { width := .w32, packOrder := .p0Msb, maxWords := none, indexBits := none }

/-- `NBS` of the instance that `State.reset` is: "2 suffices for the document's host"
(92_eei_decisions.md; log entry 1). -/
def defaultNbs : Nat := 2

/-- The value of the `n`-th word drawn for a place `BS_RESIZE` adds: "Each new word is an independent draw"
(U1; 20_memory.md R51). It has no body, so nothing can be proved of a drawn word (log entry 11). -/
opaque freeWord : Nat → Word

end Sys2Proof
end

