-- ==== Sys2Proof/Syntax.lean ====
section
/-! DEFINITION. The instructions: the three codewords of the prefix code (30_encoding.md R71) and the 23
operations of the block (R80), one constructor for each row of spec/opcode_table.json. -/

namespace Sys2Proof

/-- One instruction. Handles `h`, indexes `i`, `k`, counts `n`, `bitCount` are naturals, as in R80. -/
inductive Instr where
  /-- `CW_WHITE`, the codeword `0` (R71) -/
  | cwWhite
  /-- `CW_BLACK`, the codeword `10` (R71) -/
  | cwBlack
  /-- `CW_LITERAL`, the codeword `11` and the 32 bits of the block (R71) -/
  | cwLiteral (lit : Block)
  /-- `BS_NEW(h, bit_count)`, code `0x00` (R63) -/
  | bsNew (h bitCount : Nat)
  /-- `BS_TEST(h, i)`, code `0x01` (R45) -/
  | bsTest (h i : Nat)
  /-- `BS_SET(h, i)`, code `0x02` (R46) -/
  | bsSet (h i : Nat)
  /-- `BS_CLEAR(h, i)`, code `0x03` (R48) -/
  | bsClear (h i : Nat)
  /-- `BS_WORD(h, k)`, code `0x04` (R49) -/
  | bsWord (h k : Nat)
  /-- `BS_WORD_COUNT(h)`, code `0x05` (R50) -/
  | bsWordCount (h : Nat)
  /-- `BS_RESIZE(h, n)`, code `0x06` (R51), with who issues it (R199 b) -/
  | bsResize (who : Issuer) (h n : Nat)
  /-- `BS_LOAD_WORD(h, k, v)`, code `0x07` (R52), with who issues it (R199 b) -/
  | bsLoadWord (who : Issuer) (h k : Nat) (v : Word)
  /-- `COMBINE(p0, p1, p2, p3)`, code `0x08` (R90) -/
  | combine (p0 p1 p2 p3 : Pixel)
  /-- `SPLIT(b)`, code `0x09` (R93) -/
  | split (b : Block)
  /-- `ENC_OPEN(h)`, code `0x0A` (R100) -/
  | encOpen (h : Nat)
  /-- `WRITE0`, code `0x0B` (R101) -/
  | write0
  /-- `WRITE1`, code `0x0C` (R102) -/
  | write1
  /-- `ENC_CURSOR`, code `0x0D` (R104) -/
  | encCursor
  /-- `ENC_CLOSE`, code `0x0E` (R103) -/
  | encClose
  /-- `ENC_BLOCK(b)`, code `0x0F` (R110) -/
  | encBlock (b : Block)
  /-- `ENCODE(pixels)`, code `0x10` (R112) -/
  | encode (pixels : List Pixel)
  /-- `DEC_OPEN(h)`, code `0x11` (R125) -/
  | decOpen (h : Nat)
  /-- `READ_BIT`, code `0x12` (R126) -/
  | readBit
  /-- `DEC_CURSOR`, code `0x13` (R128) -/
  | decCursor
  /-- `DEC_CLOSE`, code `0x14` (R127) -/
  | decClose
  /-- `DEC_BLOCK`, code `0x15` (R135) -/
  | decBlock
  /-- `DECODE(n)`, code `0x16` (R137) -/
  | decode (n : Nat)
  deriving DecidableEq, Repr

end Sys2Proof
end

