-- ==== Sys2Proof/WellFormed.lean ====
section
/-! DEFINITION. Which instructions have operands of the widths the spec gives them on an instance. A handle
`h ≥ NBS`, a word index past the store and a shrinking resize are well formed and refused by the
operation itself (60_exceptions.md R194 e, f; log entry 10). -/

namespace Sys2Proof

/-- "An address is a stream bit index `i`, a natural number below `2^IW`" (20_memory.md R40). -/
def indexFits (p : Params) (i : Nat) : Bool :=
  match p.indexBits with
  | none => true
  | some iw => decide (i < 2 ^ iw)

/-- A value "of `W` bits" (20_memory.md R52). -/
def wordFits (p : Params) (v : Word) : Bool :=
  decide (v.toNat < 2 ^ p.w)

/-- The instruction's operands have the widths of R40 and R52 on an instance with parameters `p`; pixels and
blocks have theirs by type (R13). -/
def wellFormed (p : Params) : Instr → Bool
  | .bsTest _ i => indexFits p i
  | .bsSet _ i => indexFits p i
  | .bsClear _ i => indexFits p i
  | .bsLoadWord _ _ _ v => wordFits p v
  | .cwWhite => true
  | .cwBlack => true
  | .cwLiteral _ => true
  | .bsNew _ _ => true
  | .bsWord _ _ => true
  | .bsWordCount _ => true
  | .bsResize _ _ _ => true
  | .combine _ _ _ _ => true
  | .split _ => true
  | .encOpen _ => true
  | .write0 => true
  | .write1 => true
  | .encCursor => true
  | .encClose => true
  | .encBlock _ => true
  | .encode _ => true
  | .decOpen _ => true
  | .readBit => true
  | .decCursor => true
  | .decClose => true
  | .decBlock => true
  | .decode _ => true

end Sys2Proof
end

