-- ==== Sys2Proof/Decode.lean ====
section
/-! DEFINITION. How an instruction is presented to the block and read from what is presented: operations as
transactions under the codes of 30_encoding.md R80, codewords as stream bits under R71. How operations
travel on wires is left open (00_scope.md R15), so a transaction carries its operands as naturals
(log entry 9). -/

namespace Sys2Proof

/-- One operation as the host presents it: a 5-bit operation code (R80), who issues it (R199), and its
operands in R80's order. A pixel sequence is one natural for each pixel. -/
structure Transaction where
  code : BitVec 5
  issuer : Issuer
  operands : List Nat
  deriving DecidableEq, Repr

/-- What an instruction can be read from: a transaction on the command side, or the bits of a codeword in
stream order (R17: the leftmost bit is written and read first). -/
inductive Encoding where
  | op (t : Transaction)
  | stream (bits : List Bool)
  deriving DecidableEq, Repr

/-- Why an encoding is no instruction. -/
inductive DecodeError where
  /-- codes `0x17` to `0x1F` "select no operation" (R81) -/
  | reservedCode (code : BitVec 5)
  /-- not the number of operands R80 gives the code -/
  | operandCount (code : BitVec 5)
  /-- an operand wider than its place: a pixel over 8 bits, a block over 32 (R13), a word over `W`
  (R52), an index not below `2^IW` (R40) -/
  | operandWidth (code : BitVec 5)
  /-- the bits end inside a codeword -/
  | truncatedCodeword
  /-- bits follow the codeword -/
  | trailingBits
  deriving DecidableEq, Repr

/-- The outcome of decoding: an instruction, or a rejection by name. -/
inductive Decoded where
  | instr (i : Instr)
  | rejected (e : DecodeError)
  deriving DecidableEq, Repr

/-! ### The operation codes (R80) -/

/-- The code of each operation, the column "code" of R80's table; a codeword has none. -/
def opCode : Instr → Option (BitVec 5)
  | .cwWhite => none
  | .cwBlack => none
  | .cwLiteral _ => none
  | .bsNew _ _ => some 0x00
  | .bsTest _ _ => some 0x01
  | .bsSet _ _ => some 0x02
  | .bsClear _ _ => some 0x03
  | .bsWord _ _ => some 0x04
  | .bsWordCount _ => some 0x05
  | .bsResize _ _ _ => some 0x06
  | .bsLoadWord _ _ _ _ => some 0x07
  | .combine _ _ _ _ => some 0x08
  | .split _ => some 0x09
  | .encOpen _ => some 0x0A
  | .write0 => some 0x0B
  | .write1 => some 0x0C
  | .encCursor => some 0x0D
  | .encClose => some 0x0E
  | .encBlock _ => some 0x0F
  | .encode _ => some 0x10
  | .decOpen _ => some 0x11
  | .readBit => some 0x12
  | .decCursor => some 0x13
  | .decClose => some 0x14
  | .decBlock => some 0x15
  | .decode _ => some 0x16

/-! ### Operand shapes -/

/-- An operation with no operand. -/
def noOperand (t : Transaction) (i : Instr) : Decoded :=
  match t.operands with
  | [] => .instr i
  | _ => .rejected (.operandCount t.code)

/-- An operation with one operand. -/
def oneOperand (t : Transaction) (f : Nat → Decoded) : Decoded :=
  match t.operands with
  | [a] => f a
  | _ => .rejected (.operandCount t.code)

/-- An operation with two operands. -/
def twoOperands (t : Transaction) (f : Nat → Nat → Decoded) : Decoded :=
  match t.operands with
  | [a, b] => f a b
  | _ => .rejected (.operandCount t.code)

/-- An operation with three operands. -/
def threeOperands (t : Transaction) (f : Nat → Nat → Nat → Decoded) : Decoded :=
  match t.operands with
  | [a, b, c] => f a b c
  | _ => .rejected (.operandCount t.code)

/-- An operation with four operands. -/
def fourOperands (t : Transaction) (f : Nat → Nat → Nat → Nat → Decoded) : Decoded :=
  match t.operands with
  | [a, b, c, d] => f a b c d
  | _ => .rejected (.operandCount t.code)

/-- The instruction, where every width test holds. -/
def ifWidth (t : Transaction) (ok : Bool) (i : Instr) : Decoded :=
  if ok then .instr i else .rejected (.operandWidth t.code)

/-- Every natural of the sequence is a pixel's 8 bits. -/
def pixelsFit (ns : List Nat) : Bool := ns.all fun n => decide (n < 2 ^ 8)

/-- An index below `2^IW` (R40). -/
def indexOperandFits (p : Params) (i : Nat) : Bool :=
  match p.indexBits with
  | none => true
  | some iw => decide (i < 2 ^ iw)

/-! ### Decoding -/

/-- The operation a transaction presents on an instance with parameters `p` (R80); codes `0x17` to `0x1F` are
rejected (R81). -/
def decodeOp (p : Params) (t : Transaction) : Decoded :=
  match t.code.toNat with
  | 0x00 => twoOperands t fun h c => .instr (.bsNew h c)
  | 0x01 => twoOperands t fun h i => ifWidth t (indexOperandFits p i) (.bsTest h i)
  | 0x02 => twoOperands t fun h i => ifWidth t (indexOperandFits p i) (.bsSet h i)
  | 0x03 => twoOperands t fun h i => ifWidth t (indexOperandFits p i) (.bsClear h i)
  | 0x04 => twoOperands t fun h k => .instr (.bsWord h k)
  | 0x05 => oneOperand t fun h => .instr (.bsWordCount h)
  | 0x06 => twoOperands t fun h n => .instr (.bsResize t.issuer h n)
  | 0x07 => threeOperands t fun h k v =>
      ifWidth t (decide (v < 2 ^ p.w)) (.bsLoadWord t.issuer h k (BitVec.ofNat 64 v))
  | 0x08 => fourOperands t fun a b c d =>
      ifWidth t (pixelsFit [a, b, c, d])
        (.combine (BitVec.ofNat 8 a) (BitVec.ofNat 8 b) (BitVec.ofNat 8 c) (BitVec.ofNat 8 d))
  | 0x09 => oneOperand t fun b => ifWidth t (decide (b < 2 ^ 32)) (.split (BitVec.ofNat 32 b))
  | 0x0A => oneOperand t fun h => .instr (.encOpen h)
  | 0x0B => noOperand t .write0
  | 0x0C => noOperand t .write1
  | 0x0D => noOperand t .encCursor
  | 0x0E => noOperand t .encClose
  | 0x0F => oneOperand t fun b => ifWidth t (decide (b < 2 ^ 32)) (.encBlock (BitVec.ofNat 32 b))
  | 0x10 => ifWidth t (pixelsFit t.operands) (.encode (t.operands.map (BitVec.ofNat 8)))
  | 0x11 => oneOperand t fun h => .instr (.decOpen h)
  | 0x12 => noOperand t .readBit
  | 0x13 => noOperand t .decCursor
  | 0x14 => noOperand t .decClose
  | 0x15 => noOperand t .decBlock
  | 0x16 => oneOperand t fun n => .instr (.decode n)
  | _ => .rejected (.reservedCode t.code)

/-- The value of literal bits in the order read: `b = Σ t_j · 2^(31−j)` (R72). -/
def literalOfBits (bits : List Bool) : Block :=
  bits.foldl (fun v t => (v <<< 1) ||| (BitVec.ofBool t).setWidth 32) 0

/-- The codeword at the front of a bit string and the bits after it; the length is told by the first one or two
bits (R74). `none` where the string ends inside a codeword. -/
def decodeStream : List Bool → Option (Instr × List Bool)
  | false :: rest => some (.cwWhite, rest)
  | true :: false :: rest => some (.cwBlack, rest)
  | true :: true :: rest =>
      if 32 ≤ rest.length then some (.cwLiteral (literalOfBits (rest.take 32)), rest.drop 32)
      else none
  | _ => none

/-- The instruction an encoding stands for, or the name of what is wrong with it. -/
def decode (p : Params) : Encoding → Decoded
  | .op t => decodeOp p t
  | .stream bits =>
      match decodeStream bits with
      | some (i, []) => .instr i
      | some (_, _ :: _) => .rejected .trailingBits
      | none => .rejected .truncatedCodeword

/-! ### Encoding -/

/-- The 32 bits of a block most significant bit first (R72, R111). -/
def literalBits (b : Block) : List Bool :=
  (List.range 32).map fun j => b.getLsbD (31 - j)

/-- The transaction of an operation that any issuer may present. -/
def opOf (code : BitVec 5) (operands : List Nat) : Encoding :=
  .op { code := code, issuer := .driver, operands := operands }

/-- The encoding of an instruction: R71 for the codewords, R80 for the operations. -/
def encode : Instr → Encoding
  | .cwWhite => .stream [false]
  | .cwBlack => .stream [true, false]
  | .cwLiteral b => .stream (true :: true :: literalBits b)
  | .bsNew h c => opOf 0x00 [h, c]
  | .bsTest h i => opOf 0x01 [h, i]
  | .bsSet h i => opOf 0x02 [h, i]
  | .bsClear h i => opOf 0x03 [h, i]
  | .bsWord h k => opOf 0x04 [h, k]
  | .bsWordCount h => opOf 0x05 [h]
  | .bsResize who h n => .op { code := 0x06, issuer := who, operands := [h, n] }
  | .bsLoadWord who h k v => .op { code := 0x07, issuer := who, operands := [h, k, v.toNat] }
  | .combine a b c d => opOf 0x08 [a.toNat, b.toNat, c.toNat, d.toNat]
  | .split b => opOf 0x09 [b.toNat]
  | .encOpen h => opOf 0x0A [h]
  | .write0 => opOf 0x0B []
  | .write1 => opOf 0x0C []
  | .encCursor => opOf 0x0D []
  | .encClose => opOf 0x0E []
  | .encBlock b => opOf 0x0F [b.toNat]
  | .encode px => opOf 0x10 (px.map BitVec.toNat)
  | .decOpen h => opOf 0x11 [h]
  | .readBit => opOf 0x12 []
  | .decCursor => opOf 0x13 []
  | .decClose => opOf 0x14 []
  | .decBlock => opOf 0x15 []
  | .decode n => opOf 0x16 [n]

/-! ### The opcode table's numbering of bits -/

/-- As many zero operands as the operation of a code takes (a pixel sequence takes none). -/
def zeroOperands (code : Nat) : List Nat :=
  match code with
  | 0x00 => [0, 0]
  | 0x01 => [0, 0]
  | 0x02 => [0, 0]
  | 0x03 => [0, 0]
  | 0x04 => [0, 0]
  | 0x05 => [0]
  | 0x06 => [0, 0]
  | 0x07 => [0, 0, 0]
  | 0x08 => [0, 0, 0, 0]
  | 0x09 => [0]
  | 0x0A => [0]
  | 0x0F => [0]
  | 0x11 => [0]
  | 0x16 => [0]
  | _ => []

/-- The low `n` bits of `w`, most significant first: a codeword's pattern as the table prints it. -/
def patternBits (n w : Nat) : List Bool :=
  (List.range n).map fun j => w.testBit (n - 1 - j)

/-- The encoding a row of spec/opcode_table.json stands for when its bits are `w`. A row of 1, 2 or 34 (in whole
bytes 40) bits is a codeword, its printed pattern read as one number; any other row is a 5-bit operation
code with zero operands, issued by the loader (log entry 14). -/
def tableEncoding (nbits w : Nat) : Option Encoding :=
  match nbits with
  | 1 => if w < 2 ^ 1 then some (.stream (patternBits 1 w)) else none
  | 2 => if w < 2 ^ 2 then some (.stream (patternBits 2 w)) else none
  | 34 => if w < 2 ^ 34 then some (.stream (patternBits 34 w)) else none
  | 40 => if w < 2 ^ 34 then some (.stream (patternBits 34 w)) else none
  | _ =>
      if w < 2 ^ 5 then
        some (.op { code := BitVec.ofNat 5 w, issuer := .loader, operands := zeroOperands w })
      else none

/-- What the decoder reads from a table row whose bits are `w` (the host's probe). -/
def decodeTableWord (nbits w : Nat) : Option Instr :=
  match tableEncoding nbits w with
  | none => none
  | some e =>
      match decode Params.default e with
      | .instr i => some i
      | .rejected _ => none

end Sys2Proof
end

