-- ==== Sys2Proof/Machine/State.lean ====
section
/-! DEFINITION. The state of one instance of the block (10_state.md R20), the reasons a step stops, and the
state after reset (10_state.md R35, 70_reset_and_hazards.md R210). -/

namespace Sys2Proof.Machine

/-- One BitSet store: an "ordered sequence of Words"; words past its end "are absent" (10_state.md R21). -/
structure Store where
  words : List Word
  deriving DecidableEq, Repr

/-- `BS[h].word_count`, the length of the sequence (R21, R22). -/
def Store.wordCount (st : Store) : Nat := st.words.length

/-- The codes an agent's fault element holds (60_exceptions.md R191). -/
inductive FaultCode where
  | allocationFailed
  | cursorOverflow
  deriving DecidableEq, Repr

/-- A fault with "its information", as the response reports it (60_exceptions.md R190, R191). -/
inductive FaultReport where
  /-- the store and the words it would need -/
  | allocationFailed (h needed : Nat)
  /-- which cursor -/
  | cursorOverflow (cursor : Agent)
  deriving DecidableEq, Repr

/-- The registers of one cursor sub-block: `open`, `bs`, `cursor`, `fault` of R20. -/
structure Session where
  isOpen : Bool
  bs : Nat
  cursor : Nat
  fault : Option FaultCode
  deriving DecidableEq, Repr

/-- What an operation answers to the host (R80's results; 60_exceptions.md R190). -/
inductive Response where
  /-- no operation has ended since reset -/
  | quiet
  /-- completed, no result -/
  | done
  | bit (v : Bool)
  | word (v : Word)
  | natural (n : Nat)
  | status (cursor : Nat) (fault : Option FaultCode)
  | block (b : Block)
  | pixels (px : List Pixel)
  /-- the operation ended in a fault -/
  | faulted (f : FaultReport)
  deriving DecidableEq, Repr

/-- What the host does to the block: it presents an operation, or resets the block (R14, R210). -/
inductive Input where
  | op (t : Transaction)
  | reset
  deriving DecidableEq, Repr

/-- The state. `params`, `response`, `inputs` and `draws` are the model's own fields (log entries 1, 6, 7,
11); the others are R20's, whole. -/
structure State where
  /-- the parameters of the instance (00_scope.md R8 to R11); no step changes them -/
  params : Params
  /-- `BS[h]` for `h < NBS` (R20); the number of stores is `NBS` (R12) -/
  stores : List Store
  /-- `enc.open`, `enc.bs`, `enc.cursor`, `enc.fault` (R23, R24, R29) -/
  enc : Session
  /-- `dec.open`, `dec.bs`, `dec.cursor`, `dec.fault` (R25, R26, R29) -/
  dec : Session
  /-- what the last operation answered -/
  response : Response
  /-- what the host has presented and the block has not taken, oldest first -/
  inputs : List Input
  /-- free words drawn so far -/
  draws : Nat
  deriving DecidableEq, Repr

/-- Why a step stops with a fault. The faults of the spec (R191) do not stop the machine: the operation answers
them and the block goes on. -/
inductive Fault where
  /-- raised by `step` alone, when the host has presented nothing: "each of their steps is the execution of one
  operation the host issued" (R14), so there is no step. Safe: nothing is said of what follows. -/
  | noOperation
  deriving DecidableEq, Repr

/-- Why an operation is refused: the uses of 60_exceptions.md R194, to which the spec gives no meaning ("a
model has no step for it"). Each is safe: the model stops where real hardware would do something unknown. -/
inductive Refusal where
  /-- raised by an arm of `exec` for an instruction without a meaning yet; safe. No arm raises it. -/
  | notModelled (mnemonic : String)
  /-- raised by `step`: the transaction presents no operation (R194 f, R81) or operands of the wrong widths
  (R40, R52); safe -/
  | undecodable (e : DecodeError)
  /-- raised by store operations, `*_OPEN` and session operations: a handle `h ≥ NBS` (R194 f); safe -/
  | badHandle
  /-- raised by encoder operations while `enc.open` is false (R194 a); safe -/
  | encoderNotOpen
  /-- raised by decoder operations while `dec.open` is false (R194 a); safe -/
  | decoderNotOpen
  /-- raised by `ENC_OPEN` while `enc.open` (R194 b); safe -/
  | encoderAlreadyOpen
  /-- raised by `DEC_OPEN` while `dec.open` (R194 b); safe -/
  | decoderAlreadyOpen
  /-- raised by encoder operations while `enc.fault` is not none (R194 c); safe -/
  | encoderFaulted
  /-- raised by decoder operations while `dec.fault` is not none (R194 c); safe -/
  | decoderFaulted
  /-- raised by `BS_*` and `DEC_OPEN` on the store the encoder holds (R194 d, R60 a); safe -/
  | borrowedByEncoder
  /-- raised by writing `BS_*` and `ENC_OPEN` on the store the decoder holds (R194 d, R60 b); safe -/
  | borrowedByDecoder
  /-- raised by `BS_WORD`, `BS_LOAD_WORD` with `k ≥ word_count` (R194 e); safe -/
  | wordIndex
  /-- raised by `BS_RESIZE` to fewer words (R194 e); safe -/
  | shrink
  /-- raised by `BS_RESIZE`, `BS_LOAD_WORD` not issued by the loader (R194 g); safe -/
  | notLoader
  deriving DecidableEq, Repr

/-- A store of no words: "Pixel data is empty" (R35). -/
def Store.empty : Store := { words := [] }

/-- A cursor sub-block after reset (R35). `bs` is "unspecified (any value; unreadable while [open] is
false)": the model names 0 (log entry 4, DESIGN CHOICE, unsafe). -/
def Session.reset : Session := { isOpen := false, bs := 0, cursor := 0, fault := none }

/-- The state of an instance after reset (R35, R210): "nothing has been constructed yet". -/
def State.resetOf (p : Params) (nbs : Nat) : State :=
  { params := p
    stores := List.replicate nbs Store.empty
    enc := Session.reset
    dec := Session.reset
    response := .quiet
    inputs := []
    draws := 0 }

/-- The machine right after reset, for the instance `Params.default` with `defaultNbs` stores
(log entry 1). -/
def State.reset : State := State.resetOf Params.default defaultNbs

end Sys2Proof.Machine
end

