-- ==== Sys2Proof/Machine/Operands.lean ====
section
/-! DEFINITION. Operand forms: where a stream bit lies in a store (20_memory.md R41), how pixels lie in a
block (40_pixel_block.md R91 to R93), how a pixel sequence falls into blocks (42_encoder.md R113, R114), and
the bits of a codeword (30_encoding.md R71). -/

namespace Sys2Proof.Machine

/-- `ceil_div(a, b)` (00_scope.md R16). -/
def ceilDiv (a b : Nat) : Nat := (a + b - 1) / b

/-! ### Where a stream bit lies (R41) -/

/-- The word of stream bit `i`: `k = i div W`. -/
def wordIndex (w i : Nat) : Nat := i / w

/-- The mask of stream bit `i`: `(1 << (W − 1)) >> (i mod W)`. -/
def bitMask (w i : Nat) : Word := ((1#64) <<< (w - 1)) >>> (i % w)

/-- The value bit of stream bit `i` in its word: `W − 1 − (i mod W)`. -/
def valueBit (w i : Nat) : Nat := w - 1 - i % w

/-- The low `W` bits of a drawn word: a store word has `W` bits (R21). -/
def truncateWord (w : Nat) (v : Word) : Word := v &&& BitVec.ofNat 64 (2 ^ w - 1)

/-! ### Limits of the instance -/

/-- A store of `n` words is within `MAX_WORDS` (00_scope.md R10; log entry 18). -/
def wordsAllowed (p : Params) (n : Nat) : Bool :=
  match p.maxWords with
  | none => true
  | some m => decide (n ≤ m)

/-- A cursor at `c` can advance by 1: it would not pass `2^IW − 1` (10_state.md R28; log entry 15). -/
def canAdvance (p : Params) (c : Nat) : Bool :=
  match p.indexBits with
  | none => true
  | some iw => decide (c + 1 < 2 ^ iw)

/-! ### Pixels in a block -/

/-- `COMBINE`: `{p0, p1, p2, p3}` under `P0_MSB` (R91), `{p3, p2, p1, p0}` under `P0_LSB` (R92). -/
def packPixels (o : PackOrder) (p0 p1 p2 p3 : Pixel) : Block :=
  match o with
  | .p0Msb => p0 ++ p1 ++ p2 ++ p3
  | .p0Lsb => p3 ++ p2 ++ p1 ++ p0

/-- `SPLIT` (R93): the four pixels in image order. -/
def unpackPixels (o : PackOrder) (b : Block) : List Pixel :=
  match o with
  | .p0Msb => [b.extractLsb' 24 8, b.extractLsb' 16 8, b.extractLsb' 8 8, b.extractLsb' 0 8]
  | .p0Lsb => [b.extractLsb' 0 8, b.extractLsb' 8 8, b.extractLsb' 16 8, b.extractLsb' 24 8]

/-- The blocks of a pixel sequence in order: groups of 4 from the start of this call (42_encoder.md R113), and
1 to 3 remaining pixels "padded with Black (0x00) to form one final block" (R114). -/
def blocksOf (o : PackOrder) : List Pixel → List Block
  | [] => []
  | [a] => [packPixels o a black black black]
  | [a, b] => [packPixels o a b black black]
  | [a, b, c] => [packPixels o a b c black]
  | a :: b :: c :: d :: rest => packPixels o a b c d :: blocksOf o rest

/-! ### Codewords -/

/-- The bits `ENC_BLOCK` writes for a block, in order (42_encoder.md R110, R111). -/
def codewordBits (b : Block) : List Bool :=
  if b = whiteBlock then [false]
  else if b = blackBlock then [true, false]
  else true :: true :: (List.range 32).map fun j => b.getLsbD (31 - j)

/-- The stream bits of a pixel sequence: its blocks' codewords back to back (42_encoder.md R112, R115). -/
def streamOf (o : PackOrder) (px : List Pixel) : List Bool :=
  (blocksOf o px).flatMap codewordBits

end Sys2Proof.Machine
end

