-- ==== Sys2Proof/Machine/Flags.lean ====
section
/-! DEFINITION. The block computes no flags (10_state.md R33). What stands here is the conditions an
operation tests before any step: the refused uses of 60_exceptions.md R194, "judged before anything else"
(R196). Where several grounds hold, the order of the names is the model's (log entry 12). -/

namespace Sys2Proof.Machine

/-- `h` names a store: `h < NBS` (00_scope.md R12). -/
def isHandle (s : State) (h : Nat) : Bool := decide (h < s.stores.length)

/-- The encoder holds its exclusive borrow of store `h` (20_memory.md R60 a). -/
def encHolds (s : State) (h : Nat) : Bool := s.enc.isOpen && decide (s.enc.bs = h)

/-- The decoder holds its shared borrow of store `h` (20_memory.md R60 b). -/
def decHolds (s : State) (h : Nat) : Bool := s.dec.isOpen && decide (s.dec.bs = h)

/-- What refuses a host read of store `h`: R194 f, then R60 a. -/
def hostReadGuard (h : Nat) (s : State) : Option Refusal :=
  if isHandle s h = false then some .badHandle
  else if encHolds s h then some .borrowedByEncoder
  else none

/-- What refuses a host write of store `h`: R194 f, then R60 a, b. -/
def hostWriteGuard (h : Nat) (s : State) : Option Refusal :=
  if isHandle s h = false then some .badHandle
  else if encHolds s h then some .borrowedByEncoder
  else if decHolds s h then some .borrowedByDecoder
  else none

/-- What refuses a loader's write of store `h`: R194 g, then as a host write (R199 b). -/
def loaderGuard (who : Issuer) (h : Nat) (s : State) : Option Refusal :=
  match who with
  | .driver => some .notLoader
  | .loader => hostWriteGuard h s

/-- What refuses `ENC_OPEN(h)`: R194 b, f, then R60 b (41_write_cursor.md R100). -/
def encOpenGuard (h : Nat) (s : State) : Option Refusal :=
  if s.enc.isOpen then some .encoderAlreadyOpen
  else if isHandle s h = false then some .badHandle
  else if decHolds s h then some .borrowedByDecoder
  else none

/-- What refuses `DEC_OPEN(h)`: R194 b, f, then R60 a (43_read_cursor.md R125). -/
def decOpenGuard (h : Nat) (s : State) : Option Refusal :=
  if s.dec.isOpen then some .decoderAlreadyOpen
  else if isHandle s h = false then some .badHandle
  else if encHolds s h then some .borrowedByEncoder
  else none

/-- What refuses `ENC_CURSOR` and `ENC_CLOSE`: R194 a alone (R103, R104). -/
def encSessionGuard (s : State) : Option Refusal :=
  if s.enc.isOpen = false then some .encoderNotOpen else none

/-- What refuses `DEC_CURSOR` and `DEC_CLOSE`: R194 a alone (R127, R128). -/
def decSessionGuard (s : State) : Option Refusal :=
  if s.dec.isOpen = false then some .decoderNotOpen else none

/-- What refuses a coding operation of the encoder: R194 a, c; and a bound handle `≥ NBS`, which no run
reaches (log entry 16). -/
def encGuard (s : State) : Option Refusal :=
  if s.enc.isOpen = false then some .encoderNotOpen
  else if s.enc.fault ≠ none then some .encoderFaulted
  else if isHandle s s.enc.bs = false then some .badHandle
  else none

/-- What refuses a coding operation of the decoder: R194 a, c; and a bound handle `≥ NBS` (log entry 16). -/
def decGuard (s : State) : Option Refusal :=
  if s.dec.isOpen = false then some .decoderNotOpen
  else if s.dec.fault ≠ none then some .decoderFaulted
  else if isHandle s s.dec.bs = false then some .badHandle
  else none

end Sys2Proof.Machine
end

