-- ==== Sys2Proof/Machine/Ops.lean ====
section
/-! DEFINITION. The named operations over stores and sessions that every meaning is written with: the three bit
operations of a store (20_memory.md R45, R46, R48), the primitive writes and the primitive read
(41_write_cursor.md R101, R102; 43_read_cursor.md R126), and taking a fault (60_exceptions.md R190, R197). -/

namespace Sys2Proof.Machine

/-! ### Stores -/

/-- Store `h`; a handle that names no store reads as a store of no words, and every operation refuses such a
handle before it reads. -/
def storeAt (s : State) (h : Nat) : Store := s.stores.getD h Store.empty

/-- The state with store `h` replaced. -/
def setStore (s : State) (h : Nat) (st : Store) : State := { s with stores := s.stores.set h st }

/-- `BS_TEST`'s value (R45): 0 past the last word, else value bit `W − 1 − (i mod W)` of word `i div W`. -/
def testBit (w : Nat) (st : Store) (i : Nat) : Bool :=
  if st.wordCount ≤ wordIndex w i then false
  else (st.words.getD (wordIndex w i) 0).getLsbD (valueBit w i)

/-- The store grown to at least `n` words, the new ones 0 (R46). -/
def growTo (n : Nat) (st : Store) : Store :=
  { words := st.words ++ List.replicate (n - st.wordCount) 0 }

/-- `BS_SET`'s effect on a store, growth included (R46). -/
def setBit (w : Nat) (st : Store) (i : Nat) : Store :=
  { words := (growTo (wordIndex w i + 1) st).words.modify (wordIndex w i) fun v => v ||| bitMask w i }

/-- `BS_CLEAR`'s effect on a store (R48): past the last word there is nothing to change. -/
def clearBit (w : Nat) (st : Store) (i : Nat) : Store :=
  { words := st.words.modify (wordIndex w i) fun v => v &&& ~~~(bitMask w i) }

/-- Stream bit `i` of store `h` in a state: `MemRead(h, i, 1)` (00_scope.md R18). -/
def bitAt (s : State) (h i : Nat) : Bool := testBit s.params.w (storeAt s h) i

/-! ### Steps that may fault -/

/-- How a sequence of primitive steps ends: with a value, or at the first faulting step. Either way with the
state after the last step that succeeded (60_exceptions.md R190: "precise"). -/
inductive Run (α : Type) where
  | done (a : α) (s : State)
  | faulted (f : FaultReport) (s : State)
  deriving DecidableEq, Repr

/-- One sequence after another; a fault ends both (R196). -/
def andThen {α β : Type} (r : Run α) (k : α → State → Run β) : Run β :=
  match r with
  | .done a s => k a s
  | .faulted f s => .faulted f s

/-- `MemWrite(h, i, 1, 1)`: `BS_SET` on store `h` (R46), or `AllocationFailed` and nothing changed where growth
would pass `MAX_WORDS` (R47). -/
def writeSet (h i : Nat) (s : State) : Run Unit :=
  let st := storeAt s h
  let k := wordIndex s.params.w i
  if st.wordCount ≤ k ∧ wordsAllowed s.params (k + 1) = false then
    .faulted (.allocationFailed h (k + 1)) s
  else .done () (setStore s h (setBit s.params.w st i))

/-- `MemWrite(h, i, 1, 0)`: `BS_CLEAR` on store `h` (R48); no fault. -/
def writeClear (h i : Nat) (s : State) : State :=
  setStore s h (clearBit s.params.w (storeAt s h) i)

/-- The state with the encoder's cursor one further. -/
def advanceEnc (s : State) : State := { s with enc := { s.enc with cursor := s.enc.cursor + 1 } }

/-- The state with the decoder's cursor one further. -/
def advanceDec (s : State) : State := { s with dec := { s.dec with cursor := s.dec.cursor + 1 } }

/-- `WRITE0` and `WRITE1` (R101, R102): `CursorOverflow` is tested before the store is touched (R193, R196). -/
def writeBit (b : Bool) (s : State) : Run Unit :=
  if canAdvance s.params s.enc.cursor = false then .faulted (.cursorOverflow .encoder) s
  else
    match b with
    | false => .done () (advanceEnc (writeClear s.enc.bs s.enc.cursor s))
    | true => andThen (writeSet s.enc.bs s.enc.cursor s) fun _ s' => .done () (advanceEnc s')

/-- Primitive writes in stream order (42_encoder.md R111). -/
def writeBits : List Bool → State → Run Unit
  | [], s => .done () s
  | b :: bs, s => andThen (writeBit b s) fun _ s' => writeBits bs s'

/-- The codewords of blocks in order (42_encoder.md R112). -/
def writeBlocks : List Block → State → Run Unit
  | [], s => .done () s
  | b :: bs, s => andThen (writeBits (codewordBits b) s) fun _ s' => writeBlocks bs s'

/-- `READ_BIT` (43_read_cursor.md R126). -/
def readOne (s : State) : Run Bool :=
  if canAdvance s.params s.dec.cursor = false then .faulted (.cursorOverflow .decoder) s
  else .done (bitAt s s.dec.bs s.dec.cursor) (advanceDec s)

/-- "read the next 32 bits MSB-first": `n` more bits shifted into `v` (44_decoder.md R135, R136). -/
def readLiteral : Nat → Block → State → Run Block
  | 0, v, s => .done v s
  | n + 1, v, s =>
      andThen (readOne s) fun t s' => readLiteral n ((v <<< 1) ||| (BitVec.ofBool t).setWidth 32) s'

/-- `DEC_BLOCK` (44_decoder.md R135). -/
def readBlock (s : State) : Run Block :=
  andThen (readOne s) fun t0 s1 =>
    match t0 with
    | false => .done whiteBlock s1
    | true =>
        andThen (readOne s1) fun t1 s2 =>
          match t1 with
          | false => .done blackBlock s2
          | true => readLiteral 32 0 s2

/-- `q` whole blocks, split and joined in order (44_decoder.md R137). -/
def readGroups : Nat → State → Run (List Pixel)
  | 0, s => .done [] s
  | q + 1, s =>
      andThen (readBlock s) fun b s' =>
        andThen (readGroups q s') fun px s'' => .done (unpackPixels s.params.packOrder b ++ px) s''

/-- `DECODE(n)`: `n div 4` groups, then one block more only if 1 to 3 pixels remain, of which the first are kept
(44_decoder.md R137 to R139). -/
def readPixels (n : Nat) (s : State) : Run (List Pixel) :=
  andThen (readGroups (n / 4) s) fun px s' =>
    if n % 4 = 0 then .done px s'
    else andThen (readBlock s') fun b s'' =>
      .done (px ++ (unpackPixels s.params.packOrder b).take (n % 4)) s''

/-- `n` reads whose values are known to the codeword being run (30_encoding.md R71). -/
def skipBits : Nat → State → Run Unit
  | 0, s => .done () s
  | n + 1, s => andThen (readOne s) fun _ s' => skipBits n s'

/-! ### Taking a fault, and ending an operation -/

/-- The code of a fault (60_exceptions.md R191). -/
def faultCode : FaultReport → FaultCode
  | .allocationFailed _ _ => .allocationFailed
  | .cursorOverflow _ => .cursorOverflow

/-- The number of a fault element's value: 1, 2, and 0 for none (R191, 92_eei_decisions.md D8). -/
def faultNumber : Option FaultCode → Nat
  | none => 0
  | some .allocationFailed => 1
  | some .cursorOverflow => 2

/-- Taking a fault: "The agent's fault element takes the fault's code", and a fault of an operation the host
issued on a store writes none (R197); the fault is the operation's response (R190; log entries 5 and 23). -/
def takeFault (who : Agent) (f : FaultReport) (s : State) : State :=
  match who with
  | .host => { s with response := .faulted f }
  | .encoder => { s with response := .faulted f, enc := { s.enc with fault := some (faultCode f) } }
  | .decoder => { s with response := .faulted f, dec := { s.dec with fault := some (faultCode f) } }

/-- The state in which an operation has answered. -/
def answer (r : Response) (s : State) : State := { s with response := r }

/-- The end of an operation of agent `who`: completed with its result, or ended by a fault (R190). -/
def finish {α : Type} (who : Agent) (result : α → Response) (r : Run α) :
    Host.Outcome State Fault Refusal :=
  match r with
  | .done a s => .next (answer (result a) s)
  | .faulted f s => .next (takeFault who f s)

/-- An operation under its guard: refused before any step (R196), else run. -/
def guarded (g : Option Refusal) (o : Host.Outcome State Fault Refusal) :
    Host.Outcome State Fault Refusal :=
  match g with
  | some r => .refused r
  | none => o

/-- Reset applied to a running instance (70_reset_and_hazards.md R210): the reset state of the same instance.
What the host has yet to present and the count of drawn words are no part of the block and stay. -/
def applyReset (s : State) : State :=
  { State.resetOf s.params s.stores.length with inputs := s.inputs, draws := s.draws }

/-! ### Presenting an instruction -/

/-- The bits of a codeword placed in the store the decoder is bound to, from its cursor on. -/
def placeBits : List Bool → Nat → Nat → State → State
  | [], _, _, s => s
  | b :: bs, h, i, s =>
      placeBits bs h (i + 1)
        (setStore s h
          (if b then setBit s.params.w (storeAt s h) i else clearBit s.params.w (storeAt s h) i))

/-- The state in which the next step takes what an encoding stands for: a transaction is presented first; a
codeword lies at the cursor of an open decoder session and `DEC_BLOCK` is presented first, the operation
that runs the codeword there (log entry 8). -/
def present (s : State) : Encoding → State
  | .op t => { s with inputs := .op t :: s.inputs }
  | .stream bits =>
      let s' := placeBits bits s.dec.bs s.dec.cursor s
      { s' with
        dec := { s'.dec with isOpen := true, fault := none }
        inputs := .op { code := 0x15, issuer := .driver, operands := [] } :: s'.inputs }

/-- A table word that is no encoding leaves the state as it is. -/
def presentTableWord (s : State) (nbits w : Nat) : State :=
  match tableEncoding nbits w with
  | none => s
  | some e => present s e

end Sys2Proof.Machine
end

