-- ==== Sys2Proof/Machine/BitSetStore.lean ====
section
/-! DEFINITION. The store operations a host issues (20_memory.md). -/

namespace Sys2Proof.Machine

/-- `BS_NEW(h, bit_count)` (R63): `ceil_div(bit_count, W)` words, all 0; any previous contents are discarded. -/
def execBsNew (h bitCount : Nat) (s : State) : Host.Outcome State Fault Refusal :=
  let n := ceilDiv bitCount s.params.w
  guarded (hostWriteGuard h s) <|
    if wordsAllowed s.params n = false then .next (takeFault .host (.allocationFailed h n) s)
    else .next (answer .done (setStore s h { words := List.replicate n 0 }))

/-- `BS_TEST(h, i)` (R45). -/
def execBsTest (h i : Nat) (s : State) : Host.Outcome State Fault Refusal :=
  guarded (hostReadGuard h s) <| .next (answer (.bit (bitAt s h i)) s)

/-- `BS_SET(h, i)` (R46). -/
def execBsSet (h i : Nat) (s : State) : Host.Outcome State Fault Refusal :=
  guarded (hostWriteGuard h s) <| finish .host (fun _ => .done) (writeSet h i s)

/-- `BS_CLEAR(h, i)` (R48). -/
def execBsClear (h i : Nat) (s : State) : Host.Outcome State Fault Refusal :=
  guarded (hostWriteGuard h s) <| .next (answer .done (writeClear h i s))

/-- `BS_WORD(h, k)` (R49): refused past the last word. -/
def execBsWord (h k : Nat) (s : State) : Host.Outcome State Fault Refusal :=
  guarded (hostReadGuard h s) <|
    if (storeAt s h).wordCount ≤ k then .refused .wordIndex
    else .next (answer (.word ((storeAt s h).words.getD k 0)) s)

/-- `BS_WORD_COUNT(h)` (R50). -/
def execBsWordCount (h : Nat) (s : State) : Host.Outcome State Fault Refusal :=
  guarded (hostReadGuard h s) <| .next (answer (.natural (storeAt s h).wordCount) s)

/-- The `m` words drawn next, each "an independent draw of `W` bits" (93_implementation_defined.md U1). -/
def drawnWords (m : Nat) (s : State) : List Word :=
  (List.range m).map fun j => truncateWord s.params.w (freeWord (s.draws + j))

/-- `BS_RESIZE(h, n)` (R51): the loader's; never to fewer words; the new words hold any value. -/
def execBsResize (who : Issuer) (h n : Nat) (s : State) : Host.Outcome State Fault Refusal :=
  let st := storeAt s h
  guarded (loaderGuard who h s) <|
    if n < st.wordCount then .refused .shrink
    else if wordsAllowed s.params n = false then .next (takeFault .host (.allocationFailed h n) s)
    else
      .next (answer .done
        { setStore s h { words := st.words ++ drawnWords (n - st.wordCount) s } with
          draws := s.draws + (n - st.wordCount) })

/-- `BS_LOAD_WORD(h, k, v)` (R52): the loader's; refused past the last word. -/
def execBsLoadWord (who : Issuer) (h k : Nat) (v : Word) (s : State) :
    Host.Outcome State Fault Refusal :=
  let st := storeAt s h
  guarded (loaderGuard who h s) <|
    if st.wordCount ≤ k then .refused .wordIndex
    else .next (answer .done (setStore s h { words := st.words.set k v }))

end Sys2Proof.Machine
end

