-- ==== Sys2Proof/Machine/Codewords.lean ====
section
/-! DEFINITION. The three codewords of the stream as instructions of the decoder (30_encoding.md R71): "`dec.cursor`
plays the part of a fetch pointer over a variable-length code" (10_state.md R27). Running a codeword reads its
bits and answers its block (44_decoder.md R135). Which codeword lies at the cursor is read by `DEC_BLOCK`
(log entry 13). -/

namespace Sys2Proof.Machine

/-- A codeword of `n` bits whose block is `b`, run by the decoder at its cursor. -/
def runCodeword (n : Nat) (b : Block) (s : State) : Run Block :=
  andThen (skipBits n s) fun _ s' => .done b s'

/-- `CW_WHITE`: 1 bit, `0xFFFFFFFF` (R71). -/
def execCwWhite (s : State) : Host.Outcome State Fault Refusal :=
  guarded (decGuard s) <| finish .decoder .block (runCodeword 1 whiteBlock s)

/-- `CW_BLACK`: 2 bits, `0x00000000` (R71). -/
def execCwBlack (s : State) : Host.Outcome State Fault Refusal :=
  guarded (decGuard s) <| finish .decoder .block (runCodeword 2 blackBlock s)

/-- `CW_LITERAL`: 34 bits, the block of its `lit` field, also where it is white or black (R71, R76). -/
def execCwLiteral (lit : Block) (s : State) : Host.Outcome State Fault Refusal :=
  guarded (decGuard s) <| finish .decoder .block (runCodeword 34 lit s)

end Sys2Proof.Machine
end

