-- ==== Sys2Proof/Machine/Decoder.lean ====
section
/-! DEFINITION. `prefix_code_decoder`, the decoding sub-block (44_decoder.md). It validates nothing (R145). -/

namespace Sys2Proof.Machine

/-- `DEC_BLOCK` (R135). -/
def execDecBlock (s : State) : Host.Outcome State Fault Refusal :=
  guarded (decGuard s) <| finish .decoder .block (readBlock s)

/-- `DECODE(n)` (R137 to R139). -/
def execDecode (n : Nat) (s : State) : Host.Outcome State Fault Refusal :=
  guarded (decGuard s) <| finish .decoder .pixels (readPixels n s)

end Sys2Proof.Machine
end

