-- ==== Sys2Proof/Machine/Encoder.lean ====
section
/-! DEFINITION. `prefix_code_encoder`, the coding sub-block of the encoder (42_encoder.md). -/

namespace Sys2Proof.Machine

/-- `ENC_BLOCK(b)` (R110): the codeword of one block, one primitive write a bit. -/
def execEncBlock (b : Block) (s : State) : Host.Outcome State Fault Refusal :=
  guarded (encGuard s) <| finish .encoder (fun _ => .done) (writeBits (codewordBits b) s)

/-- `ENCODE(pixels)` (R112): the codewords of the sequence's blocks, tail padded (R114); nothing for no
pixels (R117). -/
def execEncode (pixels : List Pixel) (s : State) : Host.Outcome State Fault Refusal :=
  guarded (encGuard s) <|
    finish .encoder (fun _ => .done) (writeBlocks (blocksOf s.params.packOrder pixels) s)

end Sys2Proof.Machine
end

