-- ==== Sys2Proof/Machine/PixelBlock.lean ====
section
/-! DEFINITION. `bit_packer_4px_to_32b` and `bit_unpacker_32b_to_4px` (40_pixel_block.md). Neither touches
the block's state, faults or is refused. -/

namespace Sys2Proof.Machine

/-- `COMBINE(p0, p1, p2, p3)` (R90). -/
def execCombine (p0 p1 p2 p3 : Pixel) (s : State) : Host.Outcome State Fault Refusal :=
  .next (answer (.block (packPixels s.params.packOrder p0 p1 p2 p3)) s)

/-- `SPLIT(b)` (R93). -/
def execSplit (b : Block) (s : State) : Host.Outcome State Fault Refusal :=
  .next (answer (.pixels (unpackPixels s.params.packOrder b)) s)

end Sys2Proof.Machine
end

