-- ==== Sys2Proof/Machine/ReadCursor.lean ====
section
/-! DEFINITION. `bitset_read_cursor` (43_read_cursor.md). -/

namespace Sys2Proof.Machine

/-- `DEC_OPEN(h)` (R125). -/
def execDecOpen (h : Nat) (s : State) : Host.Outcome State Fault Refusal :=
  guarded (decOpenGuard h s) <|
    .next (answer .done { s with dec := { isOpen := true, bs := h, cursor := 0, fault := none } })

/-- `READ_BIT` (R126). -/
def execReadBit (s : State) : Host.Outcome State Fault Refusal :=
  guarded (decGuard s) <| finish .decoder .bit (readOne s)

/-- `DEC_CURSOR` (R128): allowed on a faulted session. -/
def execDecCursor (s : State) : Host.Outcome State Fault Refusal :=
  guarded (decSessionGuard s) <| .next (answer (.status s.dec.cursor s.dec.fault) s)

/-- `DEC_CLOSE` (R127). -/
def execDecClose (s : State) : Host.Outcome State Fault Refusal :=
  guarded (decSessionGuard s) <|
    .next (answer .done { s with dec := { s.dec with isOpen := false } })

end Sys2Proof.Machine
end

