-- ==== Sys2Proof/Machine/WriteCursor.lean ====
section
/-! DEFINITION. `bitset_write_cursor` (41_write_cursor.md). -/

namespace Sys2Proof.Machine

/-- `ENC_OPEN(h)` (R100): the store is not touched, the cursor starts at 0 whatever the store holds. -/
def execEncOpen (h : Nat) (s : State) : Host.Outcome State Fault Refusal :=
  guarded (encOpenGuard h s) <|
    .next (answer .done { s with enc := { isOpen := true, bs := h, cursor := 0, fault := none } })

/-- `WRITE0` (R101). -/
def execWrite0 (s : State) : Host.Outcome State Fault Refusal :=
  guarded (encGuard s) <| finish .encoder (fun _ => .done) (writeBit false s)

/-- `WRITE1` (R102). -/
def execWrite1 (s : State) : Host.Outcome State Fault Refusal :=
  guarded (encGuard s) <| finish .encoder (fun _ => .done) (writeBit true s)

/-- `ENC_CURSOR` (R104): allowed on a faulted session. -/
def execEncCursor (s : State) : Host.Outcome State Fault Refusal :=
  guarded (encSessionGuard s) <| .next (answer (.status s.enc.cursor s.enc.fault) s)

/-- `ENC_CLOSE` (R103): `enc.cursor`, `enc.bs` and `enc.fault` keep their values. -/
def execEncClose (s : State) : Host.Outcome State Fault Refusal :=
  guarded (encSessionGuard s) <|
    .next (answer .done { s with enc := { s.enc with isOpen := false } })

end Sys2Proof.Machine
end

