-- ==== Sys2Proof/Machine/Dispatch.lean ====
section
/-! DEFINITION. The meaning of every instruction, one arm for each row of spec/opcode_table.json. -/

namespace Sys2Proof.Machine

def exec (i : Instr) (s : State) : Host.Outcome State Fault Refusal :=
  match i with
  | .cwWhite => Sys2Proof.Machine.execCwWhite s
  | .cwBlack => Sys2Proof.Machine.execCwBlack s
  | .cwLiteral lit => Sys2Proof.Machine.execCwLiteral lit s
  | .bsNew h bitCount => Sys2Proof.Machine.execBsNew h bitCount s
  | .bsTest h j => Sys2Proof.Machine.execBsTest h j s
  | .bsSet h j => Sys2Proof.Machine.execBsSet h j s
  | .bsClear h j => Sys2Proof.Machine.execBsClear h j s
  | .bsWord h k => Sys2Proof.Machine.execBsWord h k s
  | .bsWordCount h => Sys2Proof.Machine.execBsWordCount h s
  | .bsResize who h n => Sys2Proof.Machine.execBsResize who h n s
  | .bsLoadWord who h k v => Sys2Proof.Machine.execBsLoadWord who h k v s
  | .combine p0 p1 p2 p3 => Sys2Proof.Machine.execCombine p0 p1 p2 p3 s
  | .split b => Sys2Proof.Machine.execSplit b s
  | .encOpen h => Sys2Proof.Machine.execEncOpen h s
  | .write0 => Sys2Proof.Machine.execWrite0 s
  | .write1 => Sys2Proof.Machine.execWrite1 s
  | .encCursor => Sys2Proof.Machine.execEncCursor s
  | .encClose => Sys2Proof.Machine.execEncClose s
  | .encBlock b => Sys2Proof.Machine.execEncBlock b s
  | .encode pixels => Sys2Proof.Machine.execEncode pixels s
  | .decOpen h => Sys2Proof.Machine.execDecOpen h s
  | .readBit => Sys2Proof.Machine.execReadBit s
  | .decCursor => Sys2Proof.Machine.execDecCursor s
  | .decClose => Sys2Proof.Machine.execDecClose s
  | .decBlock => Sys2Proof.Machine.execDecBlock s
  | .decode n => Sys2Proof.Machine.execDecode n s

end Sys2Proof.Machine
end

