-- ==== Sys2Proof/Machine/Step.lean ====
section
/-! DEFINITION. One step of the block: it takes the oldest thing the host presented, a reset (70_reset_and_hazards.md
R210) or one operation, "one atomic transition" (00_scope.md R15). -/

namespace Sys2Proof.Machine

/-- The machine's step (log entries 7, 8 and 17). -/
def step (s : State) : Host.Outcome State Fault Refusal :=
  match s.inputs with
  | [] => .fault .noOperation
  | .reset :: rest => .next (applyReset { s with inputs := rest })
  | .op t :: rest =>
      match decodeOp s.params t with
      | .instr i => exec i { s with inputs := rest }
      | .rejected e => .refused (.undecodable e)

/-- `s` with the instruction of a table row placed where the next step takes it (the host's probe). -/
def State.withFetchWord (s : State) (nbits w : Nat) : State := presentTableWord s nbits w

end Sys2Proof.Machine
end

