-- ==== Sys2Proof/Machine/HostContext.lean ====
section
/-! DEFINITION. The host software around the block (47_host_context.md), as sequences of the block's operations. It is
outside the block (00_scope.md R5) and no step of the machine depends on it; it is written down so that
the document's whole-image rules can be stated over the block's own meanings (log entries 20 to 28). -/

namespace Sys2Proof.Machine

/-! ### The host's data (R150, R157) -/

/-- A byte of a file (R175). -/
abbrev Byte := BitVec 8

/-- The host's byte order, which the document leaves to the host (R175; 93_implementation_defined.md U5). -/
inductive ByteOrder where
  | little
  | big
  deriving DecidableEq, Repr

/-- BitmapSize: "width, height (unsigned, machine-word)" (R150). -/
structure BitmapSize where
  width : Nat
  height : Nat
  deriving DecidableEq, Repr

/-- Bitmap: "BitmapSize, owned contiguous array of width·height pixels" (R150). It is plain data: a copy is deep (R152,
R156), and equality is equality of dimensions and pixels (R156). -/
structure Bitmap where
  size : BitmapSize
  pixels : List Pixel
  deriving DecidableEq, Repr

/-- CompressedBitmap: "a BitmapSize and two BitSet stores" (R157), the stores by their handles. -/
structure CompressedBitmap where
  size : BitmapSize
  /-- the handle of the row lookup table -/
  lookup : Nat
  /-- the handle of the pixel data -/
  pixelData : Nat
  deriving DecidableEq, Repr

/-- BitmapSize's invariant: "width ≥ 1, height ≥ 1, width × height does not overflow the address space" (R150). -/
abbrev SizeValid (p : Params) (z : BitmapSize) : Prop :=
  1 ≤ z.width ∧ 1 ≤ z.height ∧ z.width * z.height < 2 ^ p.w

/-- Bitmap's invariant: a valid size, and exactly one pixel for every `0 ≤ x < width`, `0 ≤ y < height` (R150). -/
abbrev BitmapValid (p : Params) (b : Bitmap) : Prop :=
  SizeValid p b.size ∧ b.pixels.length = b.size.width * b.size.height

/-- What a CompressedBitmap owes before its contents: a valid size, two separate stores of the instance, a row lookup table
of `⌈height / W⌉` words (R150, R157, R158), and a pixel data store whose word count a machine word can hold (R175). -/
abbrev CompressedValid (s : State) (c : CompressedBitmap) : Prop :=
  SizeValid s.params c.size ∧ c.lookup ≠ c.pixelData ∧
  c.lookup < s.stores.length ∧ c.pixelData < s.stores.length ∧
  (storeAt s c.lookup).wordCount = ceilDiv c.size.height s.params.w ∧
  (storeAt s c.pixelData).wordCount < 2 ^ s.params.w

/-- `width()` of a Bitmap (R155). -/
def bitmapWidth (b : Bitmap) : Nat := b.size.width

/-- `height()` of a Bitmap (R155). -/
def bitmapHeight (b : Bitmap) : Nat := b.size.height

/-- `pixel_count()` (R155). -/
def pixelCount (b : Bitmap) : Nat := b.size.width * b.size.height

/-- `width()` of a CompressedBitmap: it mirrors BitmapSize (R159). -/
def compressedWidth (c : CompressedBitmap) : Nat := c.size.width

/-- `height()` of a CompressedBitmap: it mirrors BitmapSize (R159). -/
def compressedHeight (c : CompressedBitmap) : Nat := c.size.height

/-- The host's error kinds (R184), and the ways a job ends that the document has no kind for. -/
inductive HostError where
  /-- InvalidSize.TooSmall -/
  | tooSmall
  /-- InvalidSize.TooLarge -/
  | tooLarge
  /-- InvalidCoordinate.X, with the coordinate -/
  | coordinateX (x : Nat)
  /-- InvalidCoordinate.Y, with the coordinate -/
  | coordinateY (y : Nat)
  /-- IoShortRead, with "the number of bytes requested and produced" -/
  | ioShortRead (requested produced : Nat)
  /-- IoWriteFailed, with the number of bytes requested and produced -/
  | ioWriteFailed (requested produced : Nat)
  /-- a fault of the block "propagated" (AllocationFailed, R184; R185) -/
  | blockFault (f : FaultReport)
  /-- the block refused: the host broke a rule of 60_exceptions.md R194 -/
  | blockRefused (r : Refusal)
  /-- the operation cannot be presented: an operand is wider than the instance has (log entry 24) -/
  | notPresentable (i : Instr)
  /-- the host named one store twice where the stores must be separate (R157; log entry 25) -/
  | storesNotSeparate
  deriving DecidableEq, Repr

/-! ### Sizes, bitmaps and accessors -/

/-- `MAX_USIZE = 2^W − 1` (R150). -/
def maxUsize (p : Params) : Nat := 2 ^ p.w - 1

/-- `BitmapSize(width, height)`: TooSmall is tested before TooLarge (R153). -/
def checkSize (p : Params) (z : BitmapSize) : Except HostError Unit :=
  if z.width = 0 ∨ z.height = 0 then .error .tooSmall
  else if maxUsize p / z.width < z.height then .error .tooLarge
  else .ok ()

/-- The host can back a buffer of `n` pixels. No host backs `MAX_USIZE − 1` pixels or more, so that `Bitmap(MAX_USIZE/2, 2)`
fails as R187 says it must; below that `room` is the host's limit, `none` for none (log entry 21). -/
def canAllocate (p : Params) (room : Option Nat) (n : Nat) : Bool :=
  decide (n + 1 < maxUsize p) &&
    match room with
    | none => true
    | some r => decide (n ≤ r)

/-- The Bitmap constructor (R154): an allocation that fails is TooLarge. -/
def newBitmap (p : Params) (room : Option Nat) (z : BitmapSize) (background : Pixel) :
    Except HostError Bitmap :=
  match checkSize p z with
  | .error e => .error e
  | .ok () =>
      if canAllocate p room (z.width * z.height) then
        .ok { size := z, pixels := List.replicate (z.width * z.height) background }
      else .error .tooLarge

/-- The `width` pixels of row `y`: "pixels `y·width … y·width + width − 1`" (R150). -/
def rowPixels (b : Bitmap) (y : Nat) : List Pixel :=
  (b.pixels.drop (y * b.size.width)).take b.size.width

/-- `row_at(y)` (R155), the view read: the `width` pixels of row `y`. The document's view is "mutable (or immutable)"; the
model reads it with this function and writes it with `writeRowAt`, and no view lives on between the two (DESIGN CHOICE,
safe: log entry 28). -/
def rowAt (b : Bitmap) (y : Nat) : Except HostError (List Pixel) :=
  if b.size.height ≤ y then .error (.coordinateY y) else .ok (rowPixels b y)

/-- `row_at(y)` (R155), the view written: the first pixels of row `y` become `row`, of which a view of `width` pixels takes
no more than `width`; every other pixel stays (log entry 28). -/
def writeRowAt (b : Bitmap) (y : Nat) (row : List Pixel) : Except HostError Bitmap :=
  if b.size.height ≤ y then .error (.coordinateY y)
  else
    .ok
      { b with
        pixels :=
          b.pixels.take (y * b.size.width) ++ row.take b.size.width ++
            b.pixels.drop (y * b.size.width + (row.take b.size.width).length) }

/-- `pixel_at(x, y)`: "X is checked first" (R155). -/
def pixelAt (b : Bitmap) (x y : Nat) : Except HostError Pixel :=
  if b.size.width ≤ x then .error (.coordinateX x)
  else if b.size.height ≤ y then .error (.coordinateY y)
  else .ok (b.pixels.getD (y * b.size.width + x) 0)

/-- "A row is *empty* iff every pixel equals White (0xFF)" (R151). -/
def isEmptyRow (row : List Pixel) : Bool := row.all fun q => decide (q = white)

/-- The rows of a bitmap in increasing `y`. -/
def rowsOf (b : Bitmap) : List (List Pixel) := (List.range b.size.height).map (rowPixels b)

/-- "the concatenated encodings of non-empty rows in increasing y order" (R150, R157). -/
def imageStream (o : PackOrder) (b : Bitmap) : List Bool :=
  ((rowsOf b).filter fun row => row.any fun q => decide (q ≠ 0xFF)).flatMap (streamOf o)

/-- `c` is the compressed form of `b`: its size, "lookup table bit y = 1 iff row y is non-empty", and as pixel data the
encodings of the non-empty rows, with nothing after them (R150, R157). -/
def Represents (s : State) (c : CompressedBitmap) (b : Bitmap) : Prop :=
  c.size = b.size ∧
  (∀ y, bitAt s c.lookup y = true ↔ y < b.size.height ∧ ∃ q ∈ rowPixels b y, q ≠ 0xFF) ∧
  ∀ j, bitAt s c.pixelData j = (imageStream s.params.packOrder b).getD j false

/-! ### Jobs of the host -/

/-- How a piece of the host's work ends: what it answers to its caller (R185), the state it leaves also where it ends in an
error, and the progress calls it made, "the only observable intermediate signal" (R188). Nothing else goes in or out
between its operations: no job takes a wish to abort (R188). -/
structure Job (α : Type) where
  result : Except HostError α
  state : State
  calls : List (Nat × Nat)

/-- Work that answers at once. -/
def finished {α : Type} (a : α) (s : State) : Job α := { result := .ok a, state := s, calls := [] }

/-- Work that ends in an error at once. -/
def failed {α : Type} (e : HostError) (s : State) : Job α :=
  { result := .error e, state := s, calls := [] }

/-- Work that is a value or an error and leaves the state alone. -/
def ofExcept {α : Type} (r : Except HostError α) (s : State) : Job α :=
  { result := r, state := s, calls := [] }

/-- One piece of work after another; an error ends both: "there are no retries, no partial recoveries" (R185). -/
def andDo {α β : Type} (j : Job α) (k : α → State → Job β) : Job β :=
  match j.result with
  | .error e => { result := .error e, state := j.state, calls := j.calls }
  | .ok a => { k a j.state with calls := j.calls ++ (k a j.state).calls }

/-- One call of the progress callback (R183). -/
def progress (step total : Nat) (s : State) : Job Unit :=
  { result := .ok (), state := s, calls := [(step, total)] }

/-- One operation issued to the block: what it answered, or the error that "surfaces to the caller" (R185). An operation
with an operand the instance has no width for is not presented, as `step` would refuse it: BS_SET and BS_TEST of a row
`y ≥ 2^IW` (R159, R162) against 20_memory.md R40, which the document leaves open (DESIGN CHOICE, safe: log entry 24).
`step`'s own stop has no part here, so a fault outcome of `exec` does not arise. -/
def issue (i : Instr) (s : State) : Job Response :=
  if wellFormed s.params i = false then failed (.notPresentable i) s
  else
    match exec i s with
    | .next t =>
        match t.response with
        | .faulted f => failed (.blockFault f) t
        | r => finished r t
    | .refused r => failed (.blockRefused r) s
    | .fault .noOperation => failed (.notPresentable i) s

/-- An operation issued for its effect. -/
def issueFor (i : Instr) (s : State) : Job Unit := andDo (issue i s) fun _ t => finished () t

/-- Operations issued one after another, stopping at the first error. -/
def issueAll : List Instr → State → Job Unit
  | [], s => finished () s
  | i :: is, s => andDo (issueFor i s) fun _ t => issueAll is t

/-- The end of the scope that owns an Encoder or Decoder: it is "destroyed when the owning scope exits" (R152), so the
session is closed whether the work in the scope ended well or in an error, which then goes on to the caller. -/
def leaveScope {α : Type} (close : Instr) (j : Job α) : Job α :=
  { result :=
      match j.result with
      | .error e => .error e
      | .ok a =>
          match (issueFor close j.state).result with
          | .error e => .error e
          | .ok () => .ok a
    state := (issueFor close j.state).state
    calls := j.calls }

/-! ### Construction, copy and the row table of a CompressedBitmap -/

/-- The constructor of a CompressedBitmap on stores `l` (row lookup table) and `d` (pixel data): `height` bits all zero,
and no words (R158). The two are "separate stores (separate handles)" (R157). -/
def newCompressed (l d : Nat) (z : BitmapSize) (s : State) : Job CompressedBitmap :=
  andDo (ofExcept (checkSize s.params z) s) fun _ t =>
    if l = d then failed .storesNotSeparate t
    else
      andDo (issueAll [.bsNew l z.height, .bsNew d 0] t) fun _ u =>
        finished { size := z, lookup := l, pixelData := d } u

/-- `is_empty_row_at(y)` (R159). -/
def isEmptyRowAt (c : CompressedBitmap) (y : Nat) (s : State) : Job Bool :=
  if c.size.height ≤ y then failed (.coordinateY y) s
  else
    andDo (issue (.bsTest c.lookup y) s) fun r t =>
      match r with
      | .bit v => finished (!v) t
      | _ => finished true t

/-- The words of a store from index `k` on, `n` of them, read with `BS_WORD` (R49). -/
def readWords (h : Nat) : Nat → Nat → State → Job (List Nat)
  | 0, _, s => finished [] s
  | n + 1, k, s =>
      andDo (issue (.bsWord h k) s) fun r t =>
        andDo (readWords h n (k + 1) t) fun rest u =>
          match r with
          | .word v => finished (v.toNat :: rest) u
          | _ => finished (0 :: rest) u

/-- A store's words, all `word_count` of them: what `save` writes (R174, R176) and a copy takes (log entry 26). -/
def readStore (h : Nat) (s : State) : Job (List Nat) :=
  andDo (issue (.bsWordCount h) s) fun r t =>
    match r with
    | .natural n => readWords h n 0 t
    | _ => finished [] t

/-- The stream indices at which words of `w` bits hold a 1, most significant bit first (20_memory.md R41). -/
def oneIndices (w : Nat) (words : List Nat) : List Nat :=
  (List.range (words.length * w)).filter fun i => (words.getD (i / w) 0).testBit (w - 1 - i % w)

/-- The bits that are 1 in `words`, set one by one in store `h`. The document gives a copy no operations (R152); that the
host writes it with `BS_SET` is the model's choice (DESIGN CHOICE, safe: log entry 26). So a 1 at an index of `2^IW` or
more, which the loader alone can have put there, has no operation to set it, and the copy ends in `notPresentable`
(DESIGN CHOICE, safe: log entries 24, 26); a 0 at such an index asks for none. -/
def copyBits (h : Nat) (words : List Nat) (s : State) : Job Unit :=
  issueAll ((oneIndices s.params.w words).map fun i => .bsSet h i) s

/-- Store `h` made a copy of store `g`: as many words, the same bits. -/
def copyStore (g h : Nat) (s : State) : Job Unit :=
  andDo (readStore g s) fun words t =>
    andDo (issueFor (.bsNew h (words.length * t.params.w)) t) fun _ u => copyBits h words u

/-- A copy of a CompressedBitmap into two other stores: "copies are deep" (R152; log entry 26). -/
def copyCompressed (c : CompressedBitmap) (l d : Nat) (s : State) : Job CompressedBitmap :=
  if [c.lookup, c.pixelData, l, d].Nodup then
    andDo (copyStore c.lookup l s) fun _ t =>
      andDo (copyStore c.pixelData d t) fun _ u =>
        finished { size := c.size, lookup := l, pixelData := d } u
  else failed .storesNotSeparate s

/-! ### compress and uncompress -/

/-- The operations for row `y`: nothing for an empty row, else "set lookup bit y, then encode the row" (R162 step 3). -/
def rowOps (l y : Nat) (row : List Pixel) : List Instr :=
  if isEmptyRow row then [] else [.bsSet l y, .encode row]

/-- The rows from row `y` on, each after its progress call, and the last progress call (R162 steps 3 and 4). -/
def compressRows (l height : Nat) : Nat → List (List Pixel) → State → Job Unit
  | _, [], s => progress height height s
  | y, row :: rest, s =>
      andDo (progress y height s) fun _ t =>
        andDo (issueAll (rowOps l y row) t) fun _ u => compressRows l height (y + 1) rest u

/-- `compress` (R161, R162): one encoder session for the whole image (R164). -/
def compress (l d : Nat) (b : Bitmap) (s : State) : Job CompressedBitmap :=
  andDo (newCompressed l d b.size s) fun c t =>
    andDo (issueFor (.encOpen d) t) fun _ u =>
      leaveScope .encClose
        (andDo (compressRows l b.size.height 0 (rowsOf b) u) fun _ v => finished c v)

/-- One row of `uncompress` (R169 step 3): skipped where the lookup bit is 0, since it is already white, else
`row_at(y) <- DECODE(width)`. -/
def uncompressRow (l y : Nat) (b : Bitmap) (s : State) : Job Bitmap :=
  andDo (issue (.bsTest l y) s) fun r t =>
    match r with
    | .bit true =>
        andDo (issue (.decode b.size.width) t) fun q u =>
          match q with
          | .pixels px => ofExcept (writeRowAt b y px) u
          | _ => finished b u
    | _ => finished b t

/-- `n` rows from row `y` on, in order (R170), each after its progress call, and the last progress call. -/
def uncompressRows (l : Nat) : Nat → Nat → Bitmap → State → Job Bitmap
  | 0, _, b, s => andDo (progress b.size.height b.size.height s) fun _ t => finished b t
  | n + 1, y, b, s =>
      andDo (progress y b.size.height s) fun _ t =>
        andDo (uncompressRow l y b t) fun b' u => uncompressRows l n (y + 1) b' u

/-- `uncompress` (R168, R169): a white Bitmap, then one decoder session for the whole image. -/
def uncompress (room : Option Nat) (c : CompressedBitmap) (s : State) : Job Bitmap :=
  andDo (ofExcept (newBitmap s.params room c.size white) s) fun b t =>
    andDo (issueFor (.decOpen c.pixelData) t) fun _ u =>
      leaveScope .decClose (uncompressRows c.lookup c.size.height 0 b u)

/-- What a caller does to abort a job: it must "tear down the worker" (R188), which "corresponds to resetting the block"
(60_exceptions.md R195). -/
def tearDownWorker (s : State) : State := applyReset s

/-- Two images on one instance are disjoint where no store belongs to both: what R188 asks of callers that work on several
images. -/
def disjointImages (c e : CompressedBitmap) : Bool :=
  [c.lookup, c.pixelData].all fun h => decide (h ∉ [e.lookup, e.pixelData])

/-! ### Machine words as bytes (R175) -/

/-- How many bytes a machine word has: `W / 8` (R175). -/
def wordBytes (p : Params) : Nat := p.w / 8

/-- The low `n` bytes of a number, least significant first. -/
def bytesOf : Nat → Nat → List Byte
  | 0, _ => []
  | n + 1, v => BitVec.ofNat 8 v :: bytesOf n (v / 256)

/-- The number whose bytes, least significant first, are given. -/
def numberOf : List Byte → Nat
  | [] => 0
  | b :: rest => b.toNat + 256 * numberOf rest

/-- One machine word in the host's byte order; of a number that has more than `W` bits the low ones (R175; log entry
20). -/
def encodeWord (p : Params) (o : ByteOrder) (v : Nat) : List Byte :=
  match o with
  | .little => bytesOf (wordBytes p) v
  | .big => (bytesOf (wordBytes p) v).reverse

/-- The number a machine word in the host's byte order stands for. -/
def decodeWord (o : ByteOrder) (bytes : List Byte) : Nat :=
  match o with
  | .little => numberOf bytes
  | .big => numberOf bytes.reverse

/-- `n` machine words from the front of a byte string. -/
def decodeWords (p : Params) (o : ByteOrder) : Nat → List Byte → List Nat
  | 0, _ => []
  | n + 1, bytes =>
      decodeWord o (bytes.take (wordBytes p)) :: decodeWords p o n (bytes.drop (wordBytes p))

/-! ### save (R174, R178) -/

/-- An abstract byte sink: the bytes it took, and how many more it takes, `none` for no limit (log entry 22). -/
structure Sink where
  written : List Byte
  room : Option Nat
  deriving DecidableEq, Repr

/-- One item written to a sink; an item that does not fit is IoWriteFailed with the bytes asked for and the bytes it could
take (R184). -/
def emit (bytes : List Byte) (k : Sink) (s : State) : Job Sink :=
  match k.room with
  | none => finished { written := k.written ++ bytes, room := none } s
  | some r =>
      if r < bytes.length then failed (.ioWriteFailed bytes.length r) s
      else finished { written := k.written ++ bytes, room := some (r - bytes.length) } s

/-- `save`: width, height, the lookup table's words, the pixel data's word count, its words, in order (R174, R178). -/
def save (room : Option Nat) (o : ByteOrder) (c : CompressedBitmap) (s : State) : Job (List Byte) :=
  andDo (emit (encodeWord s.params o c.size.width) { written := [], room := room } s) fun k1 s1 =>
  andDo (emit (encodeWord s.params o c.size.height) k1 s1) fun k2 s2 =>
  andDo (readStore c.lookup s2) fun table s3 =>
  andDo (emit (table.flatMap (encodeWord s.params o)) k2 s3) fun k3 s4 =>
  andDo (readStore c.pixelData s4) fun data s5 =>
  andDo (emit (encodeWord s.params o data.length) k3 s5) fun k4 s6 =>
  andDo (emit (data.flatMap (encodeWord s.params o)) k4 s6) fun k5 s7 =>
    finished k5.written s7

/-! ### load (R177, R181) -/

/-- `n` machine words asked of a byte source that holds `file`: the words and the bytes left, or IoShortRead with the bytes
asked for and had (R177, R184; log entry 22). -/
def takeWords (o : ByteOrder) (n : Nat) (file : List Byte) (s : State) : Job (List Nat × List Byte) :=
  if file.length < n * wordBytes s.params then
    failed (.ioShortRead (n * wordBytes s.params) file.length) s
  else
    finished (decodeWords s.params o n file, file.drop (n * wordBytes s.params)) s

/-- `BS_LOAD_WORD` for each word from index `k` on (R177). -/
def loadOps (h : Nat) : Nat → List Nat → List Instr
  | _, [] => []
  | k, v :: rest => .bsLoadWord .loader h k (BitVec.ofNat 64 v) :: loadOps h (k + 1) rest

/-- A store resized "to exactly that many words" and then read (R177, R181): the resize comes before the reading. Answers
the bytes left. -/
def loadStore (o : ByteOrder) (h n : Nat) (file : List Byte) (s : State) : Job (List Byte) :=
  andDo (issueFor (.bsResize .loader h n) s) fun _ t =>
    andDo (takeWords o n file t) fun got u =>
      andDo (issueAll (loadOps h 0 got.1) u) fun _ v => finished got.2 v

/-- `load` (R177): width and height are read and checked, then into two fresh stores the lookup table's `⌈height / W⌉`
words and the counted pixel data (log entry 27). -/
def load (o : ByteOrder) (l d : Nat) (file : List Byte) (s : State) : Job CompressedBitmap :=
  andDo (takeWords o 1 file s) fun w s1 =>
  andDo (takeWords o 1 w.2 s1) fun h s2 =>
  andDo (ofExcept (checkSize s.params { width := w.1.getD 0 0, height := h.1.getD 0 0 }) s2)
    fun _ s3 =>
  if l = d then failed .storesNotSeparate s3
  else
    andDo (issueAll [.bsNew l 0, .bsNew d 0] s3) fun _ s4 =>
    andDo (loadStore o l (ceilDiv (h.1.getD 0 0) s.params.w) h.2 s4) fun rest s5 =>
    andDo (takeWords o 1 rest s5) fun n s6 =>
    andDo (loadStore o d (n.1.getD 0 0) n.2 s6) fun _ s7 =>
      finished
        { size := { width := w.1.getD 0 0, height := h.1.getD 0 0 }, lookup := l, pixelData := d } s7

/-- Equality of two CompressedBitmaps, "structural equality of size, lookup table, pixel data" (R177): the words of `c` in
`s` against those of `e` in `t`. -/
def sameCompressed (c : CompressedBitmap) (s : State) (e : CompressedBitmap) (t : State) : Bool :=
  decide (c.size = e.size ∧ storeAt s c.lookup = storeAt t e.lookup ∧
    storeAt s c.pixelData = storeAt t e.pixelData)

end Sys2Proof.Machine
end

