-- ==== Sys2Proof/Safety.lean ====
section
/-! DEFINITION. The vocabulary of the statements: what a well-formed state is, when an operation may run, and what
writing a run of bits leaves. -/

namespace Sys2Proof.Machine

/-! ### Well-formed states -/

/-- A store's words have `W` bits (10_state.md R21) and are at most `MAX_WORDS` (R20). -/
abbrev StoreWf (p : Params) (st : Store) : Prop :=
  (∀ v ∈ st.words, v.toNat < 2 ^ p.w) ∧ wordsAllowed p st.wordCount = true

/-- Every store of the memory is well formed. A list of words has one form only: no word past the end is
listed, and equal stores are equal lists (log entry 3). -/
abbrev Memory.wf (p : Params) (stores : List Store) : Prop := ∀ st ∈ stores, StoreWf p st

/-- A cursor is "natural `< 2^IW`" and an open session is bound to a store of the instance (R20). -/
abbrev SessionWf (p : Params) (nbs : Nat) (x : Session) : Prop :=
  indexFits p x.cursor = true ∧ (x.isOpen = true → x.bs < nbs)

/-- The invariant of the block: R20's ranges, `NBS ≥ 1` (00_scope.md R12), the encoder's borrow exclusive
(20_memory.md R60), and no `AllocationFailed` in the decoder (R20: "only `CursorOverflow` can occur"). -/
abbrev Inv (s : State) : Prop :=
  Memory.wf s.params s.stores ∧ 1 ≤ s.stores.length ∧
  SessionWf s.params s.stores.length s.enc ∧ SessionWf s.params s.stores.length s.dec ∧
  ¬ (s.enc.isOpen = true ∧ s.dec.isOpen = true ∧ s.enc.bs = s.dec.bs) ∧
  s.dec.fault ≠ some .allocationFailed

/-! ### When an operation may run -/

/-- The host may read store `h`: it exists and the encoder does not hold it (R60 a, b). -/
abbrev HostMayRead (h : Nat) (s : State) : Prop :=
  h < s.stores.length ∧ ¬ (s.enc.isOpen = true ∧ s.enc.bs = h)

/-- The host may write store `h`: it exists and no session holds it (R60 a, b). -/
abbrev HostMayWrite (h : Nat) (s : State) : Prop :=
  h < s.stores.length ∧ ¬ (s.enc.isOpen = true ∧ s.enc.bs = h) ∧
  ¬ (s.dec.isOpen = true ∧ s.dec.bs = h)

/-- The encoder may code: its session is open and not faulted (R194 a, c), on a store of the instance. -/
abbrev EncReady (s : State) : Prop :=
  s.enc.isOpen = true ∧ s.enc.fault = none ∧ s.enc.bs < s.stores.length

/-- The decoder may code: its session is open and not faulted (R194 a, c), on a store of the instance. -/
abbrev DecReady (s : State) : Prop :=
  s.dec.isOpen = true ∧ s.dec.fault = none ∧ s.dec.bs < s.stores.length

/-- A cursor at `c` can advance by `n` without passing `2^IW − 1` (10_state.md R28). -/
abbrev CursorRoom (p : Params) (c n : Nat) : Prop := ∀ iw ∈ p.indexBits, c + n < 2 ^ iw

/-- A cursor at `c` cannot advance: it stands at the top of a finite range, or past it in a state no run reaches
(60_exceptions.md R193; log entry 15). -/
abbrev CursorAtTop (p : Params) (c : Nat) : Prop := ∃ iw ∈ p.indexBits, 2 ^ iw ≤ c + 1

/-- A cursor at `c` stands at `2^IW − 1`, the last value of a finite range (41_write_cursor.md R101, R102;
43_read_cursor.md R126). -/
abbrev CursorLast (p : Params) (c : Nat) : Prop := ∃ iw ∈ p.indexBits, c + 1 = 2 ^ iw

/-- A 1 can be stored at stream index `i` of a store of `wc` words: it lies within capacity, or the growth it needs is
within `MAX_WORDS` (20_memory.md R47). -/
abbrev OneFits (p : Params) (wc i : Nat) : Prop :=
  i / p.w < wc ∨ wordsAllowed p (i / p.w + 1) = true

/-- Every 1 of `bits`, written from index `c` on, can be stored. -/
abbrev OnesFit (p : Params) (wc c : Nat) (bits : List Bool) : Prop :=
  ∀ j < bits.length, bits.getD j false = true → OneFits p wc (c + j)

/-! ### What an operation leaves -/

/-- The bits of a bit space after `bits` have been written over it from index `c` on. -/
def overlay (c : Nat) (bits : List Bool) (old : Nat → Bool) (i : Nat) : Bool :=
  if c ≤ i ∧ i < c + bits.length then bits.getD (i - c) false else old i

/-- Every store but `h` is as before, and there are as many stores. -/
abbrev OtherStoresKept (h : Nat) (s t : State) : Prop :=
  t.stores.length = s.stores.length ∧ ∀ g, g ≠ h → storeAt t g = storeAt s g

/-- What no operation of the encoder's coding changes: the parameters, the decoder, the presented inputs, the count
of draws, the session's binding, and every store but the session's own. -/
abbrev EncFrame (s t : State) : Prop :=
  t.params = s.params ∧ t.dec = s.dec ∧ t.inputs = s.inputs ∧ t.draws = s.draws ∧
  t.enc.isOpen = s.enc.isOpen ∧ t.enc.bs = s.enc.bs ∧ OtherStoresKept s.enc.bs s t

/-- The length of the codeword the encoder gives a block (42_encoder.md R110): 1, 2 or 34 (30_encoding.md R83). -/
def blockCost (b : Block) : Nat :=
  if b = 0xFFFFFFFF then 1 else if b = 0x00000000 then 2 else 34

/-- Codeword `i` lies in the decoder's store at its cursor: each bit of its encoding at its stream offset (R71). -/
def CodewordAtCursor (s : State) (i : Instr) : Prop :=
  ∃ bits, encode i = .stream bits ∧
    ∀ j < bits.length, bitAt s s.dec.bs (s.dec.cursor + j) = bits.getD j false

/-- Two states that differ in the word width alone: the same bit at every index of every store, the same sessions,
pixel order and cursor range, and no bound on a store's words (20_memory.md R42 a). -/
abbrev SameBits (s t : State) : Prop :=
  s.params.packOrder = t.params.packOrder ∧ s.params.indexBits = t.params.indexBits ∧
  s.params.maxWords = none ∧ t.params.maxWords = none ∧
  s.stores.length = t.stores.length ∧ (∀ h i, bitAt s h i = bitAt t h i) ∧
  s.enc = t.enc ∧ s.dec = t.dec ∧ s.inputs = t.inputs

/-- The operations whose effect and result do not depend on how bits are grouped into words: all but the word view,
the word count and the loader's two. -/
def widthFree : Instr → Bool
  | .bsWord _ _ => false
  | .bsWordCount _ => false
  | .bsResize _ _ _ => false
  | .bsLoadWord _ _ _ _ => false
  | _ => true

/-- The operations that may write `BS[h].words` or `BS[h].word_count` (10_state.md R20, column "written by"). -/
def writesStores : Instr → Bool
  | .bsNew _ _ => true
  | .bsSet _ _ => true
  | .bsClear _ _ => true
  | .bsResize _ _ _ => true
  | .bsLoadWord _ _ _ _ => true
  | .write0 => true
  | .write1 => true
  | .encBlock _ => true
  | .encode _ => true
  | _ => false

/-- The operations that do not write `BS[h].word_count`: all but `BS_NEW`, `BS_SET` and `BS_RESIZE`, and those that grow
a store through a `BS_SET`, `WRITE1`, `ENC_BLOCK` and `ENCODE` (R20). -/
def keepsWordCounts : Instr → Bool
  | .bsNew _ _ => false
  | .bsSet _ _ => false
  | .bsResize _ _ _ => false
  | .write1 => false
  | .encBlock _ => false
  | .encode _ => false
  | _ => true

/-- The operations that may advance the encoder's cursor (R20, R27). -/
def advancesEnc : Instr → Bool
  | .write0 => true
  | .write1 => true
  | .encBlock _ => true
  | .encode _ => true
  | _ => false

/-- The operations that may advance the decoder's cursor (R20, R27), and the codewords it runs. -/
def advancesDec : Instr → Bool
  | .readBit => true
  | .decBlock => true
  | .decode _ => true
  | .cwWhite => true
  | .cwBlack => true
  | .cwLiteral _ => true
  | _ => false

/-- The operations that open or close the encoder's session (R20). -/
def opensOrClosesEnc : Instr → Bool
  | .encOpen _ => true
  | .encClose => true
  | _ => false

/-- The operations that open or close the decoder's session (R20). -/
def opensOrClosesDec : Instr → Bool
  | .decOpen _ => true
  | .decClose => true
  | _ => false

/-- The length of the codeword at the decoder's cursor, told by its first one or two bits (30_encoding.md R74). -/
def codeLength (s : State) : Nat :=
  if bitAt s s.dec.bs s.dec.cursor = false then 1
  else if bitAt s s.dec.bs (s.dec.cursor + 1) = false then 2
  else 34

/-- Instructions run one after another from `s`, each to a next state: the last state and what each answered. `none`
where one does not end in a next state. -/
def runAll : List Instr → State → Option (State × List Response)
  | [], s => some (s, [])
  | i :: is, s =>
      match exec i s with
      | .next t =>
          match runAll is t with
          | some (u, rs) => some (u, t.response :: rs)
          | none => none
      | .fault _ => none
      | .refused _ => none

end Sys2Proof.Machine
end

