-- ==== Sys2Proof/Certificates/Slice0/Obligations.lean ====
section
/-! DEFINITION. The statements about the model, for the provers. Each names the rule of the spec it formalises. A statement
says "is refused" as "some refusal is answered": the refusal's name is the model's (log entry 12). The field `response`
is the model's own (log entry 6); what it holds is the result or fault the rule gives. -/

open Sys2Proof Sys2Proof.Machine

/-! ### Encodings -/

/-- Every well-formed instruction is read back from its encoding, with every operand it was written with. R71 gives
the codewords, R80 the operation codes; the transaction form is the model's (log entry 9). -/
def Obligations.DecodeEncodeAgree : Prop :=
  ∀ (p : Params) (i : Instr), wellFormed p i = true → decode p (encode i) = .instr i

/-- A transaction that is an instruction is that instruction's encoding but for who issues it, and the instruction is
well formed and has the transaction's code. The transaction form is the model's (log entry 9). -/
def Obligations.OneTransactionPerInstruction : Prop :=
  ∀ (p : Params) (t : Transaction) (i : Instr), decodeOp p t = .instr i →
    wellFormed p i = true ∧ opCode i = some t.code ∧
    ∃ who, encode i = .op { t with issuer := who }

/-- R74: "no codeword is the beginning of another, so the length is known from at most the first two bits": 1 after a
first bit 0, 2 after 1 0, 34 after 1 1. -/
def Obligations.NoCodewordBeginsAnother : Prop :=
  (∀ (i j : Instr) (x y : List Bool), encode i = .stream x → encode j = .stream (x ++ y) →
    i = j ∧ y = []) ∧
  (∀ (i : Instr) (x : List Bool), encode i = .stream x →
    x.length = (if x.getD 0 false = false then 1 else if x.getD 1 false = false then 2 else 34))

/-- R75 (an inference of the spec from R74): every bit sequence parses; a string of 34 bits or more begins with a
codeword. -/
def Obligations.EveryBitStringBeginsWithACodeword : Prop :=
  ∀ bits : List Bool, 34 ≤ bits.length →
    ∃ (i : Instr) (x rest : List Bool), decodeStream bits = some (i, rest) ∧
      encode i = .stream x ∧ bits = x ++ rest

/-- One transaction for each operation code of R80 and one string for each codeword of R71, written out bit by bit,
are the instructions they stand for. The codes are the spec's decision D3, the transaction form the model's (log entry
9). -/
def Obligations.SampleEncodingsDecode : Prop :=
  decodeOp Params.default { code := 0b00000#5, issuer := .driver, operands := [1, 33] }
    = .instr (.bsNew 1 33) ∧
  decodeOp Params.default { code := 0b00001#5, issuer := .driver, operands := [1, 7] }
    = .instr (.bsTest 1 7) ∧
  decodeOp Params.default { code := 0b00010#5, issuer := .driver, operands := [1, 7] }
    = .instr (.bsSet 1 7) ∧
  decodeOp Params.default { code := 0b00011#5, issuer := .driver, operands := [1, 7] }
    = .instr (.bsClear 1 7) ∧
  decodeOp Params.default { code := 0b00100#5, issuer := .driver, operands := [1, 2] }
    = .instr (.bsWord 1 2) ∧
  decodeOp Params.default { code := 0b00101#5, issuer := .driver, operands := [1] }
    = .instr (.bsWordCount 1) ∧
  decodeOp Params.default { code := 0b00110#5, issuer := .loader, operands := [1, 3] }
    = .instr (.bsResize .loader 1 3) ∧
  decodeOp Params.default { code := 0b00111#5, issuer := .loader, operands := [1, 2, 0xF0000000] }
    = .instr (.bsLoadWord .loader 1 2 0xF0000000) ∧
  decodeOp Params.default
      { code := 0b01000#5, issuer := .driver, operands := [0xDE, 0xAD, 0xBE, 0xEF] }
    = .instr (.combine 0xDE 0xAD 0xBE 0xEF) ∧
  decodeOp Params.default { code := 0b01001#5, issuer := .driver, operands := [0xDEADBEEF] }
    = .instr (.split 0xDEADBEEF) ∧
  decodeOp Params.default { code := 0b01010#5, issuer := .driver, operands := [1] }
    = .instr (.encOpen 1) ∧
  decodeOp Params.default { code := 0b01011#5, issuer := .driver, operands := [] }
    = .instr .write0 ∧
  decodeOp Params.default { code := 0b01100#5, issuer := .driver, operands := [] }
    = .instr .write1 ∧
  decodeOp Params.default { code := 0b01101#5, issuer := .driver, operands := [] }
    = .instr .encCursor ∧
  decodeOp Params.default { code := 0b01110#5, issuer := .driver, operands := [] }
    = .instr .encClose ∧
  decodeOp Params.default { code := 0b01111#5, issuer := .driver, operands := [0x01010101] }
    = .instr (.encBlock 0x01010101) ∧
  decodeOp Params.default { code := 0b10000#5, issuer := .driver, operands := [0xFF, 0x00] }
    = .instr (.encode [0xFF, 0x00]) ∧
  decodeOp Params.default { code := 0b10001#5, issuer := .driver, operands := [1] }
    = .instr (.decOpen 1) ∧
  decodeOp Params.default { code := 0b10010#5, issuer := .driver, operands := [] }
    = .instr .readBit ∧
  decodeOp Params.default { code := 0b10011#5, issuer := .driver, operands := [] }
    = .instr .decCursor ∧
  decodeOp Params.default { code := 0b10100#5, issuer := .driver, operands := [] }
    = .instr .decClose ∧
  decodeOp Params.default { code := 0b10101#5, issuer := .driver, operands := [] }
    = .instr .decBlock ∧
  decodeOp Params.default { code := 0b10110#5, issuer := .driver, operands := [12] }
    = .instr (.decode 12) ∧
  decodeStream [false, true] = some (.cwWhite, [true]) ∧
  decodeStream [true, false, true] = some (.cwBlack, [true]) ∧
  decodeStream
      [true, true,
       true, true, false, true, true, true, true, false,
       true, false, true, false, true, true, false, true,
       true, false, true, true, true, true, true, false,
       true, true, true, false, true, true, true, true, false]
    = some (.cwLiteral 0xDEADBEEF, [false])

/-! ### The step -/

/-- R15: a step takes the oldest presented operation; where the transaction is an instruction, the step is that
instruction from the state without it (log entry 7 for the queue). -/
def Obligations.StepRunsTheDecodedInstruction : Prop :=
  ∀ (s : State) (t : Transaction) (rest : List Input) (i : Instr),
    s.inputs = .op t :: rest → decodeOp s.params t = .instr i →
    step s = exec i { s with inputs := rest }

/-- R81: "Operation codes `0x17` to `0x1F` select no operation. Presenting one is refused". The codes are the spec's
decision D3. -/
def Obligations.ReservedCodesAreRefused : Prop :=
  ∀ (s : State) (t : Transaction) (rest : List Input),
    s.inputs = .op t :: rest → 0x17 ≤ t.code.toNat →
    step s = .refused (.undecodable (.reservedCode t.code))

/-- R210: reset applied at any time leaves every store without words, no session open, both cursors 0 and both fault
elements none, and changes neither the instance nor what the host has yet to present. The reset is the spec's decision
D10; that it is an input is the model's (log entry 17). -/
def Obligations.ResetMayBeAppliedAtAnyTime : Prop :=
  ∀ (s : State) (rest : List Input), s.inputs = .reset :: rest →
    ∃ t, step s = .next t ∧ t.params = s.params ∧ t.inputs = rest ∧
      t.stores.length = s.stores.length ∧ (∀ st ∈ t.stores, st.words = []) ∧
      t.enc.isOpen = false ∧ t.enc.cursor = 0 ∧ t.enc.fault = none ∧
      t.dec.isOpen = false ∧ t.dec.cursor = 0 ∧ t.dec.fault = none

/-- R35: the values after hardware reset, on every instance, and that they meet the block's invariant. The reset is
the spec's decision D10. -/
def Obligations.ResetMeetsTheInvariant : Prop :=
  ∀ (p : Params) (nbs : Nat), 1 ≤ nbs →
    Inv (State.resetOf p nbs) ∧
    (State.resetOf p nbs).stores.length = nbs ∧
    (∀ st ∈ (State.resetOf p nbs).stores, st.wordCount = 0) ∧
    (State.resetOf p nbs).enc.isOpen = false ∧ (State.resetOf p nbs).enc.cursor = 0 ∧
    (State.resetOf p nbs).enc.fault = none ∧
    (State.resetOf p nbs).dec.isOpen = false ∧ (State.resetOf p nbs).dec.cursor = 0 ∧
    (State.resetOf p nbs).dec.fault = none

/-- Every step keeps R20's ranges: words of `W` bits, at most `MAX_WORDS` of them, cursors below `2^IW`, open sessions
bound to stores of the instance, the encoder's borrow exclusive (R60), no `AllocationFailed` in the decoder. The fault
elements are the spec's decision D9, refusal of a second borrow its decision D14. -/
def Obligations.StepKeepsTheInvariant : Prop :=
  ∀ s t : State, Inv s → step s = .next t → Inv t

/-! ### The store (20_memory.md) -/

/-- R63, `BS_NEW`: `ceil_div(bit_count, W)` words, all 0; `AllocationFailed` over `MAX_WORDS`, with nothing changed;
refused on a borrowed store. The limit is the spec's decision D4, the reuse of a handle its decision D2. -/
def Obligations.BsNewMakesZeroWords : Prop :=
  ∀ (s : State) (h bitCount : Nat),
    (HostMayWrite h s →
      wordsAllowed s.params ((bitCount + s.params.w - 1) / s.params.w) = true →
      exec (.bsNew h bitCount) s = .next
        { s with
          stores := s.stores.set h
            { words := List.replicate ((bitCount + s.params.w - 1) / s.params.w) 0 }
          response := .done }) ∧
    (HostMayWrite h s →
      wordsAllowed s.params ((bitCount + s.params.w - 1) / s.params.w) = false →
      exec (.bsNew h bitCount) s = .next
        { s with
          response :=
            .faulted (.allocationFailed h ((bitCount + s.params.w - 1) / s.params.w)) }) ∧
    (¬ HostMayWrite h s → ∃ r, exec (.bsNew h bitCount) s = .refused r)

/-- R45, `BS_TEST`: 0 past capacity, else bit 0 of the word shifted right by `W − 1 − (i mod W)`; writes nothing;
refused on the encoder's store. -/
def Obligations.BsTestReadsLeniently : Prop :=
  ∀ (s : State) (h i : Nat),
    (HostMayRead h s → (storeAt s h).wordCount ≤ i / s.params.w →
      exec (.bsTest h i) s = .next { s with response := .bit false }) ∧
    (HostMayRead h s → i / s.params.w < (storeAt s h).wordCount →
      exec (.bsTest h i) s = .next
        { s with
          response := .bit
            ((((storeAt s h).words.getD (i / s.params.w) 0) >>>
              (s.params.w - 1 - i % s.params.w)).getLsbD 0) }) ∧
    (s.enc.isOpen = true → s.enc.bs = h → ∃ r, exec (.bsTest h i) s = .refused r)

/-- R46, R47, `BS_SET`: bit `i` becomes 1 and no other bit changes; a set past capacity grows the store to exactly `(i
div W) + 1` words; growth past `MAX_WORDS` raises `AllocationFailed` and changes nothing; refused on a borrowed store.
Exact growth is the spec's decision D11, the limit its decision D4. -/
def Obligations.BsSetSetsOneBit : Prop :=
  ∀ (s : State) (h i : Nat),
    (HostMayWrite h s → OneFits s.params (storeAt s h).wordCount i →
      ∃ t, exec (.bsSet h i) s = .next t ∧
        t = { s with stores := t.stores, response := .done } ∧ OtherStoresKept h s t ∧
        (∀ j, bitAt t h j = if j = i then true else bitAt s h j) ∧
        (storeAt t h).wordCount =
          (if i / s.params.w < (storeAt s h).wordCount then (storeAt s h).wordCount
           else i / s.params.w + 1)) ∧
    (HostMayWrite h s → ¬ OneFits s.params (storeAt s h).wordCount i →
      exec (.bsSet h i) s = .next
        { s with response := .faulted (.allocationFailed h (i / s.params.w + 1)) }) ∧
    (¬ HostMayWrite h s → ∃ r, exec (.bsSet h i) s = .refused r)

/-- R48, R54, `BS_CLEAR`: bit `i` reads 0 afterwards and no other bit changes; the word count never changes; past
capacity nothing changes; never a fault; refused on a borrowed store. That no other bit changes is the spec's
inference from R48. -/
def Obligations.BsClearClearsOneBit : Prop :=
  ∀ (s : State) (h i : Nat),
    (HostMayWrite h s →
      ∃ t, exec (.bsClear h i) s = .next t ∧
        t = { s with stores := t.stores, response := .done } ∧ OtherStoresKept h s t ∧
        (∀ j, bitAt t h j = if j = i then false else bitAt s h j) ∧
        (storeAt t h).wordCount = (storeAt s h).wordCount ∧
        ((storeAt s h).wordCount ≤ i / s.params.w → t.stores = s.stores)) ∧
    (¬ HostMayWrite h s → ∃ r, exec (.bsClear h i) s = .refused r)

/-- R49, `BS_WORD`: word `k` of the view; refused past its end and on the encoder's store. The refusal is the spec's
decision D12. -/
def Obligations.BsWordReadsAWord : Prop :=
  ∀ (s : State) (h k : Nat),
    (∀ (_ : HostMayRead h s) (hk : k < (storeAt s h).words.length),
      exec (.bsWord h k) s = .next { s with response := .word ((storeAt s h).words[k]) }) ∧
    ((storeAt s h).wordCount ≤ k → ∃ r, exec (.bsWord h k) s = .refused r) ∧
    (¬ HostMayRead h s → ∃ r, exec (.bsWord h k) s = .refused r)

/-- R50, `BS_WORD_COUNT`: the number of words; refused on the encoder's store. -/
def Obligations.BsWordCountCountsWords : Prop :=
  ∀ (s : State) (h : Nat),
    (HostMayRead h s → exec (.bsWordCount h) s =
      .next { s with response := .natural (storeAt s h).words.length }) ∧
    (s.enc.isOpen = true → s.enc.bs = h → ∃ r, exec (.bsWordCount h) s = .refused r)

/-- R51, `BS_RESIZE`: the old words stay, the new ones are any words of `W` bits; refused to fewer words, to anyone
but the loader, and on a borrowed store; `AllocationFailed` over `MAX_WORDS`, with nothing changed. Nothing is said of
a new word's value (U1); the count of draws is the model's (log entry 11). What a resize does is the spec's decision
D13, the limit its decision D4. -/
def Obligations.BsResizeAddsWordsOfAnyValue : Prop :=
  ∀ (s : State) (h n : Nat),
    (HostMayWrite h s → (storeAt s h).wordCount ≤ n → wordsAllowed s.params n = true →
      ∃ ws : List Word, ws.length = n - (storeAt s h).wordCount ∧
        (∀ v ∈ ws, v.toNat < 2 ^ s.params.w) ∧
        exec (.bsResize .loader h n) s = .next
          { s with
            stores := s.stores.set h { words := (storeAt s h).words ++ ws }
            response := .done
            draws := s.draws + ws.length }) ∧
    (HostMayWrite h s → (storeAt s h).wordCount ≤ n → wordsAllowed s.params n = false →
      exec (.bsResize .loader h n) s = .next
        { s with response := .faulted (.allocationFailed h n) }) ∧
    (n < (storeAt s h).wordCount → ∃ r, exec (.bsResize .loader h n) s = .refused r) ∧
    (¬ HostMayWrite h s → ∃ r, exec (.bsResize .loader h n) s = .refused r) ∧
    (∃ r, exec (.bsResize .driver h n) s = .refused r)

/-- R52, `BS_LOAD_WORD`: word `k` becomes `v`, so stream bit `k·W + j` becomes value bit `W − 1 − j` of `v` (R41) and
no bit of another word changes; refused past the last word, to anyone but the loader, and on a borrowed store. The
operation is the spec's inference from the loader (R52). -/
def Obligations.BsLoadWordStoresAWord : Prop :=
  ∀ (s : State) (h k : Nat) (v : Word),
    (HostMayWrite h s → k < (storeAt s h).wordCount →
      ∃ t, exec (.bsLoadWord .loader h k v) s = .next t ∧
        t = { s with
              stores := s.stores.set h { words := (storeAt s h).words.set k v }
              response := .done } ∧
        (∀ j < s.params.w, bitAt t h (k * s.params.w + j) = v.getLsbD (s.params.w - 1 - j)) ∧
        (∀ i, i / s.params.w ≠ k → bitAt t h i = bitAt s h i)) ∧
    ((storeAt s h).wordCount ≤ k → ∃ r, exec (.bsLoadWord .loader h k v) s = .refused r) ∧
    (¬ HostMayWrite h s → ∃ r, exec (.bsLoadWord .loader h k v) s = .refused r) ∧
    (∃ r, exec (.bsLoadWord .driver h k v) s = .refused r)

/-- R60 (a): while the encoder's session is open on `h`, every `BS_*` of the host on `h` and `DEC_OPEN(h)` are
refused. (b): while the decoder's is, every host write of `h` and `ENC_OPEN(h)` are refused, and host reads are
answered. (c): a store no session holds is the host's to use. Refusal is the spec's decision D14. -/
def Obligations.BorrowDiscipline : Prop :=
  ∀ (s : State) (h a b : Nat) (v : Word) (who : Issuer),
    (s.enc.isOpen = true → s.enc.bs = h →
      ∀ i ∈ [Instr.bsNew h a, .bsTest h a, .bsSet h a, .bsClear h a, .bsWord h a, .bsWordCount h,
             .bsResize who h b, .bsLoadWord who h a v, .decOpen h],
        ∃ r, exec i s = .refused r) ∧
    (s.dec.isOpen = true → s.dec.bs = h →
      ∀ i ∈ [Instr.bsNew h a, .bsSet h a, .bsClear h a, .bsResize who h b, .bsLoadWord who h a v,
             .encOpen h],
        ∃ r, exec i s = .refused r) ∧
    (s.dec.isOpen = true → s.dec.bs = h → HostMayRead h s →
      ∀ i ∈ [Instr.bsTest h a, .bsWordCount h], ∃ t, exec i s = .next t ∧ t.stores = s.stores) ∧
    (HostMayWrite h s →
      ∀ i ∈ [Instr.bsNew h a, .bsTest h a, .bsSet h a, .bsClear h a, .bsWordCount h],
        ∃ t, exec i s = .next t)

/-- R194: the refused uses (a) no session, (b) a second opening, (c) a faulted session, (e) word index and shrinking,
(f) no such handle, (g) not the loader. (d) is `BorrowDiscipline` and the reserved codes of (f) are
`ReservedCodesAreRefused`. The list is the spec's decisions D14 and D16. -/
def Obligations.RefusedUses : Prop :=
  ∀ (s : State) (h k n : Nat) (v : Word) (b : Block) (px : List Pixel),
    (s.enc.isOpen = false →
      ∀ i ∈ [Instr.write0, .write1, .encCursor, .encClose, .encBlock b, .encode px],
        ∃ r, exec i s = .refused r) ∧
    (s.dec.isOpen = false →
      ∀ i ∈ [Instr.readBit, .decCursor, .decClose, .decBlock, .decode n],
        ∃ r, exec i s = .refused r) ∧
    (s.enc.isOpen = true → ∃ r, exec (.encOpen h) s = .refused r) ∧
    (s.dec.isOpen = true → ∃ r, exec (.decOpen h) s = .refused r) ∧
    (s.enc.fault ≠ none → ∀ i ∈ [Instr.write0, .write1, .encBlock b, .encode px],
      ∃ r, exec i s = .refused r) ∧
    (s.dec.fault ≠ none → ∀ i ∈ [Instr.readBit, .decBlock, .decode n],
      ∃ r, exec i s = .refused r) ∧
    ((storeAt s h).wordCount ≤ k →
      ∀ i ∈ [Instr.bsWord h k, .bsLoadWord .loader h k v], ∃ r, exec i s = .refused r) ∧
    (n < (storeAt s h).wordCount → ∃ r, exec (.bsResize .loader h n) s = .refused r) ∧
    (s.stores.length ≤ h →
      ∀ i ∈ [Instr.bsNew h k, .bsTest h k, .bsSet h k, .bsClear h k, .bsWord h k, .bsWordCount h,
             .bsResize .loader h n, .bsLoadWord .loader h k v, .encOpen h, .decOpen h],
        ∃ r, exec i s = .refused r) ∧
    (∀ i ∈ [Instr.bsResize .driver h n, .bsLoadWord .driver h k v], ∃ r, exec i s = .refused r)

/-! ### Packer and unpacker (40_pixel_block.md) -/

/-- R91, `COMBINE` under `P0_MSB`: by shift and or, `p0` in the most significant byte; no state but the answer
changes. -/
def Obligations.CombineUnderP0Msb : Prop :=
  ∀ (s : State) (p0 p1 p2 p3 : Pixel), s.params.packOrder = .p0Msb →
    exec (.combine p0 p1 p2 p3) s = .next
      { s with
        response := .block
          ((p0.setWidth 32 <<< 24) ||| (p1.setWidth 32 <<< 16) ||| (p2.setWidth 32 <<< 8)
            ||| p3.setWidth 32) }

/-- R92, `COMBINE` under `P0_LSB`: `p0` in the least significant byte and the others transposed, as the spec's
decision D17 reads it; no state but the answer changes. -/
def Obligations.CombineUnderP0Lsb : Prop :=
  ∀ (s : State) (p0 p1 p2 p3 : Pixel), s.params.packOrder = .p0Lsb →
    exec (.combine p0 p1 p2 p3) s = .next
      { s with
        response := .block
          ((p3.setWidth 32 <<< 24) ||| (p2.setWidth 32 <<< 16) ||| (p1.setWidth 32 <<< 8)
            ||| p0.setWidth 32) }

/-- R93, `SPLIT`: the four bytes in image order; no state but the answer changes. -/
def Obligations.SplitOrdersPixels : Prop :=
  ∀ (s : State) (b : Block),
    (s.params.packOrder = .p0Msb →
      exec (.split b) s = .next
        { s with
          response := .pixels
            [(b >>> 24).setWidth 8, (b >>> 16).setWidth 8, (b >>> 8).setWidth 8, b.setWidth 8] }) ∧
    (s.params.packOrder = .p0Lsb →
      exec (.split b) s = .next
        { s with
          response := .pixels
            [b.setWidth 8, (b >>> 8).setWidth 8, (b >>> 16).setWidth 8, (b >>> 24).setWidth 8] })

/-- R94: "`SPLIT(COMBINE(p0, p1, p2, p3)) = [p0, p1, p2, p3]`", and `COMBINE` of the four elements of `SPLIT(b)` gives
`b`. The second half is the spec's inference. -/
def Obligations.SplitAndCombineAreInverse : Prop :=
  (∀ (s : State) (p0 p1 p2 p3 : Pixel), ∃ (t : State) (b : Block),
    exec (.combine p0 p1 p2 p3) s = .next t ∧ t.response = .block b ∧
    exec (.split b) t = .next { t with response := .pixels [p0, p1, p2, p3] }) ∧
  (∀ (s : State) (b : Block), ∃ (t : State) (p0 p1 p2 p3 : Pixel),
    exec (.split b) s = .next t ∧ t.response = .pixels [p0, p1, p2, p3] ∧
    exec (.combine p0 p1 p2 p3) t = .next { t with response := .block b })

/-- R95: under both orders a block is `0xFFFFFFFF` exactly when all four pixels are white and `0` exactly when all
four are black; four palindromic pixels pack to one value under both orders. All but the two constants is the spec's
inference. -/
def Obligations.UniformBlocksIgnoreOrder : Prop :=
  ∀ (s : State) (p0 p1 p2 p3 : Pixel), ∃ (t : State) (b : Block),
    exec (.combine p0 p1 p2 p3) s = .next t ∧ t.response = .block b ∧
    (b = 0xFFFFFFFF ↔ (p0 = 0xFF ∧ p1 = 0xFF ∧ p2 = 0xFF ∧ p3 = 0xFF)) ∧
    (b = 0x00000000 ↔ (p0 = 0x00 ∧ p1 = 0x00 ∧ p2 = 0x00 ∧ p3 = 0x00)) ∧
    (p0 = p3 → p1 = p2 →
      ∀ s' : State, ∃ t', exec (.combine p0 p1 p2 p3) s' = .next t' ∧ t'.response = .block b)

/-- R96: a block packed under one order and split under the other gives the four pixels in reverse. -/
def Obligations.MixedOrdersReverse : Prop :=
  ∀ (s u : State) (p0 p1 p2 p3 : Pixel), s.params.packOrder ≠ u.params.packOrder →
    ∃ (t : State) (b : Block), exec (.combine p0 p1 p2 p3) s = .next t ∧ t.response = .block b ∧
      exec (.split b) u = .next { u with response := .pixels [p3, p2, p1, p0] }

/-! ### The write cursor (41_write_cursor.md) -/

/-- R100, `ENC_OPEN`: the session's registers, cursor 0, no fault, nothing else; refused when open, when the decoder
holds `h`, when `h ≥ NBS`. The refusals are the spec's decision D16. -/
def Obligations.EncOpenStartsASession : Prop :=
  ∀ (s : State) (h : Nat),
    (s.enc.isOpen = false → h < s.stores.length → ¬ (s.dec.isOpen = true ∧ s.dec.bs = h) →
      exec (.encOpen h) s = .next
        { s with
          enc := { isOpen := true, bs := h, cursor := 0, fault := none }
          response := .done }) ∧
    (s.enc.isOpen = true ∨ s.stores.length ≤ h ∨ (s.dec.isOpen = true ∧ s.dec.bs = h) →
      ∃ r, exec (.encOpen h) s = .refused r)

/-- R101, `WRITE0`: the bit at the cursor reads 0 afterwards, no other bit changes, the store never grows, the cursor
advances by 1; at `2^IW − 1` it ends in `CursorOverflow` and nothing else; refused without a session or on a faulted
one. `CursorOverflow` is the spec's decision D5 (R193), the fault element its decision D9 (log entry 5). -/
def Obligations.WriteZeroClearsAndAdvances : Prop :=
  ∀ s : State,
    (EncReady s → CursorRoom s.params s.enc.cursor 1 →
      ∃ t, exec .write0 s = .next t ∧ EncFrame s t ∧ t.response = .done ∧
        t.enc = { s.enc with cursor := s.enc.cursor + 1 } ∧
        (∀ j, bitAt t s.enc.bs j = if j = s.enc.cursor then false else bitAt s s.enc.bs j) ∧
        (storeAt t s.enc.bs).wordCount = (storeAt s s.enc.bs).wordCount) ∧
    (EncReady s → CursorLast s.params s.enc.cursor →
      exec .write0 s = .next
        { s with
          enc := { s.enc with fault := some .cursorOverflow }
          response := .faulted (.cursorOverflow .encoder) }) ∧
    (s.enc.isOpen = false ∨ s.enc.fault ≠ none → ∃ r, exec .write0 s = .refused r)

/-- R102, R196, `WRITE1`: the bit at the cursor becomes 1, no other bit changes, a store it lies beyond grows to
exactly `(cursor div W) + 1` words, the cursor advances by 1; `CursorOverflow` is reported before `AllocationFailed`;
either fault changes neither store nor cursor; refused without a session or on a faulted one. `CursorOverflow` and the
order of the faults are the spec's decision D5, exact growth its decision D11, the limit its decision D4 (log entry
18), the fault element its decision D9. -/
def Obligations.WriteOneSetsAndAdvances : Prop :=
  ∀ s : State,
    (EncReady s → CursorRoom s.params s.enc.cursor 1 →
      OneFits s.params (storeAt s s.enc.bs).wordCount s.enc.cursor →
      ∃ t, exec .write1 s = .next t ∧ EncFrame s t ∧ t.response = .done ∧
        t.enc = { s.enc with cursor := s.enc.cursor + 1 } ∧
        (∀ j, bitAt t s.enc.bs j = if j = s.enc.cursor then true else bitAt s s.enc.bs j) ∧
        (storeAt t s.enc.bs).wordCount =
          (if s.enc.cursor / s.params.w < (storeAt s s.enc.bs).wordCount
           then (storeAt s s.enc.bs).wordCount else s.enc.cursor / s.params.w + 1)) ∧
    (EncReady s → CursorLast s.params s.enc.cursor →
      exec .write1 s = .next
        { s with
          enc := { s.enc with fault := some .cursorOverflow }
          response := .faulted (.cursorOverflow .encoder) }) ∧
    (EncReady s → CursorRoom s.params s.enc.cursor 1 →
      ¬ OneFits s.params (storeAt s s.enc.bs).wordCount s.enc.cursor →
      exec .write1 s = .next
        { s with
          enc := { s.enc with fault := some .allocationFailed }
          response :=
            .faulted (.allocationFailed s.enc.bs (s.enc.cursor / s.params.w + 1)) }) ∧
    (s.enc.isOpen = false ∨ s.enc.fault ≠ none → ∃ r, exec .write1 s = .refused r)

/-- R103, `ENC_CLOSE`: `enc.open` becomes false and the other registers and every store keep their values, also on a
faulted session; refused when no session is open. The refusal is the spec's decision D16. -/
def Obligations.EncCloseEndsTheSession : Prop :=
  ∀ s : State,
    (s.enc.isOpen = true →
      exec .encClose s = .next
        { s with enc := { s.enc with isOpen := false }, response := .done }) ∧
    (s.enc.isOpen = false → ∃ r, exec .encClose s = .refused r)

/-- R104, `ENC_CURSOR`: answers the cursor and the fault element and writes nothing, also on a faulted session;
refused when no session is open. The operation is the spec's decision D6. -/
def Obligations.EncCursorReadsStatus : Prop :=
  ∀ s : State,
    (s.enc.isOpen = true →
      exec .encCursor s = .next { s with response := .status s.enc.cursor s.enc.fault }) ∧
    (s.enc.isOpen = false → ∃ r, exec .encCursor s = .refused r)

/-! ### The encoder (42_encoder.md) -/

/-- R110, R111, `ENC_BLOCK`: `0` for WhiteBlock, `1 0` for BlackBlock, else `1 1` and stream index `c + 2 + j`
receives `b[31 − j]`; the cursor advances by 1, 2 or 34; no other bit of the store changes, and no other store.
Refused without a session or on a faulted one. -/
def Obligations.EncBlockWritesOneCodeword : Prop :=
  ∀ (s : State) (b : Block),
    (EncReady s → CursorRoom s.params s.enc.cursor (blockCost b) →
      OnesFit s.params (storeAt s s.enc.bs).wordCount s.enc.cursor (codewordBits b) →
      ∃ t, exec (.encBlock b) s = .next t ∧ EncFrame s t ∧ t.response = .done ∧
        t.enc = { s.enc with cursor := s.enc.cursor + blockCost b } ∧
        (b = 0xFFFFFFFF → bitAt t s.enc.bs s.enc.cursor = false) ∧
        (b = 0x00000000 → bitAt t s.enc.bs s.enc.cursor = true ∧
          bitAt t s.enc.bs (s.enc.cursor + 1) = false) ∧
        (b ≠ 0xFFFFFFFF → b ≠ 0x00000000 → bitAt t s.enc.bs s.enc.cursor = true ∧
          bitAt t s.enc.bs (s.enc.cursor + 1) = true ∧
          ∀ j < 32, bitAt t s.enc.bs (s.enc.cursor + 2 + j) = b.getLsbD (31 - j)) ∧
        (∀ i, i < s.enc.cursor ∨ s.enc.cursor + blockCost b ≤ i →
          bitAt t s.enc.bs i = bitAt s s.enc.bs i)) ∧
    (s.enc.isOpen = false ∨ s.enc.fault ≠ none → ∃ r, exec (.encBlock b) s = .refused r)

/-- R112, R113, R114, R117, `ENCODE` as its pseudocode has it: no pixels write nothing; 1 to 3 pixels are one block
padded with Black in the last places; 4 pixels or more are the block of the first four and then the rest, unless that
block ended in a fault, which ends the operation. Refused without a session or on a faulted one. `ENCODE` of no pixels
is the spec's decision D15, the ending by a fault its decision D9. -/
def Obligations.EncodeRunsItsBlocksInOrder : Prop :=
  ∀ s : State,
    (EncReady s →
      exec (.encode []) s = .next { s with response := .done } ∧
      (∀ p0, exec (.encode [p0]) s
        = exec (.encBlock (packPixels s.params.packOrder p0 0x00 0x00 0x00)) s) ∧
      (∀ p0 p1, exec (.encode [p0, p1]) s
        = exec (.encBlock (packPixels s.params.packOrder p0 p1 0x00 0x00)) s) ∧
      (∀ p0 p1 p2, exec (.encode [p0, p1, p2]) s
        = exec (.encBlock (packPixels s.params.packOrder p0 p1 p2 0x00)) s) ∧
      (∀ (p0 p1 p2 p3 : Pixel) (rest : List Pixel) (m : State),
        exec (.encBlock (packPixels s.params.packOrder p0 p1 p2 p3)) s = .next m →
        exec (.encode (p0 :: p1 :: p2 :: p3 :: rest)) s =
          if m.enc.fault = none then exec (.encode rest) m else .next m)) ∧
    (s.enc.isOpen = false ∨ s.enc.fault ≠ none → ∀ px, ∃ r, exec (.encode px) s = .refused r)

/-- R118, R120: where the cursor has room and every 1 fits, `ENCODE` completes; it emits `ceil_div(n, 4)` codewords,
the cursor advances by 1 for each white block, 2 for each black one and 34 for each other, every bit in between is
overwritten with the stream's, and every other bit of the store, every other store and every other register keep their
values. Both are the spec's inferences from the operation rules. -/
def Obligations.EncodeWritesItsStream : Prop :=
  ∀ (s : State) (px : List Pixel), EncReady s →
    CursorRoom s.params s.enc.cursor (streamOf s.params.packOrder px).length →
    OnesFit s.params (storeAt s s.enc.bs).wordCount s.enc.cursor
      (streamOf s.params.packOrder px) →
    (blocksOf s.params.packOrder px).length = (px.length + 3) / 4 ∧
    ∃ t, exec (.encode px) s = .next t ∧ EncFrame s t ∧ t.response = .done ∧
      t.enc = { s.enc with
        cursor := s.enc.cursor + ((blocksOf s.params.packOrder px).map blockCost).sum } ∧
      ∀ i, bitAt t s.enc.bs i =
        overlay s.enc.cursor (streamOf s.params.packOrder px) (bitAt s s.enc.bs) i

/-- R116: when the first call's length is a multiple of 4 and it raised no fault, a second `ENCODE` ends as one
`ENCODE` of both sequences would have, faults included. It is the spec's inference from R113 and R114. -/
def Obligations.EncodeCallsConcatenate : Prop :=
  ∀ (s m : State) (x y : List Pixel), x.length % 4 = 0 →
    exec (.encode x) s = .next m → m.enc.fault = none →
    exec (.encode y) m = exec (.encode (x ++ y)) s

/-- R119, R197: a fault inside `ENCODE` or `ENC_BLOCK` ends it at the faulting write: for some `n` short of the whole
stream, the `n` bits before it are in the store and the cursor stands after them, nothing else of the store, no other
store and no register but the fault element and the cursor has changed, and the fault element holds the code of the
reported fault. The state after a fault is the spec's decision D9. -/
def Obligations.CodingFaultKeepsWrittenBits : Prop :=
  ∀ (s t : State) (i : Instr) (bits : List Bool), EncReady s →
    indexFits s.params s.enc.cursor = true →
    ((∃ px, i = .encode px ∧ bits = streamOf s.params.packOrder px) ∨
     (∃ b, i = .encBlock b ∧ bits = codewordBits b)) →
    exec i s = .next t → t.enc.fault ≠ none →
    ∃ (n : Nat) (f : FaultReport), n < bits.length ∧ t.response = .faulted f ∧
      t.enc = { s.enc with cursor := s.enc.cursor + n, fault := some (faultCode f) } ∧
      EncFrame s t ∧
      (∀ j, bitAt t s.enc.bs j =
        overlay s.enc.cursor (bits.take n) (bitAt s s.enc.bs) j) ∧
      ((f = .cursorOverflow .encoder ∧ CursorLast s.params (s.enc.cursor + n)) ∨
       (f = .allocationFailed s.enc.bs ((s.enc.cursor + n) / s.params.w + 1) ∧
        bits.getD n false = true ∧
        wordsAllowed s.params ((s.enc.cursor + n) / s.params.w + 1) = false))

/-- R106: after an `ENCODE` without a fault, `word_count` is the larger of its old value and `(j_max div W) + 1`,
where `j_max` is the highest stream index at which the call wrote a 1; it keeps its old value when the call wrote no
1. It is the spec's inference from R101, R102 and R46. -/
def Obligations.WordCountFollowsTheHighestOne : Prop :=
  ∀ (s t : State) (px : List Pixel) (bits : List Bool), EncReady s →
    bits = streamOf s.params.packOrder px →
    exec (.encode px) s = .next t → t.enc.fault = none →
    (∀ jmax < bits.length, bits.getD jmax false = true →
      (∀ j < bits.length, bits.getD j false = true → j ≤ jmax) →
      (storeAt t s.enc.bs).wordCount =
        max (storeAt s s.enc.bs).wordCount ((s.enc.cursor + jmax) / s.params.w + 1)) ∧
    ((∀ j < bits.length, bits.getD j false = false) →
      (storeAt t s.enc.bs).wordCount = (storeAt s s.enc.bs).wordCount)

/-! ### The read cursor (43_read_cursor.md) -/

/-- R125, `DEC_OPEN`: the session's registers, cursor 0, no fault, nothing else; refused when open, when the encoder
holds `h`, when `h ≥ NBS`. The refusals are the spec's decision D16. -/
def Obligations.DecOpenStartsASession : Prop :=
  ∀ (s : State) (h : Nat),
    (s.dec.isOpen = false → h < s.stores.length → ¬ (s.enc.isOpen = true ∧ s.enc.bs = h) →
      exec (.decOpen h) s = .next
        { s with
          dec := { isOpen := true, bs := h, cursor := 0, fault := none }
          response := .done }) ∧
    (s.dec.isOpen = true ∨ s.stores.length ≤ h ∨ (s.enc.isOpen = true ∧ s.enc.bs = h) →
      ∃ r, exec (.decOpen h) s = .refused r)

/-- R126, `READ_BIT`: answers the bit at the cursor, 0 beyond capacity, and advances by 1; at `2^IW − 1` it ends in
`CursorOverflow` and nothing else; refused without a session or on a faulted one. The operation is the spec's decision
D3. -/
def Obligations.ReadBitReadsAndAdvances : Prop :=
  ∀ s : State,
    (DecReady s → CursorRoom s.params s.dec.cursor 1 →
      exec .readBit s = .next
        { s with
          dec := { s.dec with cursor := s.dec.cursor + 1 }
          response := .bit (bitAt s s.dec.bs s.dec.cursor) } ∧
      ((storeAt s s.dec.bs).wordCount ≤ s.dec.cursor / s.params.w →
        bitAt s s.dec.bs s.dec.cursor = false)) ∧
    (DecReady s → CursorLast s.params s.dec.cursor →
      exec .readBit s = .next
        { s with
          dec := { s.dec with fault := some .cursorOverflow }
          response := .faulted (.cursorOverflow .decoder) }) ∧
    (s.dec.isOpen = false ∨ s.dec.fault ≠ none → ∃ r, exec .readBit s = .refused r)

/-- R127, `DEC_CLOSE`: `dec.open` becomes false and nothing else changes, also on a faulted session; refused when no
session is open. The refusal is the spec's decision D16. -/
def Obligations.DecCloseEndsTheSession : Prop :=
  ∀ s : State,
    (s.dec.isOpen = true →
      exec .decClose s = .next
        { s with dec := { s.dec with isOpen := false }, response := .done }) ∧
    (s.dec.isOpen = false → ∃ r, exec .decClose s = .refused r)

/-- R128, `DEC_CURSOR`: answers the cursor and the fault element and writes nothing, also on a faulted session;
refused when no session is open. The operation is the spec's decision D6. -/
def Obligations.DecCursorReadsStatus : Prop :=
  ∀ s : State,
    (s.dec.isOpen = true →
      exec .decCursor s = .next { s with response := .status s.dec.cursor s.dec.fault }) ∧
    (s.dec.isOpen = false → ∃ r, exec .decCursor s = .refused r)

/-! ### The decoder (44_decoder.md) -/

/-- Each codeword, run by the decoder with room for it, answers the block it codes and moves the cursor by its length
(R71): white 1 bit, black 2, a literal 34 with any block, white and black among them (R76). That a codeword is run by
the decoder is the model's reading (log entry 13). -/
def Obligations.CodewordsAnswerTheirBlocks : Prop :=
  ∀ (s : State) (lit : Block), DecReady s →
    (CursorRoom s.params s.dec.cursor 1 →
      exec .cwWhite s = .next
        { s with
          dec := { s.dec with cursor := s.dec.cursor + 1 }
          response := .block 0xFFFFFFFF }) ∧
    (CursorRoom s.params s.dec.cursor 2 →
      exec .cwBlack s = .next
        { s with
          dec := { s.dec with cursor := s.dec.cursor + 2 }
          response := .block 0x00000000 }) ∧
    (CursorRoom s.params s.dec.cursor 34 →
      exec (.cwLiteral lit) s = .next
        { s with
          dec := { s.dec with cursor := s.dec.cursor + 34 }
          response := .block lit })

/-- R135, R136, `DEC_BLOCK`: `0` gives WhiteBlock, `10` BlackBlock, `11` the next 32 bits, the `j`-th of them `v[31 −
j]`; the cursor advances by the codeword's length; without room for it the cursor stops at `2^IW − 1` with
`CursorOverflow`; nothing else changes. Refused without a session or on a faulted one. `CursorOverflow` is the spec's
decision D5, where the cursor stops and the fault element its decision D9. -/
def Obligations.DecBlockReadsOneCodeword : Prop :=
  ∀ s : State,
    (DecReady s → CursorRoom s.params s.dec.cursor (codeLength s) →
      ∃ v : Block,
        exec .decBlock s = .next
          { s with
            dec := { s.dec with cursor := s.dec.cursor + codeLength s }
            response := .block v } ∧
        (bitAt s s.dec.bs s.dec.cursor = false → v = 0xFFFFFFFF) ∧
        (bitAt s s.dec.bs s.dec.cursor = true →
          bitAt s s.dec.bs (s.dec.cursor + 1) = false → v = 0x00000000) ∧
        (bitAt s s.dec.bs s.dec.cursor = true →
          bitAt s s.dec.bs (s.dec.cursor + 1) = true →
          ∀ j < 32, v.getLsbD (31 - j) = bitAt s s.dec.bs (s.dec.cursor + 2 + j))) ∧
    (∀ iw : Nat, DecReady s → s.params.indexBits = some iw → s.dec.cursor < 2 ^ iw →
      ¬ CursorRoom s.params s.dec.cursor (codeLength s) →
      exec .decBlock s = .next
        { s with
          dec := { s.dec with cursor := 2 ^ iw - 1, fault := some .cursorOverflow }
          response := .faulted (.cursorOverflow .decoder) }) ∧
    (s.dec.isOpen = false ∨ s.dec.fault ≠ none → ∃ r, exec .decBlock s = .refused r)

/-- R135 with R71: where a codeword lies at the cursor, `DEC_BLOCK` does exactly what that codeword does, faults
included. Codewords as instructions are the model's reading (log entry 13). -/
def Obligations.DecBlockRunsTheCodewordAtTheCursor : Prop :=
  ∀ (s : State) (i : Instr), CodewordAtCursor s i → exec .decBlock s = exec i s

/-- R137, R138, R139, `DECODE` as its pseudocode has it: `DECODE(0)` reads nothing; 1 to 3 pixels are the first of one
block, whose whole codeword is consumed; 4 pixels or more are one block split and then the rest; a fault in a block or
in the rest ends the operation with that fault. Refused without a session or on a faulted one. `DECODE(0)` is the
spec's decision D15, the ending by a fault its decision D9. -/
def Obligations.DecodeRunsItsBlocksInOrder : Prop :=
  ∀ s : State,
    (DecReady s → exec (.decode 0) s = .next { s with response := .pixels [] }) ∧
    (∀ (m : State) (b : Block) (n : Nat), DecReady s → exec .decBlock s = .next m →
      m.response = .block b →
      (0 < n → n < 4 →
        exec (.decode n) s = .next
          { m with response := .pixels ((unpackPixels s.params.packOrder b).take n) }) ∧
      (∀ (u : State) (px : List Pixel), exec (.decode n) m = .next u → u.response = .pixels px →
        exec (.decode (n + 4)) s = .next
          { u with response := .pixels (unpackPixels s.params.packOrder b ++ px) }) ∧
      (∀ u : State, exec (.decode n) m = .next u → u.dec.fault ≠ none →
        exec (.decode (n + 4)) s = .next u)) ∧
    (∀ (m : State) (n : Nat), DecReady s → exec .decBlock s = .next m → m.dec.fault ≠ none →
      0 < n → exec (.decode n) s = .next m) ∧
    (s.dec.isOpen = false ∨ s.dec.fault ≠ none → ∀ n, ∃ r, exec (.decode n) s = .refused r)

/-- R129, R140, R144: where the cursor has room for the longest codewords, as it always has with `IW = ∞`, `DECODE(n)`
completes whatever the store holds: `n` pixels, no fault, the cursor further by 1, 2 or 34 for each of `ceil_div(n,
4)` codewords, and nothing else changed, no store among it. They are the spec's inferences, and its decision D5. -/
def Obligations.DecodeAlwaysCompletes : Prop :=
  ∀ (s : State) (n : Nat), DecReady s →
    CursorRoom s.params s.dec.cursor (34 * ((n + 3) / 4)) →
    ∃ (px : List Pixel) (lens : List Nat), px.length = n ∧ lens.length = (n + 3) / 4 ∧
      (∀ l ∈ lens, l = 1 ∨ l = 2 ∨ l = 34) ∧
      exec (.decode n) s = .next
        { s with
          dec := { s.dec with cursor := s.dec.cursor + lens.sum }
          response := .pixels px }

/-- R141, R77: where every bit from the cursor on reads 0, as on an empty or exhausted store, `DECODE(n)` returns `n`
white pixels and advances the cursor by `ceil_div(n, 4)`, without fault. -/
def Obligations.DecodePastTheEndGivesWhite : Prop :=
  ∀ (s : State) (n : Nat), DecReady s → CursorRoom s.params s.dec.cursor ((n + 3) / 4) →
    (∀ i, s.dec.cursor ≤ i → bitAt s s.dec.bs i = false) →
    exec (.decode n) s = .next
      { s with
        dec := { s.dec with cursor := s.dec.cursor + (n + 3) / 4 }
        response := .pixels (List.replicate n 0xFF) }

/-! ### Whole-machine rules -/

/-- R191: `AllocationFailed` has code 1, `CursorOverflow` code 2, no fault 0; a report carries its code, the handle
and words needed or which cursor. The numbers are the spec's decision D8. -/
def Obligations.FaultCodesAreNumbered : Prop :=
  faultNumber none = 0 ∧
  (∀ h n, faultNumber (some (faultCode (.allocationFailed h n))) = 1) ∧
  (∀ c, faultNumber (some (faultCode (.cursorOverflow c))) = 2)

/-- R143, the round trip: an encoder session on store `h` that ran `ENCODE(s_1), …, ENCODE(s_k)` without fault and is
closed, then a decoder session on `h` that runs `DECODE(len(s_1)), …, DECODE(len(s_k))`: the `j`-th result is `s_j`,
and the cursors agree (for every `k`, so after every call). It holds for every `W`, every `PACK_ORDER` and whatever
the store held. It is the spec's inference from the operation rules. -/
def Obligations.EncodeThenDecodeRoundTrip : Prop :=
  ∀ (s t : State) (h : Nat) (rows : List (List Pixel)) (rs : List Response),
    s.dec.isOpen = false →
    runAll (.encOpen h :: rows.map .encode) s = some (t, rs) → t.enc.fault = none →
    ∃ u : State,
      runAll (.encClose :: .decOpen h :: rows.map fun row => .decode row.length) t
        = some (u, .done :: .done :: rows.map .pixels) ∧
      u.dec.cursor = t.enc.cursor

/-- R20's table, column "written by": an operation that ends in a next state leaves unchanged every element whose row
does not name it, the word counts under `BS_CLEAR`, `BS_LOAD_WORD` and `WRITE0` and a session's binding, cursor and
fault under its closing among them; the instance and what the host has yet to present are never changed. The fault
elements are the spec's decision D9. -/
def Obligations.ElementsAreWrittenOnlyByTheirOperations : Prop :=
  ∀ (i : Instr) (s t : State), exec i s = .next t →
    t.params = s.params ∧ t.stores.length = s.stores.length ∧ t.inputs = s.inputs ∧
    (writesStores i = false → t.stores = s.stores) ∧
    (advancesEnc i = false → opensOrClosesEnc i = false → t.enc = s.enc) ∧
    (advancesDec i = false → opensOrClosesDec i = false → t.dec = s.dec) ∧
    (advancesEnc i = true → t.enc.isOpen = s.enc.isOpen ∧ t.enc.bs = s.enc.bs ∧
      ∀ h, h ≠ s.enc.bs → storeAt t h = storeAt s h) ∧
    (advancesDec i = true → t.dec.isOpen = s.dec.isOpen ∧ t.dec.bs = s.dec.bs) ∧
    (keepsWordCounts i = true → ∀ h, (storeAt t h).wordCount = (storeAt s h).wordCount) ∧
    (i = .encClose →
      t.enc.bs = s.enc.bs ∧ t.enc.cursor = s.enc.cursor ∧ t.enc.fault = s.enc.fault) ∧
    (i = .decClose →
      t.dec.bs = s.dec.bs ∧ t.dec.cursor = s.dec.cursor ∧ t.dec.fault = s.dec.fault)

/-- R27, R105, R129: a cursor is set to 0 by its opening, never decreases otherwise, and no operation but its agent's
coding operations moves it. That the cursors advance so is partly the spec's inference (R105, R129). -/
def Obligations.CursorsOnlyAdvance : Prop :=
  ∀ (i : Instr) (s t : State), exec i s = .next t →
    (∀ h, i = .encOpen h → t.enc.cursor = 0) ∧ (∀ h, i = .decOpen h → t.dec.cursor = 0) ∧
    ((∀ h, i ≠ .encOpen h) → s.enc.cursor ≤ t.enc.cursor) ∧
    ((∀ h, i ≠ .decOpen h) → s.dec.cursor ≤ t.dec.cursor) ∧
    ((∀ h, i ≠ .encOpen h) → advancesEnc i = false → t.enc.cursor = s.enc.cursor) ∧
    ((∀ h, i ≠ .decOpen h) → advancesDec i = false → t.dec.cursor = s.dec.cursor)

/-- R29: a fault element is sticky: of the operations, only its agent's opening clears it, and its code is never
replaced by another. The fault elements are the spec's decision D9. -/
def Obligations.FaultElementsAreSticky : Prop :=
  ∀ (i : Instr) (s t : State) (c : FaultCode), exec i s = .next t →
    (s.enc.fault = some c → (∀ h, i ≠ .encOpen h) → t.enc.fault = some c) ∧
    (s.dec.fault = some c → (∀ h, i ≠ .decOpen h) → t.dec.fault = some c) ∧
    (∀ h, i = .encOpen h → t.enc.fault = none) ∧ (∀ h, i = .decOpen h → t.dec.fault = none)

/-- R42 (a): two instances that differ in `W` alone and hold the same bits go on holding the same bits, with the same
sessions and the same answers, under every operation but the word view, the word count and the loader's two. It is the
spec's inference from R41. -/
def Obligations.BitsDoNotDependOnTheWordWidth : Prop :=
  ∀ (i : Instr) (s t s' : State), widthFree i = true → SameBits s t → exec i s = .next s' →
    ∃ t', exec i t = .next t' ∧ SameBits s' t' ∧ s'.response = t'.response

/-! ### The host around the block (47_host_context.md) -/

/-- R186 (1): `uncompress(compress(B)) == B`, byte for byte, on every instance without limits, for every valid bitmap the
host can allocate and two different stores; `uncompress` changes no store. The host software is the model's rendering
of it (log entries 20, 21). -/
def Obligations.UncompressRestoresTheBitmap : Prop :=
  ∀ (s : State) (room : Option Nat) (l d : Nat) (b : Bitmap),
    s.enc.isOpen = false → s.dec.isOpen = false → s.params.maxWords = none →
    s.params.indexBits = none → l < s.stores.length → d < s.stores.length → l ≠ d →
    BitmapValid s.params b → canAllocate s.params room (b.size.width * b.size.height) = true →
    ∃ c, (compress l d b s).result = .ok c ∧
      (uncompress room c (compress l d b s).state).result = .ok b ∧
      (uncompress room c (compress l d b s).state).state.stores = (compress l d b s).state.stores

/-- R186 (2), R151: after `compress(B)`, `is_empty_row_at(y)` is true exactly when every pixel in row `y` of `B` is 0xFF;
past the last row it is InvalidCoordinate.Y (R159). A row index of `2^IW` or more is asked for in vain (log entry 24).
The host software is the model's rendering of it (log entry 20). -/
def Obligations.LookupTableMarksNonEmptyRows : Prop :=
  ∀ (s t : State) (l d : Nat) (b : Bitmap) (c : CompressedBitmap),
    (compress l d b s).result = .ok c → (compress l d b s).state = t →
    (∀ y < b.size.height, indexFits s.params y = true →
      ∃ r, (isEmptyRowAt c y t).result = .ok r ∧ (r = true ↔ ∀ q ∈ rowPixels b y, q = 0xFF)) ∧
    (∀ y < b.size.height, indexFits s.params y = false → ∃ e, (isEmptyRowAt c y t).result = .error e) ∧
    (∀ y, b.size.height ≤ y → (isEmptyRowAt c y t).result = .error (.coordinateY y))

/-- R186 (4): what `save` wrote, `load` reads back into any two stores of an instance of the same parameters: the same
size, and both stores word for word. Bytes are in the host's byte order, whichever it is. The host software is the
model's rendering of it (log entries 20, 22, 27). -/
def Obligations.LoadRestoresWhatSaveWrote : Prop :=
  ∀ (s u : State) (o : ByteOrder) (c : CompressedBitmap) (l d : Nat) (file : List Byte),
    CompressedValid s c → Memory.wf s.params s.stores → (save none o c s).result = .ok file →
    u.params = s.params → HostMayWrite l u → HostMayWrite d u → l ≠ d →
    ∃ e : CompressedBitmap, (load o l d file u).result = .ok e ∧
      e.size = c.size ∧ e.lookup = l ∧ e.pixelData = d ∧
      storeAt (load o l d file u).state l = storeAt s c.lookup ∧
      storeAt (load o l d file u).state d = storeAt s c.pixelData

/-- R153, R154, R187: a size is TooSmall where a dimension is 0, whatever the other is, else TooLarge where the product
would overflow (`MAX_USIZE = 2^W − 1` is the spec's inference) or cannot be allocated; else the Bitmap has that many
pixels, each the background. What can be allocated is the model's choice (log entries 20, 21), but for
`Bitmap(MAX_USIZE/2, 2)`, which must be TooLarge. -/
def Obligations.BitmapSizesAreChecked : Prop :=
  ∀ (p : Params) (room : Option Nat) (w h : Nat) (q : Pixel),
    (w = 0 ∨ h = 0 → newBitmap p room { width := w, height := h } q = .error .tooSmall) ∧
    (1 ≤ w → 1 ≤ h → 2 ^ p.w ≤ w * h →
      newBitmap p room { width := w, height := h } q = .error .tooLarge) ∧
    (1 ≤ w → 1 ≤ h → w * h < 2 ^ p.w → canAllocate p room (w * h) = false →
      newBitmap p room { width := w, height := h } q = .error .tooLarge) ∧
    (1 ≤ w → 1 ≤ h → w * h < 2 ^ p.w → canAllocate p room (w * h) = true →
      ∃ b, newBitmap p room { width := w, height := h } q = .ok b ∧
        b.size = { width := w, height := h } ∧ b.pixels.length = w * h ∧ ∀ x ∈ b.pixels, x = q) ∧
    newBitmap p room { width := (2 ^ p.w - 1) / 2, height := 2 } q = .error .tooLarge

/-- R183: a whole-image operation that ends without error has called progress with `(0, H)`, `(1, H)`, …, `(H, H)`,
`height + 1` times. The host software is the model's rendering of it (log entries 20, 21). -/
def Obligations.ProgressIsCalledOncePerRowAndAtTheEnd : Prop :=
  ∀ (s : State) (l d : Nat) (b b' : Bitmap) (c c' : CompressedBitmap) (room : Option Nat),
    ((compress l d b s).result = .ok c' →
      (compress l d b s).calls =
        (List.range (b.size.height + 1)).map fun y => (y, b.size.height)) ∧
    ((uncompress room c s).result = .ok b' →
      (uncompress room c s).calls =
        (List.range (c.size.height + 1)).map fun y => (y, c.size.height))

/-- R174, R175, R176, R178: what `save` writes: width, height, the lookup table's words, the pixel data's word count, its
words, each as `W / 8` bytes in the host's byte order, the least significant byte first or last; no store changes. The
host software is the model's rendering of it (log entry 20). -/
def Obligations.SaveWritesTheFileLayout : Prop :=
  (∀ (s : State) (o : ByteOrder) (c : CompressedBitmap),
    HostMayRead c.lookup s → HostMayRead c.pixelData s →
    (save none o c s).result = .ok
      (encodeWord s.params o c.size.width ++ encodeWord s.params o c.size.height ++
        (storeAt s c.lookup).words.flatMap (fun v => encodeWord s.params o v.toNat) ++
        encodeWord s.params o (storeAt s c.pixelData).wordCount ++
        (storeAt s c.pixelData).words.flatMap (fun v => encodeWord s.params o v.toNat)) ∧
    (save none o c s).state.stores = s.stores) ∧
  ∀ (p : Params) (v : Nat),
    (encodeWord p .little v).length = p.w / 8 ∧ (encodeWord p .big v).length = p.w / 8 ∧
    ∀ j < p.w / 8,
      (encodeWord p .little v).getD j 0 = BitVec.ofNat 8 (v / 256 ^ j) ∧
      (encodeWord p .big v).getD (p.w / 8 - 1 - j) 0 = BitVec.ofNat 8 (v / 256 ^ j)

/-- R150, R152, R157, R185: whatever `compress` ends in, its encoder session is closed and nothing but its two stores,
the encoder's registers and the response has changed; `uncompress` likewise, and it changes no store. Where `compress`
ends well it answers the CompressedBitmap of its source, in two separate stores, the lookup table `⌈height / W⌉` words
long. The host software is the model's rendering of it (log entries 20, 25). -/
def Obligations.CompressAnswersTheImageAndLeavesTheRest : Prop :=
  ∀ (s t : State) (l d : Nat) (b : Bitmap),
    ((compress l d b s).state = t →
      t.enc.isOpen = s.enc.isOpen ∧ t.dec = s.dec ∧ t.params = s.params ∧ t.inputs = s.inputs ∧
      t.draws = s.draws ∧ t.stores.length = s.stores.length ∧
      (∀ g, g ≠ l → g ≠ d → storeAt t g = storeAt s g) ∧
      (∀ c, (compress l d b s).result = .ok c →
        c = { size := b.size, lookup := l, pixelData := d } ∧ l ≠ d ∧ Represents t c b ∧
        (storeAt t l).wordCount = (b.size.height + s.params.w - 1) / s.params.w)) ∧
    (∀ (room : Option Nat) (c : CompressedBitmap), (uncompress room c s).state = t →
      t.dec.isOpen = s.dec.isOpen ∧ t.enc = s.enc ∧ t.params = s.params ∧ t.inputs = s.inputs ∧
      t.draws = s.draws ∧ t.stores = s.stores)
end

