-- ==== Sys2Proof/Laws/State.lean ====
section
/-! SUPPORT. One lemma for each field under each update of the state, so that no proof unfolds a record update. -/

namespace Sys2Proof.Machine

variable (s : State) (h : Nat) (st : Store) (r : Response) (f : FaultReport)

@[simp] theorem setStore_params : (setStore s h st).params = s.params := rfl
@[simp] theorem setStore_stores : (setStore s h st).stores = s.stores.set h st := rfl
@[simp] theorem setStore_enc : (setStore s h st).enc = s.enc := rfl
@[simp] theorem setStore_dec : (setStore s h st).dec = s.dec := rfl
@[simp] theorem setStore_response : (setStore s h st).response = s.response := rfl
@[simp] theorem setStore_inputs : (setStore s h st).inputs = s.inputs := rfl
@[simp] theorem setStore_draws : (setStore s h st).draws = s.draws := rfl

@[simp] theorem answer_params : (answer r s).params = s.params := rfl
@[simp] theorem answer_stores : (answer r s).stores = s.stores := rfl
@[simp] theorem answer_enc : (answer r s).enc = s.enc := rfl
@[simp] theorem answer_dec : (answer r s).dec = s.dec := rfl
@[simp] theorem answer_response : (answer r s).response = r := rfl
@[simp] theorem answer_inputs : (answer r s).inputs = s.inputs := rfl
@[simp] theorem answer_draws : (answer r s).draws = s.draws := rfl

@[simp] theorem advanceEnc_params : (advanceEnc s).params = s.params := rfl
@[simp] theorem advanceEnc_stores : (advanceEnc s).stores = s.stores := rfl
@[simp] theorem advanceEnc_enc :
    (advanceEnc s).enc = { s.enc with cursor := s.enc.cursor + 1 } := rfl
@[simp] theorem advanceEnc_dec : (advanceEnc s).dec = s.dec := rfl
@[simp] theorem advanceEnc_response : (advanceEnc s).response = s.response := rfl
@[simp] theorem advanceEnc_inputs : (advanceEnc s).inputs = s.inputs := rfl
@[simp] theorem advanceEnc_draws : (advanceEnc s).draws = s.draws := rfl

@[simp] theorem advanceDec_params : (advanceDec s).params = s.params := rfl
@[simp] theorem advanceDec_stores : (advanceDec s).stores = s.stores := rfl
@[simp] theorem advanceDec_enc : (advanceDec s).enc = s.enc := rfl
@[simp] theorem advanceDec_dec :
    (advanceDec s).dec = { s.dec with cursor := s.dec.cursor + 1 } := rfl
@[simp] theorem advanceDec_response : (advanceDec s).response = s.response := rfl
@[simp] theorem advanceDec_inputs : (advanceDec s).inputs = s.inputs := rfl
@[simp] theorem advanceDec_draws : (advanceDec s).draws = s.draws := rfl

@[simp] theorem takeFault_params (who : Agent) : (takeFault who f s).params = s.params := by
  cases who <;> rfl
@[simp] theorem takeFault_stores (who : Agent) : (takeFault who f s).stores = s.stores := by
  cases who <;> rfl
@[simp] theorem takeFault_response (who : Agent) : (takeFault who f s).response = .faulted f := by
  cases who <;> rfl
@[simp] theorem takeFault_inputs (who : Agent) : (takeFault who f s).inputs = s.inputs := by
  cases who <;> rfl
@[simp] theorem takeFault_draws (who : Agent) : (takeFault who f s).draws = s.draws := by
  cases who <;> rfl
@[simp] theorem takeFault_host_enc : (takeFault .host f s).enc = s.enc := rfl
@[simp] theorem takeFault_host_dec : (takeFault .host f s).dec = s.dec := rfl
@[simp] theorem takeFault_encoder_enc :
    (takeFault .encoder f s).enc = { s.enc with fault := some (faultCode f) } := rfl
@[simp] theorem takeFault_encoder_dec : (takeFault .encoder f s).dec = s.dec := rfl
@[simp] theorem takeFault_decoder_enc : (takeFault .decoder f s).enc = s.enc := rfl
@[simp] theorem takeFault_decoder_dec :
    (takeFault .decoder f s).dec = { s.dec with fault := some (faultCode f) } := rfl

@[simp] theorem storeAt_answer (g : Nat) : storeAt (answer r s) g = storeAt s g := rfl
@[simp] theorem storeAt_advanceEnc (g : Nat) : storeAt (advanceEnc s) g = storeAt s g := rfl
@[simp] theorem storeAt_advanceDec (g : Nat) : storeAt (advanceDec s) g = storeAt s g := rfl
@[simp] theorem storeAt_takeFault (who : Agent) (g : Nat) :
    storeAt (takeFault who f s) g = storeAt s g := by cases who <;> rfl

/-- The store written is the store read. -/
theorem storeAt_setStore_same (hh : h < s.stores.length) : storeAt (setStore s h st) h = st := by
  simp [storeAt, hh]

/-- Another store is as before. -/
theorem storeAt_setStore_other {g : Nat} (hg : g ≠ h) :
    storeAt (setStore s h st) g = storeAt s g := by
  simp [storeAt, List.getElem?_set_ne (Ne.symm hg)]

@[simp] theorem bitAt_answer (g i : Nat) : bitAt (answer r s) g i = bitAt s g i := rfl
@[simp] theorem bitAt_advanceEnc (g i : Nat) : bitAt (advanceEnc s) g i = bitAt s g i := rfl
@[simp] theorem bitAt_advanceDec (g i : Nat) : bitAt (advanceDec s) g i = bitAt s g i := rfl
@[simp] theorem bitAt_takeFault (who : Agent) (g i : Nat) :
    bitAt (takeFault who f s) g i = bitAt s g i := by cases who <;> rfl

@[simp] theorem isHandle_setStore (g : Nat) : isHandle (setStore s h st) g = isHandle s g := by
  simp [isHandle]
@[simp] theorem isHandle_answer (g : Nat) : isHandle (answer r s) g = isHandle s g := rfl

end Sys2Proof.Machine
end

