-- ==== Sys2Proof/Laws/Store.lean ====
section
/-! SUPPORT. The BitSet law (20_memory.md R54) for the model's stores, the word counts after each bit operation (R46,
R48), and that every memory operation keeps `Memory.wf`. -/

namespace Sys2Proof.Machine

/-- The two word widths are positive and fit the word container. -/
theorem params_w_bounds (p : Params) : 0 < p.w ∧ p.w ≤ 64 := by
  unfold Params.w
  cases p.width <;> decide

/-- The mask of R41 has the one bit `W − 1 − (i mod W)`. -/
theorem getLsbD_bitMask {w : Nat} (hw : 0 < w) (hw' : w ≤ 64) (i j : Nat) :
    (bitMask w i).getLsbD j = decide (j = valueBit w i) := by
  have hi : i % w < w := Nat.mod_lt _ hw
  unfold bitMask valueBit
  rw [BitVec.getLsbD_ushiftRight, BitVec.getLsbD_shiftLeft]
  by_cases hj : j = w - 1 - i % w
  · subst hj
    have h1 : i % w + (w - 1 - i % w) = w - 1 := by omega
    have h2 : w - 1 < 64 := by omega
    simp [h1, h2]
  · have h1 : i % w + j ≠ w - 1 := by omega
    by_cases h2 : i % w + j < w - 1
    · simp [h2, hj]
    · have h3 : i % w + j - (w - 1) ≠ 0 := by omega
      simp [hj, h3]

/-- Two stream bits of one word have two value bits. -/
theorem valueBit_inj {w i j : Nat} (hw : 0 < w) (hk : wordIndex w i = wordIndex w j)
    (hv : valueBit w i = valueBit w j) : i = j := by
  unfold valueBit at hv
  unfold wordIndex at hk
  have h1 := Nat.mod_lt i hw
  have h2 := Nat.mod_lt j hw
  have h3 : i % w = j % w := by omega
  rw [← Nat.div_add_mod i w, ← Nat.div_add_mod j w, hk, h3]

theorem wordCount_growTo (n : Nat) (st : Store) :
    (growTo n st).wordCount = max st.wordCount n := by
  simp only [growTo, Store.wordCount, List.length_append, List.length_replicate]
  omega

/-- A word of a grown store: the old word, or 0. -/
theorem getD_growTo (n k : Nat) (st : Store) :
    (growTo n st).words.getD k 0 = st.words.getD k 0 := by
  simp only [growTo, List.getD_eq_getElem?_getD]
  by_cases hk : k < st.words.length
  · rw [List.getElem?_append_left hk]
  · rw [List.getElem?_append_right (by omega), List.getElem?_replicate,
      List.getElem?_eq_none (by omega)]
    split <;> rfl

theorem wordCount_setBit (w : Nat) (st : Store) (i : Nat) :
    (setBit w st i).wordCount = max st.wordCount (i / w + 1) := by
  simp only [setBit, Store.wordCount, List.length_modify]
  exact wordCount_growTo _ st

theorem wordCount_clearBit (w : Nat) (st : Store) (i : Nat) :
    (clearBit w st i).wordCount = st.wordCount := by
  simp [clearBit, Store.wordCount]

theorem getD_modify (l : List Word) (k m : Nat) (f : Word → Word) (hk : k < l.length) :
    (l.modify k f).getD m 0 = if m = k then f (l.getD k 0) else l.getD m 0 := by
  simp only [List.getD_eq_getElem?_getD, List.getElem?_modify]
  by_cases hm : m = k
  · subst hm; simp [hk]
  · simp [hm, Ne.symm hm]

theorem wordCount_le_iff_testBit_zero {w : Nat} {st : Store} {i : Nat}
    (h : st.wordCount ≤ wordIndex w i) : testBit w st i = false := by
  simp [testBit, h]

/-- A bit past the end is 0 in the word view too, so the capacity test only spares a lookup. -/
theorem testBit_eq (w : Nat) (st : Store) (i : Nat) :
    testBit w st i = (st.words.getD (wordIndex w i) 0).getLsbD (valueBit w i) := by
  unfold testBit
  split
  · rename_i h
    have h' : st.words.length ≤ wordIndex w i := h
    simp [List.getD_eq_getElem?_getD, List.getElem?_eq_none h']
  · rfl

/-- "after `b.set(i)`, `b.test(i)` is true and `b.test(j)` is unchanged for all j ≠ i" (R54). -/
theorem testBit_setBit {w : Nat} (hw : 0 < w) (hw' : w ≤ 64) (st : Store) (i j : Nat) :
    testBit w (setBit w st i) j = if j = i then true else testBit w st j := by
  rw [testBit_eq, testBit_eq]
  have hlen : wordIndex w i < (growTo (wordIndex w i + 1) st).words.length := by
    have := wordCount_growTo (wordIndex w i + 1) st
    unfold Store.wordCount at this
    omega
  simp only [setBit]
  rw [getD_modify _ _ _ _ hlen, getD_growTo, getD_growTo]
  by_cases hk : wordIndex w j = wordIndex w i
  · simp only [hk, if_true, BitVec.getLsbD_or, getLsbD_bitMask hw hw']
    by_cases hj : j = i
    · subst hj; simp
    · have hv : valueBit w j ≠ valueBit w i := fun hv => hj (valueBit_inj hw hk hv)
      simp [hj, hv]
  · have hj : j ≠ i := fun h => hk (by rw [h])
    simp [hk, hj]

/-- "after `b.clear(i)`, `b.test(i)` is false", and every other bit is unchanged (R54). -/
theorem testBit_clearBit {w : Nat} (hw : 0 < w) (hw' : w ≤ 64) (st : Store) (i j : Nat) :
    testBit w (clearBit w st i) j = if j = i then false else testBit w st j := by
  rw [testBit_eq, testBit_eq]
  simp only [clearBit]
  by_cases hlen : wordIndex w i < st.words.length
  · rw [getD_modify _ _ _ _ hlen]
    by_cases hk : wordIndex w j = wordIndex w i
    · simp only [hk, if_true, BitVec.getLsbD_and, BitVec.getLsbD_not, getLsbD_bitMask hw hw']
      by_cases hj : j = i
      · subst hj; simp
      · have hv : valueBit w j ≠ valueBit w i := fun hv => hj (valueBit_inj hw hk hv)
        simp only [hv, hj, if_false, decide_false, Bool.not_false, Bool.and_true]
        cases hb : (st.words.getD (wordIndex w i) 0).getLsbD (valueBit w j) with
        | false => simp
        | true => simp [BitVec.lt_of_getLsbD hb]
    · have hj : j ≠ i := fun h => hk (by rw [h])
      simp [hk, hj]
  · rw [List.modify_eq_self (by omega)]
    by_cases hj : j = i
    · subst hj
      simp [List.getD_eq_getElem?_getD, List.getElem?_eq_none (Nat.le_of_not_lt hlen)]
    · simp [hj]

/-- A store of zero words reads 0 everywhere (R63, R45). -/
theorem testBit_replicate_zero (w n i : Nat) :
    testBit w { words := List.replicate n 0 } i = false := by
  rw [testBit_eq]
  simp only [List.getD_eq_getElem?_getD, List.getElem?_replicate]
  split <;> simp

/-! ### Every memory operation keeps `Memory.wf` -/

theorem bitMask_lt {w : Nat} (hw : 0 < w) (hw' : w ≤ 64) (i : Nat) : (bitMask w i).toNat < 2 ^ w := by
  have hi : i % w < w := Nat.mod_lt _ hw
  unfold bitMask
  rw [BitVec.toNat_ushiftRight, BitVec.toNat_shiftLeft]
  have h1 : (1#64).toNat <<< (w - 1) % 2 ^ 64 = 2 ^ (w - 1) := by
    have h2 : (2 : Nat) ^ (w - 1) < 2 ^ 64 := Nat.pow_lt_pow_right (by omega) (by omega)
    rw [Nat.shiftLeft_eq]
    simpa using h2
  rw [h1, Nat.shiftRight_eq_div_pow]
  calc 2 ^ (w - 1) / 2 ^ (i % w) ≤ 2 ^ (w - 1) := Nat.div_le_self _ _
    _ < 2 ^ w := Nat.pow_lt_pow_right (by omega) (by omega)

theorem truncateWord_lt (p : Params) (v : Word) : (truncateWord p.w v).toNat < 2 ^ p.w := by
  have hw := params_w_bounds p
  have h2 : (2 : Nat) ^ p.w ≤ 2 ^ 64 := Nat.pow_le_pow_right (by omega) hw.2
  have h0 : 0 < (2 : Nat) ^ p.w := Nat.pow_pos (by omega)
  unfold truncateWord
  rw [BitVec.toNat_and, BitVec.toNat_ofNat, Nat.mod_eq_of_lt (by omega)]
  exact Nat.lt_of_le_of_lt Nat.and_le_right (by omega)

theorem wf_replicate_zero {p : Params} {n : Nat} (hn : wordsAllowed p n = true) :
    StoreWf p { words := List.replicate n 0 } := by
  refine ⟨?_, by simpa [Store.wordCount] using hn⟩
  intro v hv
  have h0 : 0 < (2 : Nat) ^ p.w := Nat.pow_pos (by omega)
  rw [List.eq_of_mem_replicate hv]
  exact h0

theorem mem_modify_lt {l : List Word} {k b : Nat} {f : Word → Word}
    (hl : ∀ v ∈ l, v.toNat < b) (hf : ∀ v : Word, v.toNat < b → (f v).toNat < b) :
    ∀ v ∈ l.modify k f, v.toNat < b := by
  intro v hv
  obtain ⟨m, hm, rfl⟩ := List.getElem_of_mem hv
  rw [List.getElem_modify]
  have hm' : m < l.length := by simpa using hm
  split
  · exact hf _ (hl _ (List.getElem_mem hm'))
  · exact hl _ (List.getElem_mem hm')

theorem wordsAllowed_max {p : Params} {a b : Nat} (ha : wordsAllowed p a = true)
    (hb : wordsAllowed p b = true) : wordsAllowed p (max a b) = true := by
  rcases Nat.le_total a b with h | h <;> simp [h, ha, hb]

theorem wf_setBit {p : Params} {st : Store} {i : Nat} (hs : StoreWf p st)
    (hfit : i / p.w < st.wordCount ∨ wordsAllowed p (i / p.w + 1) = true) :
    StoreWf p (setBit p.w st i) := by
  have hw := params_w_bounds p
  refine ⟨mem_modify_lt ?_ ?_, ?_⟩
  · intro v hv
    rcases List.mem_append.mp hv with hv | hv
    · exact hs.1 v hv
    · rw [List.eq_of_mem_replicate hv]
      simp
  · intro v hv
    rw [BitVec.toNat_or]
    exact Nat.or_lt_two_pow hv (bitMask_lt hw.1 hw.2 i)
  · rw [wordCount_setBit]
    rcases hfit with h | h
    · rw [Nat.max_eq_left (by omega)]; exact hs.2
    · exact wordsAllowed_max hs.2 h

theorem wf_clearBit {p : Params} {st : Store} (i : Nat) (hs : StoreWf p st) :
    StoreWf p (clearBit p.w st i) := by
  refine ⟨mem_modify_lt hs.1 ?_, by rw [wordCount_clearBit]; exact hs.2⟩
  intro v hv
  rw [BitVec.toNat_and]
  exact Nat.lt_of_le_of_lt Nat.and_le_left hv

theorem wf_loadWord {p : Params} {st : Store} {k : Nat} {v : Word} (hs : StoreWf p st)
    (hv : v.toNat < 2 ^ p.w) : StoreWf p { words := st.words.set k v } := by
  refine ⟨?_, by simpa [Store.wordCount] using hs.2⟩
  intro u hu
  rcases List.mem_or_eq_of_mem_set hu with h | h
  · exact hs.1 u h
  · rw [h]; exact hv

theorem wf_resize {p : Params} {st : Store} {ws : List Word} (hs : StoreWf p st)
    (hws : ∀ v ∈ ws, v.toNat < 2 ^ p.w)
    (hn : wordsAllowed p (st.wordCount + ws.length) = true) :
    StoreWf p { words := st.words ++ ws } := by
  refine ⟨?_, by simpa [Store.wordCount] using hn⟩
  intro v hv
  rcases List.mem_append.mp hv with h | h
  · exact hs.1 v h
  · exact hws v h

/-- Replacing one store by a well-formed one keeps the memory well formed. -/
theorem Memory_wf_set {p : Params} {stores : List Store} {h : Nat} {st : Store}
    (hm : Memory.wf p stores) (hs : StoreWf p st) : Memory.wf p (stores.set h st) := by
  intro x hx
  rcases List.mem_or_eq_of_mem_set hx with h | h
  · exact hm x h
  · rw [h]; exact hs

/-- The memory at reset is well formed, on every instance. -/
theorem Memory_wf_reset (p : Params) (nbs : Nat) :
    Memory.wf p (State.resetOf p nbs).stores := by
  intro st hst
  rw [List.eq_of_mem_replicate hst]
  refine ⟨by simp [Store.empty], ?_⟩
  simp only [Store.empty, Store.wordCount, wordsAllowed, List.length_nil]
  split <;> simp

end Sys2Proof.Machine
end

