-- ==== Sys2Proof/Machine/HostInvariants.lean ====
section
/-! DEFINITION. The seven quantified invariants the document lists (47_host_context.md R186), numbered as there: each a
predicate over the model's own meanings, for one bitmap, one image or one store. -/

namespace Sys2Proof.Machine

/-- R186 (1), for one bitmap: "`uncompress(compress(B)) == B` (byte-exact round-trip)". The obligation
`UncompressRestoresTheBitmap` states it of every valid bitmap. -/
def RestoresBitmap (room : Option Nat) (l d : Nat) (b : Bitmap) (s : State) : Prop :=
  ∃ c, (compress l d b s).result = .ok c ∧
    (uncompress room c (compress l d b s).state).result = .ok b

/-- R186 (2), for one image `c` that `compress(B)` left in state `t`: "`compress(B).is_empty_row_at(y)` iff every pixel in
row y of B equals White". The obligation `LookupTableMarksNonEmptyRows` states it of every bitmap, for the rows that have
an index on the instance (log entry 24). -/
def TellsEmptyRows (b : Bitmap) (c : CompressedBitmap) (t : State) : Prop :=
  ∀ y < b.size.height, ∃ r, (isEmptyRowAt c y t).result = .ok r ∧
    (r = true ↔ ∀ q ∈ rowPixels b y, q = 0xFF)

/-- R186 (3), for one size and background: "`Bitmap(w, h, c)` succeeds and every pixel equals c". The obligation
`BitmapSizesAreChecked` states it of every size the host can allocate. -/
def FillsBitmap (p : Params) (room : Option Nat) (z : BitmapSize) (background : Pixel) : Prop :=
  ∃ b, newBitmap p room z background = .ok b ∧ b.size = z ∧
    b.pixels.length = z.width * z.height ∧ ∀ q ∈ b.pixels, q = background

/-- R186 (4), for one image `c` of state `s`, saved and then loaded into stores `l` and `d` of state `u`: "`load(S) == C`
after save/load round-trip (structural equality of size, lookup table, pixel data)". The obligation
`LoadRestoresWhatSaveWrote` states it of every valid image. -/
def RestoresCompressed (o : ByteOrder) (c : CompressedBitmap) (s : State) (l d : Nat) (u : State) : Prop :=
  ∃ file e, (save none o c s).result = .ok file ∧ (load o l d file u).result = .ok e ∧
    sameCompressed c s e (load o l d file u).state = true

/-- R186 (5), for one store: the BitSet law (20_memory.md R54). The law `bitSetLaw_holds` proves it of every store; the
obligations `BsSetSetsOneBit` and `BsClearClearsOneBit` state it of the operations. -/
def BitSetLaw (w : Nat) (st : Store) : Prop :=
  ∀ i, testBit w (setBit w st i) i = true ∧
    (∀ j, j ≠ i → testBit w (setBit w st i) j = testBit w st j) ∧
    testBit w (clearBit w st i) i = false

/-- R186 (6), for one pixel order: the split/combine law (40_pixel_block.md R94). The law
`splitUndoesCombine_holds` proves it; the obligation `SplitAndCombineAreInverse` states it of the operations. -/
def SplitUndoesCombine (o : PackOrder) : Prop :=
  ∀ p0 p1 p2 p3, unpackPixels o (packPixels o p0 p1 p2 p3) = [p0, p1, p2, p3]

/-- R186 (7), for the calls of one whole-image operation on `height` rows: "for each y in 0..height and then once more with
(height, height) — total height+1 invocations, with strictly increasing `current_step`". The obligation
`ProgressIsCalledOncePerRowAndAtTheEnd` states it of both drivers. -/
def ProgressRuns (height : Nat) (calls : List (Nat × Nat)) : Prop :=
  calls = ((List.range height).map fun y => (y, height)) ++ [(height, height)] ∧
  calls.length = height + 1 ∧ calls.Pairwise fun a b => a.1 < b.1

end Sys2Proof.Machine
end

