-- ==== Sys2Proof/Laws/Host.lean ====
section
/-! SUPPORT. What the pieces of a host's job can do, said once: how two of them join, how one operation ends, how a scope
is left, what writing a row leaves, and the invariants of R186 that hold of every store and every block. -/

namespace Sys2Proof.Machine

/-! ### Jobs that do nothing to the block -/

@[simp] theorem finished_result {α : Type} (a : α) (s : State) : (finished a s).result = .ok a := rfl
@[simp] theorem finished_state {α : Type} (a : α) (s : State) : (finished a s).state = s := rfl
@[simp] theorem finished_calls {α : Type} (a : α) (s : State) : (finished a s).calls = [] := rfl
@[simp] theorem failed_result {α : Type} (e : HostError) (s : State) :
    (failed (α := α) e s).result = .error e := rfl
@[simp] theorem failed_state {α : Type} (e : HostError) (s : State) : (failed (α := α) e s).state = s := rfl
@[simp] theorem failed_calls {α : Type} (e : HostError) (s : State) : (failed (α := α) e s).calls = [] := rfl
@[simp] theorem ofExcept_result {α : Type} (r : Except HostError α) (s : State) :
    (ofExcept r s).result = r := rfl
@[simp] theorem ofExcept_state {α : Type} (r : Except HostError α) (s : State) :
    (ofExcept r s).state = s := rfl
@[simp] theorem ofExcept_calls {α : Type} (r : Except HostError α) (s : State) :
    (ofExcept r s).calls = [] := rfl
@[simp] theorem progress_result (y n : Nat) (s : State) : (progress y n s).result = .ok () := rfl
@[simp] theorem progress_state (y n : Nat) (s : State) : (progress y n s).state = s := rfl
@[simp] theorem progress_calls (y n : Nat) (s : State) : (progress y n s).calls = [(y, n)] := rfl

/-! ### One piece of work after another -/

/-- Where the first piece ends well, the second runs from the state it left. -/
theorem andDo_of_ok {α β : Type} {j : Job α} {k : α → State → Job β} {a : α}
    (h : j.result = .ok a) :
    andDo j k = { k a j.state with calls := j.calls ++ (k a j.state).calls } := by
  simp only [andDo, h]

/-- Where the first piece ends in an error, that error is the answer and nothing more happens (R185). -/
theorem andDo_of_error {α β : Type} {j : Job α} {k : α → State → Job β} {e : HostError}
    (h : j.result = .error e) :
    andDo j k = { result := .error e, state := j.state, calls := j.calls } := by
  simp only [andDo, h]

/-- Two pieces end well exactly where both do. -/
theorem andDo_result_ok {α β : Type} {j : Job α} {k : α → State → Job β} {b : β} :
    (andDo j k).result = .ok b ↔ ∃ a, j.result = .ok a ∧ (k a j.state).result = .ok b := by
  cases h : j.result <;> simp [andDo, h]

/-- What holds of the states both pieces leave holds of the state the two leave. -/
theorem andDo_state {α β : Type} {j : Job α} {k : α → State → Job β} {P : State → Prop}
    (hj : P j.state) (hk : ∀ a, j.result = .ok a → P (k a j.state).state) :
    P (andDo j k).state := by
  cases h : j.result with
  | error e => rw [andDo_of_error h]; exact hj
  | ok a => rw [andDo_of_ok h]; exact hk a h

/-! ### One operation -/

/-- An operation the host issued either left the state alone or ended in the next state the job is in. -/
theorem issue_state (i : Instr) (s : State) :
    (issue i s).state = s ∨ exec i s = .next (issue i s).state := by
  unfold issue
  split
  · exact .inl rfl
  · split
    · rename_i t h
      right
      rw [h]
      split <;> rfl
    · exact .inl rfl
    · exact .inl rfl

/-- An operation that ended well was well formed and answered no fault. -/
theorem issue_result_ok {i : Instr} {s : State} {r : Response} (h : (issue i s).result = .ok r) :
    wellFormed s.params i = true ∧ exec i s = .next (issue i s).state ∧
      (issue i s).state.response = r ∧ ∀ f, r ≠ .faulted f := by
  unfold issue at h ⊢
  split at h
  · cases h
  · rename_i hw
    split at h
    · rename_i t he
      split at h
      · cases h
      · rename_i hr
        obtain rfl : t.response = r := by simpa using h
        rw [if_neg hw, he]
        exact ⟨by simpa using hw, rfl, rfl, hr⟩
    · cases h
    · cases h

/-- A well formed operation that ends in a next state without a fault ends the job well. -/
theorem issue_of_next {i : Instr} {s t : State} (hw : wellFormed s.params i = true)
    (he : exec i s = .next t) (hf : ∀ f, t.response ≠ .faulted f) :
    issue i s = finished t.response t := by
  unfold issue
  rw [if_neg (by simp [hw]), he]
  dsimp only
  split
  · rename_i f h
    exact absurd h (hf f)
  · rfl

/-! ### Leaving a scope -/

/-- The state after a scope is the one its closing operation leaves, however the work in it ended. -/
@[simp] theorem leaveScope_state {α : Type} (close : Instr) (j : Job α) :
    (leaveScope close j).state = (issueFor close j.state).state := rfl

@[simp] theorem leaveScope_calls {α : Type} (close : Instr) (j : Job α) :
    (leaveScope close j).calls = j.calls := rfl

/-- A scope ends well exactly where its work and its closing do. -/
theorem leaveScope_result_ok {α : Type} {close : Instr} {j : Job α} {a : α} :
    (leaveScope close j).result = .ok a ↔
      j.result = .ok a ∧ (issueFor close j.state).result = .ok () := by
  cases h : j.result <;> cases h' : (issueFor close j.state).result <;> simp [leaveScope, h, h']

/-! ### Writing a row -/

/-- Writing a row of a bitmap that has one pixel for each place keeps its size and its number of pixels. -/
theorem writeRowAt_keeps {b b' : Bitmap} {y : Nat} {row : List Pixel}
    (hb : b.pixels.length = b.size.width * b.size.height) (h : writeRowAt b y row = .ok b') :
    b'.size = b.size ∧ b'.pixels.length = b.pixels.length := by
  unfold writeRowAt at h
  split at h
  · cases h
  · rename_i hy
    cases h
    refine ⟨rfl, ?_⟩
    have h1 : (y + 1) * b.size.width ≤ b.size.height * b.size.width :=
      Nat.mul_le_mul_right _ (by omega)
    rw [Nat.mul_comm b.size.height, Nat.succ_mul, ← hb] at h1
    simp only [List.length_append, List.length_take, List.length_drop]
    omega

/-- A whole row written is the row read; every other pixel is as before. -/
theorem getElem_writeRowAt {b b' : Bitmap} {y : Nat} {row : List Pixel}
    (hb : b.pixels.length = b.size.width * b.size.height) (hr : row.length = b.size.width)
    (h : writeRowAt b y row = .ok b') (i : Nat) :
    b'.pixels[i]? =
      if y * b.size.width ≤ i ∧ i < (y + 1) * b.size.width then row[i - y * b.size.width]?
      else b.pixels[i]? := by
  unfold writeRowAt at h
  split at h
  · cases h
  · rename_i hy
    cases h
    have h1 : (y + 1) * b.size.width ≤ b.size.height * b.size.width :=
      Nat.mul_le_mul_right _ (by omega)
    rw [Nat.succ_mul]
    rw [Nat.mul_comm b.size.height, Nat.succ_mul, ← hb] at h1
    have h2 : row.take b.size.width = row := List.take_of_length_le (by omega)
    simp only [h2, List.getElem?_append, List.getElem?_take, List.getElem?_drop,
      List.length_append, List.length_take]
    have h3 : min (y * b.size.width) b.pixels.length = y * b.size.width := by omega
    rw [h3, hr]
    split_ifs <;> first | rfl | omega | (congr 1; omega)

/-! ### The invariants of R186 -/

/-- R186 (5): the BitSet law holds of every store. -/
theorem bitSetLaw_holds (p : Params) (st : Store) : BitSetLaw p.w st := by
  have hw := params_w_bounds p
  intro i
  simp only [testBit_setBit hw.1 hw.2, testBit_clearBit hw.1 hw.2]
  exact ⟨by simp, fun j hj => by simp [hj], by simp⟩

/-- The four bytes of a concatenation, each where it was put. -/
theorem extract_append_four (a b c d : BitVec 8) :
    (a ++ b ++ c ++ d).extractLsb' 24 8 = a ∧ (a ++ b ++ c ++ d).extractLsb' 16 8 = b ∧
    (a ++ b ++ c ++ d).extractLsb' 8 8 = c ∧ (a ++ b ++ c ++ d).extractLsb' 0 8 = d := by
  refine ⟨?_, ?_, ?_, ?_⟩ <;> apply BitVec.eq_of_getLsbD_eq <;> intro i hi <;>
    rw [BitVec.getLsbD_extractLsb'] <;> simp only [BitVec.getLsbD_append, hi, decide_true, Bool.true_and] <;>
    split_ifs <;> first | omega | (congr 1; omega)

/-- R186 (6), R94: the split/combine law holds under both orders. -/
theorem splitUndoesCombine_holds (o : PackOrder) : SplitUndoesCombine o := by
  intro p0 p1 p2 p3
  cases o with
  | p0Msb =>
      obtain ⟨h0, h1, h2, h3⟩ := extract_append_four p0 p1 p2 p3
      exact congrArg₂ _ h0 (congrArg₂ _ h1 (congrArg₂ _ h2 (congrArg₂ _ h3 rfl)))
  | p0Lsb =>
      obtain ⟨h0, h1, h2, h3⟩ := extract_append_four p3 p2 p1 p0
      exact congrArg₂ _ h3 (congrArg₂ _ h2 (congrArg₂ _ h1 (congrArg₂ _ h0 rfl)))
/-- R186 (7): the first clause gives the other two. -/
theorem progressRuns_of_list (height : Nat) :
    ProgressRuns height (((List.range height).map fun y => (y, height)) ++ [(height, height)]) := by
  refine ⟨rfl, by simp, ?_⟩
  rw [List.pairwise_append]
  refine ⟨?_, by simp, ?_⟩
  · rw [List.pairwise_map]
    exact List.pairwise_lt_range
  · simp

end Sys2Proof.Machine
end

