-- ==== Sys2Proof/Laws/PerInstr.lean ====
section
/-! SUPPORT. Per instruction: its encoding is what spec/opcode_table.json's row gives it, one lemma a constructor. -/

namespace Sys2Proof.Laws.CodeAssigned

/-- The encoding of an instruction is a transaction under its own operation code, one below `0x17` (30_encoding.md R80, R81),
or, where it has no operation code, a codeword of 1, 2 or 34 bits (R71). -/
def Statement (i : Instr) : Prop :=
  match encode i with
  | .op t => opCode i = some t.code ∧ t.code.toNat < 0x17
  | .stream bits => opCode i = none ∧ (bits.length = 1 ∨ bits.length = 2 ∨ bits.length = 34)

theorem cwWhite : Statement (.cwWhite) := ⟨rfl, .inl rfl⟩
theorem cwBlack : Statement (.cwBlack) := ⟨rfl, .inr (.inl rfl)⟩
theorem cwLiteral (lit : Block) : Statement (.cwLiteral lit) := ⟨rfl, .inr (.inr rfl)⟩
theorem bsNew (h bitCount : Nat) : Statement (.bsNew h bitCount) := ⟨rfl, Nat.le_of_ble_eq_true rfl⟩
theorem bsTest (h i : Nat) : Statement (.bsTest h i) := ⟨rfl, Nat.le_of_ble_eq_true rfl⟩
theorem bsSet (h i : Nat) : Statement (.bsSet h i) := ⟨rfl, Nat.le_of_ble_eq_true rfl⟩
theorem bsClear (h i : Nat) : Statement (.bsClear h i) := ⟨rfl, Nat.le_of_ble_eq_true rfl⟩
theorem bsWord (h k : Nat) : Statement (.bsWord h k) := ⟨rfl, Nat.le_of_ble_eq_true rfl⟩
theorem bsWordCount (h : Nat) : Statement (.bsWordCount h) := ⟨rfl, Nat.le_of_ble_eq_true rfl⟩
theorem bsResize (who : Issuer) (h n : Nat) : Statement (.bsResize who h n) := ⟨rfl, Nat.le_of_ble_eq_true rfl⟩
theorem bsLoadWord (who : Issuer) (h k : Nat) (v : Word) : Statement (.bsLoadWord who h k v) :=
  ⟨rfl, Nat.le_of_ble_eq_true rfl⟩
theorem combine (p0 p1 p2 p3 : Pixel) : Statement (.combine p0 p1 p2 p3) := ⟨rfl, Nat.le_of_ble_eq_true rfl⟩
theorem split (b : Block) : Statement (.split b) := ⟨rfl, Nat.le_of_ble_eq_true rfl⟩
theorem encOpen (h : Nat) : Statement (.encOpen h) := ⟨rfl, Nat.le_of_ble_eq_true rfl⟩
theorem write0 : Statement (.write0) := ⟨rfl, Nat.le_of_ble_eq_true rfl⟩
theorem write1 : Statement (.write1) := ⟨rfl, Nat.le_of_ble_eq_true rfl⟩
theorem encCursor : Statement (.encCursor) := ⟨rfl, Nat.le_of_ble_eq_true rfl⟩
theorem encClose : Statement (.encClose) := ⟨rfl, Nat.le_of_ble_eq_true rfl⟩
theorem encBlock (b : Block) : Statement (.encBlock b) := ⟨rfl, Nat.le_of_ble_eq_true rfl⟩
theorem encode (pixels : List Pixel) : Statement (.encode pixels) := ⟨rfl, Nat.le_of_ble_eq_true rfl⟩
theorem decOpen (h : Nat) : Statement (.decOpen h) := ⟨rfl, Nat.le_of_ble_eq_true rfl⟩
theorem readBit : Statement (.readBit) := ⟨rfl, Nat.le_of_ble_eq_true rfl⟩
theorem decCursor : Statement (.decCursor) := ⟨rfl, Nat.le_of_ble_eq_true rfl⟩
theorem decClose : Statement (.decClose) := ⟨rfl, Nat.le_of_ble_eq_true rfl⟩
theorem decBlock : Statement (.decBlock) := ⟨rfl, Nat.le_of_ble_eq_true rfl⟩
theorem decode (n : Nat) : Statement (.decode n) := ⟨rfl, Nat.le_of_ble_eq_true rfl⟩

end Sys2Proof.Laws.CodeAssigned
end

