-- ==== Sys2Proof/Laws/Run.lean ====
section
/-! SUPPORT. What each sequence of primitive steps can do, said once: the primitive writes (41_write_cursor.md R101,
R102, R105, R106), runs of them (42_encoder.md R111, R119), and the primitive read (43_read_cursor.md R126). -/

namespace Sys2Proof.Machine

/-! ### Ending a run -/

@[simp] theorem andThen_done {α β : Type} (a : α) (s : State) (k : α → State → Run β) :
    andThen (.done a s) k = k a s := rfl

@[simp] theorem andThen_faulted {α β : Type} (f : FaultReport) (s : State)
    (k : α → State → Run β) : andThen (.faulted f s) k = .faulted f s := rfl

theorem andThen_assoc {α β γ : Type} (r : Run α) (k : α → State → Run β) (m : β → State → Run γ) :
    andThen (andThen r k) m = andThen r fun a s => andThen (k a s) m := by
  cases r <;> rfl

@[simp] theorem finish_done {α : Type} (who : Agent) (g : α → Response) (a : α) (s : State) :
    finish who g (.done a s) = .next (answer (g a) s) := rfl

@[simp] theorem finish_faulted {α : Type} (who : Agent) (g : α → Response) (f : FaultReport)
    (s : State) : finish who g (.faulted f s) = .next (takeFault who f s) := rfl

@[simp] theorem guarded_none (o : Host.Outcome State Fault Refusal) : guarded none o = o := rfl

@[simp] theorem guarded_some (r : Refusal) (o : Host.Outcome State Fault Refusal) :
    guarded (some r) o = .refused r := rfl

/-! ### Guards in the statements' words -/

theorem encGuard_ready {s : State} (h : EncReady s) : encGuard s = none := by
  obtain ⟨h1, h2, h3⟩ := h
  simp [encGuard, isHandle, h1, h2, h3]

theorem decGuard_ready {s : State} (h : DecReady s) : decGuard s = none := by
  obtain ⟨h1, h2, h3⟩ := h
  simp [decGuard, isHandle, h1, h2, h3]

theorem encGuard_eq_none_iff (s : State) : encGuard s = none ↔ EncReady s := by
  unfold encGuard EncReady isHandle
  cases s.enc.isOpen <;> by_cases h2 : s.enc.fault = none <;>
    by_cases h3 : s.enc.bs < s.stores.length <;> simp [h2, h3]

theorem decGuard_eq_none_iff (s : State) : decGuard s = none ↔ DecReady s := by
  unfold decGuard DecReady isHandle
  cases s.dec.isOpen <;> by_cases h2 : s.dec.fault = none <;>
    by_cases h3 : s.dec.bs < s.stores.length <;> simp [h2, h3]

theorem hostReadGuard_eq_none_iff (h : Nat) (s : State) :
    hostReadGuard h s = none ↔ HostMayRead h s := by
  unfold hostReadGuard HostMayRead isHandle encHolds
  by_cases h1 : h < s.stores.length <;> cases s.enc.isOpen <;> by_cases h3 : s.enc.bs = h <;>
    simp [h1, h3]

theorem hostWriteGuard_eq_none_iff (h : Nat) (s : State) :
    hostWriteGuard h s = none ↔ HostMayWrite h s := by
  unfold hostWriteGuard HostMayWrite isHandle encHolds decHolds
  by_cases h1 : h < s.stores.length <;> cases s.enc.isOpen <;> by_cases h3 : s.enc.bs = h <;>
    cases s.dec.isOpen <;> by_cases h5 : s.dec.bs = h <;> simp [h1, h3, h5]

/-! ### Room -/

theorem canAdvance_iff_room (p : Params) (c : Nat) : canAdvance p c = true ↔ CursorRoom p c 1 := by
  unfold canAdvance CursorRoom
  cases p.indexBits <;> simp

theorem room_mono {p : Params} {c n d m : Nat} (h : CursorRoom p c n) (hle : d + m ≤ c + n) :
    CursorRoom p d m :=
  fun iw hiw => Nat.lt_of_le_of_lt hle (h iw hiw)

theorem canAdvance_of_room {p : Params} {c n : Nat} (h : CursorRoom p c (n + 1)) :
    canAdvance p c = true :=
  (canAdvance_iff_room p c).2 (room_mono h (by omega))

theorem room_succ {p : Params} {c n : Nat} (h : CursorRoom p c (n + 1)) :
    CursorRoom p (c + 1) n :=
  room_mono h (by omega)

theorem room_one {p : Params} {c : Nat} (h : canAdvance p c = true) : CursorRoom p c 1 :=
  (canAdvance_iff_room p c).1 h

theorem atTop_iff (p : Params) (c : Nat) : CursorAtTop p c ↔ canAdvance p c = false := by
  unfold CursorAtTop canAdvance
  cases p.indexBits <;> simp

/-! ### Overlaying bits -/

@[simp] theorem overlay_nil (c : Nat) (old : Nat → Bool) : overlay c [] old = old := by
  funext i
  unfold overlay
  rw [if_neg]
  simp

/-- Writing the first bit and then the rest is writing all. -/
theorem overlay_cons (c : Nat) (b : Bool) (bs : List Bool) (old : Nat → Bool) :
    overlay c (b :: bs) old = overlay (c + 1) bs (fun i => if i = c then b else old i) := by
  funext i
  unfold overlay
  simp only [List.length_cons]
  by_cases h0 : i = c
  · subst h0
    simp
  · by_cases h1 : c + 1 ≤ i ∧ i < c + 1 + bs.length
    · have h2 : c ≤ i ∧ i < c + (bs.length + 1) := by omega
      obtain ⟨d, hd⟩ : ∃ d, i - c = d + 1 := ⟨i - c - 1, by omega⟩
      have hd' : i - (c + 1) = d := by omega
      simp [h1, h2, hd, hd']
    · have h2 : ¬ (c ≤ i ∧ i < c + (bs.length + 1)) := by omega
      rw [if_neg h2, if_neg h1, if_neg h0]

theorem overlay_append (c : Nat) (xs ys : List Bool) (old : Nat → Bool) :
    overlay c (xs ++ ys) old = overlay (c + xs.length) ys (overlay c xs old) := by
  induction xs generalizing c old with
  | nil => simp
  | cons x xs ih =>
      rw [List.cons_append, overlay_cons, ih, overlay_cons, List.length_cons]
      congr 1
      omega

/-! ### The primitive writes -/

/-- `t` is `s` after `bits` have been written at the encoder's cursor: the frame, the cursor, every bit of the store, and
the word count (R106: the highest 1 written fixes it). -/
structure Wrote (bits : List Bool) (s t : State) : Prop where
  frame : EncFrame s t
  response : t.response = s.response
  enc : t.enc = { s.enc with cursor := s.enc.cursor + bits.length }
  stored : ∀ i, bitAt t s.enc.bs i = overlay s.enc.cursor bits (bitAt s s.enc.bs) i
  grows : (storeAt s s.enc.bs).wordCount ≤ (storeAt t s.enc.bs).wordCount
  holds : ∀ j < bits.length, bits.getD j false = true →
    (s.enc.cursor + j) / s.params.w < (storeAt t s.enc.bs).wordCount
  exact_count : (storeAt t s.enc.bs).wordCount = (storeAt s s.enc.bs).wordCount ∨
    ∃ j < bits.length, bits.getD j false = true ∧
      (storeAt t s.enc.bs).wordCount = (s.enc.cursor + j) / s.params.w + 1

theorem Wrote.nil (s : State) : Wrote [] s s where
  frame := ⟨rfl, rfl, rfl, rfl, rfl, rfl, rfl, fun _ _ => rfl⟩
  response := rfl
  enc := rfl
  stored := by simp
  grows := Nat.le_refl _
  holds := by simp
  exact_count := .inl rfl

theorem Wrote.trans {xs ys : List Bool} {s t u : State} (h1 : Wrote xs s t) (h2 : Wrote ys t u) :
    Wrote (xs ++ ys) s u := by
  have hbs : t.enc.bs = s.enc.bs := h1.frame.2.2.2.2.2.1
  have hp : t.params = s.params := h1.frame.1
  have hc : t.enc.cursor = s.enc.cursor + xs.length := by rw [h1.enc]
  have hget : ∀ j, j < xs.length → (xs ++ ys).getD j false = xs.getD j false := by
    intro j hj
    simp only [List.getD_eq_getElem?_getD]
    rw [List.getElem?_append_left hj]
  have hget' : ∀ j, (xs ++ ys).getD (xs.length + j) false = ys.getD j false := by
    intro j
    simp only [List.getD_eq_getElem?_getD]
    rw [List.getElem?_append_right (by omega)]
    congr 2
    omega
  have hg2 := h2.grows
  have hh2 := h2.holds
  have he2 := h2.exact_count
  have hb2 := h2.stored
  rw [hbs] at hg2 hb2
  simp only [hbs, hp, hc] at hh2 he2
  refine ⟨?_, by rw [h2.response, h1.response], ?_, ?_, by have := h1.grows; omega, ?_, ?_⟩
  · obtain ⟨a1, a2, a3, a4, a5, a6, a7, a8⟩ := h1.frame
    obtain ⟨b1, b2, b3, b4, b5, b6, b7, b8⟩ := h2.frame
    refine ⟨b1.trans a1, b2.trans a2, b3.trans a3, b4.trans a4, b5.trans a5, b6.trans a6,
      b7.trans a7, ?_⟩
    intro g hg
    rw [b8 g (by rw [hbs]; exact hg), a8 g hg]
  · rw [h2.enc, h1.enc, List.length_append, ← Nat.add_assoc]
  · intro i
    rw [hb2 i, hc, overlay_append]
    congr 1
    funext j
    exact h1.stored j
  · intro j hj hone
    rw [List.length_append] at hj
    by_cases hlt : j < xs.length
    · have := h1.holds j hlt (by rw [← hget j hlt]; exact hone)
      omega
    · obtain ⟨m, rfl⟩ : ∃ m, j = xs.length + m := ⟨j - xs.length, by omega⟩
      have := hh2 m (by omega) (by rw [← hget' m]; exact hone)
      rwa [Nat.add_assoc] at this
  · rcases he2 with he | ⟨m, hm, hone, he⟩
    · rcases h1.exact_count with h | ⟨j, hj, hone, h⟩
      · exact .inl (he.trans h)
      · refine .inr ⟨j, by rw [List.length_append]; omega, by rw [hget j hj]; exact hone, ?_⟩
        omega
    · refine .inr ⟨xs.length + m, by rw [List.length_append]; omega, by rw [hget']; exact hone, ?_⟩
      rw [he, Nat.add_assoc]

/-- Everything one primitive write can do: it completes and wrote its bit; or the cursor is at the top; or a 1 does not
fit; and a fault changes nothing (R191). -/
theorem writeBit_cases (b : Bool) (s : State) (hbs : s.enc.bs < s.stores.length) :
    (∃ t, writeBit b s = .done () t ∧ Wrote [b] s t ∧ canAdvance s.params s.enc.cursor = true) ∨
    (writeBit b s = .faulted (.cursorOverflow .encoder) s ∧
      canAdvance s.params s.enc.cursor = false) ∨
    (b = true ∧ canAdvance s.params s.enc.cursor = true ∧
      ¬ OneFits s.params (storeAt s s.enc.bs).wordCount s.enc.cursor ∧
      writeBit b s =
        .faulted (.allocationFailed s.enc.bs (s.enc.cursor / s.params.w + 1)) s) := by
  have hw := params_w_bounds s.params
  by_cases hadv : canAdvance s.params s.enc.cursor = false
  · exact .inr (.inl ⟨by simp [writeBit, hadv], hadv⟩)
  · have hadv' : canAdvance s.params s.enc.cursor = true := by simpa using hadv
    cases b with
    | false =>
        refine .inl ⟨advanceEnc (writeClear s.enc.bs s.enc.cursor s), by simp [writeBit, hadv'], ?_,
          hadv'⟩
        have hst : storeAt (advanceEnc (writeClear s.enc.bs s.enc.cursor s)) s.enc.bs
            = clearBit s.params.w (storeAt s s.enc.bs) s.enc.cursor :=
          storeAt_setStore_same _ _ _ hbs
        refine ⟨⟨rfl, rfl, rfl, rfl, rfl, rfl, by simp [writeClear], ?_⟩, rfl, rfl, ?_, ?_, ?_, ?_⟩
        · intro g hg
          exact storeAt_setStore_other _ _ _ hg
        · intro i
          rw [overlay_cons, overlay_nil]
          simp only [bitAt, hst]
          exact testBit_clearBit hw.1 hw.2 _ _ _
        · rw [hst, wordCount_clearBit]
        · intro j hj hone
          have : j = 0 := by simpa using hj
          subst this
          simp at hone
        · rw [hst, wordCount_clearBit]
          exact .inl rfl
    | true =>
        by_cases hfit : OneFits s.params (storeAt s s.enc.bs).wordCount s.enc.cursor
        · have hcond : ¬ ((storeAt s s.enc.bs).wordCount ≤ wordIndex s.params.w s.enc.cursor ∧
              wordsAllowed s.params (wordIndex s.params.w s.enc.cursor + 1) = false) := by
            unfold OneFits at hfit
            unfold wordIndex
            rintro ⟨h1, h2⟩
            rcases hfit with h | h
            · omega
            · rw [h] at h2; cases h2
          refine .inl ⟨advanceEnc (setStore s s.enc.bs
            (setBit s.params.w (storeAt s s.enc.bs) s.enc.cursor)), ?_, ?_, hadv'⟩
          · simp [writeBit, hadv', writeSet, hcond]
          · have hst : storeAt (advanceEnc (setStore s s.enc.bs
                (setBit s.params.w (storeAt s s.enc.bs) s.enc.cursor))) s.enc.bs
                = setBit s.params.w (storeAt s s.enc.bs) s.enc.cursor :=
              storeAt_setStore_same _ _ _ hbs
            refine ⟨⟨rfl, rfl, rfl, rfl, rfl, rfl, by simp, ?_⟩, rfl, rfl, ?_, ?_, ?_, ?_⟩
            · intro g hg
              exact storeAt_setStore_other _ _ _ hg
            · intro i
              rw [overlay_cons, overlay_nil]
              simp only [bitAt, hst]
              exact testBit_setBit hw.1 hw.2 _ _ _
            · rw [hst, wordCount_setBit]; omega
            · intro j hj _
              have : j = 0 := by simpa using hj
              subst this
              rw [hst, wordCount_setBit, Nat.add_zero]; omega
            · rw [hst, wordCount_setBit]
              by_cases hle : s.enc.cursor / s.params.w + 1 ≤ (storeAt s s.enc.bs).wordCount
              · exact .inl (Nat.max_eq_left hle)
              · refine .inr ⟨0, by simp, by simp, ?_⟩
                rw [Nat.add_zero]
                exact Nat.max_eq_right (by omega)
        · have hcond : (storeAt s s.enc.bs).wordCount ≤ wordIndex s.params.w s.enc.cursor ∧
              wordsAllowed s.params (wordIndex s.params.w s.enc.cursor + 1) = false := by
            unfold OneFits at hfit
            unfold wordIndex
            rw [not_or] at hfit
            exact ⟨by omega, by simpa using hfit.2⟩
          refine .inr (.inr ⟨rfl, hadv', hfit, ?_⟩)
          simp only [writeBit, hadv', writeSet, if_pos hcond]
          rfl

/-! ### Runs of primitive writes -/

theorem writeBits_append (xs ys : List Bool) (s : State) :
    writeBits (xs ++ ys) s = andThen (writeBits xs s) fun _ t => writeBits ys t := by
  induction xs generalizing s with
  | nil => rfl
  | cons x xs ih =>
      simp only [List.cons_append, writeBits, andThen_assoc, ih]

/-- The codewords of blocks are one run of primitive writes. -/
theorem writeBlocks_eq (bs : List Block) (s : State) :
    writeBlocks bs s = writeBits (bs.flatMap codewordBits) s := by
  induction bs generalizing s with
  | nil => rfl
  | cons b bs ih =>
      simp only [writeBlocks, List.flatMap_cons, writeBits_append, ih]

theorem writeBlocks_append (xs ys : List Block) (s : State) :
    writeBlocks (xs ++ ys) s = andThen (writeBlocks xs s) fun _ t => writeBlocks ys t := by
  simp only [writeBlocks_eq, List.flatMap_append, writeBits_append]

/-- Why the write of `bits` stops at bit `n`, in the state `t` reached: the cursor is at the top, or bit `n` is a 1 that does
not fit. -/
def StopsAt (bits : List Bool) (n : Nat) (t : State) (f : FaultReport) : Prop :=
  (f = .cursorOverflow .encoder ∧ CursorAtTop t.params t.enc.cursor) ∨
  (bits.getD n false = true ∧ canAdvance t.params t.enc.cursor = true ∧
    ¬ OneFits t.params (storeAt t t.enc.bs).wordCount t.enc.cursor ∧
    f = .allocationFailed t.enc.bs (t.enc.cursor / t.params.w + 1))

/-- Everything a run of primitive writes can do: it wrote all its bits, or it stopped at bit `n` with the bits before it
written and nothing else changed (42_encoder.md R119). -/
theorem writeBits_cases (bits : List Bool) (s : State) (hbs : s.enc.bs < s.stores.length) :
    (∃ t, writeBits bits s = .done () t ∧ Wrote bits s t) ∨
    (∃ n f t, n < bits.length ∧ writeBits bits s = .faulted f t ∧ Wrote (bits.take n) s t ∧
      StopsAt bits n t f) := by
  induction bits generalizing s with
  | nil => exact .inl ⟨s, rfl, Wrote.nil s⟩
  | cons b bs ih =>
      rcases writeBit_cases b s hbs with ⟨t, ht, hwrote, _⟩ | ⟨hf, hadv⟩ | ⟨hb, hadv, hfit, hf⟩
      · have hbs' : t.enc.bs < t.stores.length := by
          rw [hwrote.frame.2.2.2.2.2.1, hwrote.frame.2.2.2.2.2.2.1]; exact hbs
        rcases ih t hbs' with ⟨u, hu, hwu⟩ | ⟨n, f, u, hn, hu, hwu, hstop⟩
        · exact .inl ⟨u, by simp [writeBits, ht, hu], hwrote.trans hwu⟩
        · refine .inr ⟨n + 1, f, u, by simpa using hn, by simp [writeBits, ht, hu], ?_, ?_⟩
          · rw [List.take_succ_cons]
            exact hwrote.trans hwu
          · simpa [StopsAt] using hstop
      · refine .inr ⟨0, _, s, by simp, by simp [writeBits, hf], Wrote.nil s, .inl ⟨rfl, ?_⟩⟩
        exact (atTop_iff _ _).mpr hadv
      · exact .inr ⟨0, _, s, by simp, by simp [writeBits, hf], Wrote.nil s,
          .inr ⟨by simpa using hb, hadv, hfit, rfl⟩⟩

/-- A run of primitive writes completes where the cursor has room and every 1 fits. -/
theorem writeBits_completes (bits : List Bool) (s : State) (hbs : s.enc.bs < s.stores.length)
    (hroom : CursorRoom s.params s.enc.cursor bits.length)
    (hones : OnesFit s.params (storeAt s s.enc.bs).wordCount s.enc.cursor bits) :
    ∃ t, writeBits bits s = .done () t ∧ Wrote bits s t := by
  rcases writeBits_cases bits s hbs with h | ⟨n, f, t, hn, _, hw, hstop⟩
  · exact h
  · exfalso
    have hp : t.params = s.params := hw.frame.1
    have hb : t.enc.bs = s.enc.bs := hw.frame.2.2.2.2.2.1
    have hc : t.enc.cursor = s.enc.cursor + n := by
      rw [hw.enc, List.length_take, Nat.min_eq_left (by omega)]
    rcases hstop with ⟨_, htop⟩ | ⟨hone, _, hfit, _⟩
    · rw [hp, hc] at htop
      obtain ⟨iw, hiw, hle⟩ := htop
      have := hroom iw hiw
      omega
    · apply hfit
      rw [hp, hb, hc]
      rcases hones n hn hone with h | h
      · exact .inl (Nat.lt_of_lt_of_le h hw.grows)
      · exact .inr h

/-! ### The primitive read -/

theorem readOne_done {s : State} (h : canAdvance s.params s.dec.cursor = true) :
    readOne s = .done (bitAt s s.dec.bs s.dec.cursor) (advanceDec s) := by
  simp [readOne, h]

theorem readOne_top {s : State} (h : canAdvance s.params s.dec.cursor = false) :
    readOne s = .faulted (.cursorOverflow .decoder) s := by
  simp [readOne, h]

/-- The state with the decoder's cursor `n` further. -/
def advanceDecBy (n : Nat) (s : State) : State :=
  { s with dec := { s.dec with cursor := s.dec.cursor + n } }

@[simp] theorem advanceDecBy_zero (s : State) : advanceDecBy 0 s = s := rfl

theorem advanceDecBy_advanceDec (n : Nat) (s : State) :
    advanceDecBy n (advanceDec s) = advanceDecBy (n + 1) s := by
  simp only [advanceDecBy, advanceDec, Nat.add_assoc, Nat.add_comm 1 n]

theorem advanceDecBy_add (m n : Nat) (s : State) :
    advanceDecBy m (advanceDecBy n s) = advanceDecBy (n + m) s := by
  simp only [advanceDecBy, Nat.add_assoc]

@[simp] theorem bitAt_advanceDecBy (n : Nat) (s : State) (h i : Nat) :
    bitAt (advanceDecBy n s) h i = bitAt s h i := rfl

/-- Reading past `n` bits completes `n` further, or stops at the top of the cursor's range. -/
theorem skipBits_completes (n : Nat) (s : State) (h : CursorRoom s.params s.dec.cursor n) :
    skipBits n s = .done () (advanceDecBy n s) := by
  induction n generalizing s with
  | zero => rfl
  | succ n ih =>
      simp only [skipBits, readOne_done (canAdvance_of_room h), andThen_done]
      rw [ih (advanceDec s) (room_succ h), advanceDecBy_advanceDec]

/-- The value shifted in by reading `n` bits on from `v`. -/
def shiftIn (s : State) : Nat → Nat → Block → Block
  | _, 0, v => v
  | c, n + 1, v =>
      shiftIn s (c + 1) n
        ((v <<< 1) ||| (BitVec.ofBool (bitAt s s.dec.bs c)).setWidth 32)

theorem shiftIn_congr {s t : State} (hb : ∀ c, bitAt s s.dec.bs c = bitAt t t.dec.bs c)
    (c n : Nat) (v : Block) : shiftIn s c n v = shiftIn t c n v := by
  induction n generalizing c v with
  | zero => rfl
  | succ n ih => simp only [shiftIn, hb, ih]

theorem readLiteral_completes (n : Nat) (v : Block) (s : State)
    (h : CursorRoom s.params s.dec.cursor n) :
    readLiteral n v s = .done (shiftIn s s.dec.cursor n v) (advanceDecBy n s) := by
  induction n generalizing s v with
  | zero => rfl
  | succ n ih =>
      simp only [readLiteral, readOne_done (canAdvance_of_room h), andThen_done]
      rw [ih _ (advanceDec s) (room_succ h), advanceDecBy_advanceDec]
      simp only [shiftIn, advanceDec_dec]
      rw [shiftIn_congr (s := advanceDec s) (t := s) fun _ => rfl]

/-- Bit `31 − j` of a value shifted in is the `j`-th bit read (44_decoder.md R136), and the bits above come from the
value shifted into. -/
theorem getLsbD_shiftIn (s : State) (c n : Nat) (v : Block) (k : Nat) (hk : k < 32) :
    (shiftIn s c n v).getLsbD k =
      if k < n then bitAt s s.dec.bs (c + (n - 1 - k)) else v.getLsbD (k - n) := by
  induction n generalizing c v with
  | zero => simp [shiftIn]
  | succ n ih =>
      rw [shiftIn, ih]
      by_cases h1 : k < n
      · have h2 : k < n + 1 := by omega
        simp only [h1, h2, if_true]
        congr 1
        omega
      · by_cases h2 : k = n
        · subst h2
          simp
        · have h3 : ¬ k < n + 1 := by omega
          have h4 : k - n ≠ 0 := by omega
          have h5 : k - n < 32 := by omega
          have h6 : k - n - 1 = k - (n + 1) := by omega
          have h7 : ¬ (k - n < 1) := by omega
          simp only [h1, h3, if_false, BitVec.getLsbD_or, BitVec.getLsbD_shiftLeft, h5,
            decide_true, Bool.true_and, h7, decide_false, Bool.not_false, h6,
            BitVec.getLsbD_setWidth]
          rw [BitVec.getLsbD_of_ge (BitVec.ofBool _) (k - n) (by omega)]
          simp

/-- `DEC_BLOCK` where the stream has a 0 at the cursor. -/
theorem readBlock_white {s : State} (hroom : CursorRoom s.params s.dec.cursor 1)
    (h0 : bitAt s s.dec.bs s.dec.cursor = false) :
    readBlock s = .done whiteBlock (advanceDecBy 1 s) := by
  simp only [readBlock, readOne_done (canAdvance_of_room hroom), andThen_done, h0]
  rfl

/-- `DEC_BLOCK` where the stream has `10` at the cursor. -/
theorem readBlock_black {s : State} (hroom : CursorRoom s.params s.dec.cursor 2)
    (h0 : bitAt s s.dec.bs s.dec.cursor = true)
    (h1 : bitAt s s.dec.bs (s.dec.cursor + 1) = false) :
    readBlock s = .done blackBlock (advanceDecBy 2 s) := by
  have h1' : bitAt (advanceDec s) (advanceDec s).dec.bs (advanceDec s).dec.cursor = false := h1
  simp only [readBlock, readOne_done (canAdvance_of_room hroom), andThen_done, h0,
    readOne_done (s := advanceDec s) (canAdvance_of_room (room_succ hroom)), h1']
  rfl

/-- `DEC_BLOCK` where the stream has `11` at the cursor: the next 32 bits (R136). -/
theorem readBlock_literal {s : State} (hroom : CursorRoom s.params s.dec.cursor 34)
    (h0 : bitAt s s.dec.bs s.dec.cursor = true)
    (h1 : bitAt s s.dec.bs (s.dec.cursor + 1) = true) :
    readBlock s = .done (shiftIn s (s.dec.cursor + 2) 32 0) (advanceDecBy 34 s) := by
  have h1' : bitAt (advanceDec s) (advanceDec s).dec.bs (advanceDec s).dec.cursor = true := h1
  simp only [readBlock, readOne_done (canAdvance_of_room hroom), andThen_done, h0,
    readOne_done (s := advanceDec s) (canAdvance_of_room (room_succ hroom)), h1']
  rw [readLiteral_completes 32 0 _ (room_succ (room_succ hroom)), advanceDecBy_advanceDec,
    advanceDecBy_advanceDec]
  rfl

end Sys2Proof.Machine
end

