-- ==== Sys2Proof/Tests/Slice0.lean ====
section
/-! SUPPORT. Tests. Expected values come from 95_test_vectors.md (named `V-…`) or by hand from the rule named; each
test is one step. A `witness_…` theorem shows concrete operands that meet the hypotheses of the obligation of that
name, clause by clause, at a boundary of their range. -/

namespace Sys2Proof.Tests

open Sys2Proof.Machine

/-! ### Small states -/

/-- An instance with its width, pixel order, `MAX_WORDS` and `IW`. -/
def inst (w : WordWidth) (o : PackOrder) (m iw : Option Nat) : Params :=
  { width := w, packOrder := o, maxWords := m, indexBits := iw }

/-- 32-bit words, `P0_MSB`, no limits. -/
def p32 : Params := inst .w32 .p0Msb none none

/-- 64-bit words, `P0_LSB`, no limits. -/
def p64 : Params := inst .w64 .p0Lsb none none

/-- 32-bit words, at most one word a store, no cursor limit. -/
def oneWord : Params := inst .w32 .p0Msb (some 1) none

/-- 32-bit words, cursors of 5 bits. -/
def fiveBits : Params := inst .w32 .p0Msb none (some 5)

/-- Store 0 holds `ws`, store 1 nothing; no session. -/
def held (p : Params) (ws : List Word) : State :=
  { State.resetOf p 2 with stores := [{ words := ws }, Store.empty] }

/-- The same with an encoder session on store 0, its cursor at `c`. -/
def encAt (p : Params) (c : Nat) (ws : List Word) : State :=
  { held p ws with enc := { isOpen := true, bs := 0, cursor := c, fault := none } }

/-- The same with a decoder session on store 0, its cursor at `c`. -/
def decAt (p : Params) (c : Nat) (ws : List Word) : State :=
  { held p ws with dec := { isOpen := true, bs := 0, cursor := c, fault := none } }

/-- An encoder session that has faulted. -/
def encFaulted : State :=
  { encAt p32 0 [] with enc := { isOpen := true, bs := 0, cursor := 0, fault := some .cursorOverflow } }

/-- A decoder session that has faulted. -/
def decFaulted : State :=
  { decAt p32 0 [] with dec := { isOpen := true, bs := 0, cursor := 0, fault := some .cursorOverflow } }

/-- The next state of an outcome. -/
def nextOf (o : Host.Outcome State Fault Refusal) : Option State :=
  match o with
  | .next t => some t
  | .fault _ => none
  | .refused _ => none

/-- The refusal of an outcome. -/
def refusalOf (o : Host.Outcome State Fault Refusal) : Option Refusal :=
  match o with
  | .next _ => none
  | .fault _ => none
  | .refused r => some r

/-- What an instruction answers. -/
def answers (i : Instr) (s : State) : Option Response := (nextOf (exec i s)).map fun t => t.response

/-- Store 0 after an instruction. -/
def store0 (i : Instr) (s : State) : Option (List Word) :=
  (nextOf (exec i s)).map fun t => (storeAt t 0).words

/-- The encoder's cursor after an instruction. -/
def encCursorAfter (i : Instr) (s : State) : Option Nat :=
  (nextOf (exec i s)).map fun t => t.enc.cursor

/-- The decoder's cursor after an instruction. -/
def decCursorAfter (i : Instr) (s : State) : Option Nat :=
  (nextOf (exec i s)).map fun t => t.dec.cursor

/-! ### Well-formedness: one ill-formed term for each check -/

theorem test_wf_index_too_wide : wellFormed fiveBits (.bsTest 0 32) = false := by decide
theorem test_wf_set_index_too_wide : wellFormed fiveBits (.bsSet 0 32) = false := by decide
theorem test_wf_clear_index_too_wide : wellFormed fiveBits (.bsClear 0 32) = false := by decide
theorem test_wf_index_at_the_top : wellFormed fiveBits (.bsTest 0 31) = true := by decide
theorem test_wf_word_too_wide :
    wellFormed p32 (.bsLoadWord .loader 0 0 0x100000000) = false := by decide
theorem test_wf_word_widest :
    wellFormed p32 (.bsLoadWord .loader 0 0 0xFFFFFFFF) = true := by decide

/-! ### Decoding: transactions and codewords written out bit by bit from R80 and R71 -/

theorem test_decode_store_ops :
    decodeOp p32 { code := 0b00000#5, issuer := .driver, operands := [1, 33] } = .instr (.bsNew 1 33) ∧
    decodeOp p32 { code := 0b00001#5, issuer := .driver, operands := [1, 7] } = .instr (.bsTest 1 7) ∧
    decodeOp p32 { code := 0b00010#5, issuer := .driver, operands := [1, 7] } = .instr (.bsSet 1 7) ∧
    decodeOp p32 { code := 0b00011#5, issuer := .driver, operands := [1, 7] } = .instr (.bsClear 1 7) ∧
    decodeOp p32 { code := 0b00100#5, issuer := .driver, operands := [1, 2] } = .instr (.bsWord 1 2) ∧
    decodeOp p32 { code := 0b00101#5, issuer := .driver, operands := [1] } = .instr (.bsWordCount 1) := by
  decide

theorem test_decode_loader_ops :
    decodeOp p32 { code := 0b00110#5, issuer := .loader, operands := [1, 3] }
      = .instr (.bsResize .loader 1 3) ∧
    decodeOp p32 { code := 0b00111#5, issuer := .loader, operands := [1, 3, 0xBDEADBEE] }
      = .instr (.bsLoadWord .loader 1 3 0xBDEADBEE) := by decide

theorem test_decode_pixel_ops :
    decodeOp p32 { code := 0b01000#5, issuer := .driver, operands := [0xDE, 0xAD, 0xBE, 0xEF] }
      = .instr (.combine 0xDE 0xAD 0xBE 0xEF) ∧
    decodeOp p32 { code := 0b01001#5, issuer := .driver, operands := [0xDEADBEEF] }
      = .instr (.split 0xDEADBEEF) := by decide

theorem test_decode_encoder_ops :
    decodeOp p32 { code := 0b01010#5, issuer := .driver, operands := [1] } = .instr (.encOpen 1) ∧
    decodeOp p32 { code := 0b01011#5, issuer := .driver, operands := [] } = .instr .write0 ∧
    decodeOp p32 { code := 0b01100#5, issuer := .driver, operands := [] } = .instr .write1 ∧
    decodeOp p32 { code := 0b01101#5, issuer := .driver, operands := [] } = .instr .encCursor ∧
    decodeOp p32 { code := 0b01110#5, issuer := .driver, operands := [] } = .instr .encClose ∧
    decodeOp p32 { code := 0b01111#5, issuer := .driver, operands := [0x01010101] }
      = .instr (.encBlock 0x01010101) ∧
    decodeOp p32 { code := 0b10000#5, issuer := .driver, operands := [0xFF, 0x00, 0x7F] }
      = .instr (.encode [0xFF, 0x00, 0x7F]) := by decide

theorem test_decode_decoder_ops :
    decodeOp p32 { code := 0b10001#5, issuer := .driver, operands := [1] } = .instr (.decOpen 1) ∧
    decodeOp p32 { code := 0b10010#5, issuer := .driver, operands := [] } = .instr .readBit ∧
    decodeOp p32 { code := 0b10011#5, issuer := .driver, operands := [] } = .instr .decCursor ∧
    decodeOp p32 { code := 0b10100#5, issuer := .driver, operands := [] } = .instr .decClose ∧
    decodeOp p32 { code := 0b10101#5, issuer := .driver, operands := [] } = .instr .decBlock ∧
    decodeOp p32 { code := 0b10110#5, issuer := .driver, operands := [12] } = .instr (.decode 12) := by
  decide

theorem test_decode_codewords :
    decode p32 (.stream [false]) = .instr .cwWhite ∧
    decode p32 (.stream [true, false]) = .instr .cwBlack ∧
    decode p32 (.stream
      [true, true,
       true, true, false, true, true, true, true, false,
       true, false, true, false, true, true, false, true,
       true, false, true, true, true, true, true, false,
       true, true, true, false, true, true, true, true]) = .instr (.cwLiteral 0xDEADBEEF) := by decide

theorem test_decode_reserved :
    decodeOp p32 { code := 0b10111#5, issuer := .driver, operands := [] } = .rejected (.reservedCode 0x17) ∧
    decodeOp p32 { code := 0b11111#5, issuer := .driver, operands := [] } = .rejected (.reservedCode 0x1F) := by
  decide

theorem test_decode_width_refused :
    decodeOp fiveBits { code := 0x01, issuer := .driver, operands := [0, 32] }
      = .rejected (.operandWidth 0x01) ∧
    decodeOp p32 { code := 0x07, issuer := .loader, operands := [0, 0, 0x100000000] }
      = .rejected (.operandWidth 0x07) ∧
    decodeOp p32 { code := 0x10, issuer := .driver, operands := [0x00, 0x100] }
      = .rejected (.operandWidth 0x10) ∧
    decodeOp p32 { code := 0x0F, issuer := .driver, operands := [0x100000000] }
      = .rejected (.operandWidth 0x0F) := by decide

theorem test_decode_shape_refused :
    decodeOp p32 { code := 0x0B, issuer := .driver, operands := [0] } = .rejected (.operandCount 0x0B) ∧
    decode p32 (.stream [true]) = .rejected .truncatedCodeword ∧
    decode p32 (.stream [false, false]) = .rejected .trailingBits := by decide

/-! ### The store -/

/-- V-M1: 33 bits are two words of 32. -/
theorem test_bsNew_rounds_up :
    store0 (.bsNew 0 33) (held p32 [5]) = some [0, 0] := by decide
/-- V-M1: over `MAX_WORDS` it faults. -/
theorem test_bsNew_over_max :
    answers (.bsNew 0 33) (held oneWord [5]) = some (.faulted (.allocationFailed 0 2)) := by decide
/-- V-M3: index 36. -/
theorem test_bsTest_second_word :
    answers (.bsTest 0 36) (held p32 [0x58080808, 0x08000000]) = some (.bit true) := by decide
/-- V-M3: index 64 lies beyond capacity. -/
theorem test_bsTest_past_end :
    answers (.bsTest 0 64) (held p32 [0x58080808, 0xFFFFFFFF]) = some (.bit false) := by decide
/-- V-M2 on W=32. -/
theorem test_bsSet_grows :
    store0 (.bsSet 0 100) (held p32 []) = some [0, 0, 0, 0x08000000] := by decide
/-- V-M2 on W=64. -/
theorem test_bsSet_grows_64 :
    store0 (.bsSet 0 100) (held p64 []) = some [0, 0x0000000008000000] := by decide
/-- V-M4. -/
theorem test_bsClear_one_bit :
    store0 (.bsClear 0 5) (held p64 [0xFFFFFFFFFFFFFFFF]) = some [0xFBFFFFFFFFFFFFFF] := by decide
/-- V-M4: past capacity nothing changes. -/
theorem test_bsClear_past_end :
    store0 (.bsClear 0 200) (held p32 [0xFBFFFFFF]) = some [0xFBFFFFFF] := by decide
/-- P1 step 8. -/
theorem test_bsWord_second :
    answers (.bsWord 0 1) (held p32 [0x58080808, 0x08000000]) = some (.word 0x08000000) := by decide
/-- V-M6: past the view's end. -/
theorem test_bsWord_past_end :
    refusalOf (exec (.bsWord 0 1) (held p32 [0])) = some .wordIndex := by decide
/-- P1 step 6. -/
theorem test_bsWordCount :
    answers (.bsWordCount 0) (held p32 [0x58080808, 0x08000000]) = some (.natural 2) := by decide
/-- R51: the old words stay and the count is the one asked for; the new words are free, so nothing is said of them. -/
theorem test_bsResize_count :
    (store0 (.bsResize .loader 0 3) (held p32 [7])).map (fun ws => (ws.length, ws.take 1))
      = some (3, [7]) := by decide
/-- V-M6: shrinking is refused. -/
theorem test_bsResize_shrink :
    refusalOf (exec (.bsResize .loader 0 0) (held p32 [7])) = some .shrink := by decide
/-- V-M6. -/
theorem test_bsLoadWord :
    store0 (.bsLoadWord .loader 0 0 0xBDEADBEEF0000000) (held p64 [1])
      = some [0xBDEADBEEF0000000] := by decide
/-- R194 g. -/
theorem test_bsLoadWord_driver :
    refusalOf (exec (.bsLoadWord .driver 0 0 1) (held p64 [1])) = some .notLoader := by decide

/-! ### Packer and unpacker -/

/-- V-P1 under both orders. -/
theorem test_combine :
    answers (.combine 0xDE 0xAD 0xBE 0xEF) (held p32 []) = some (.block 0xDEADBEEF) ∧
    answers (.combine 0xDE 0xAD 0xBE 0xEF) (held p64 []) = some (.block 0xEFBEADDE) := by decide
/-- V-P2 under both orders. -/
theorem test_split :
    answers (.split 0x000000FF) (held p32 []) = some (.pixels [0x00, 0x00, 0x00, 0xFF]) ∧
    answers (.split 0x000000FF) (held p64 []) = some (.pixels [0xFF, 0x00, 0x00, 0x00]) := by decide

/-! ### The encoder -/

/-- V-W1. -/
theorem test_encOpen :
    (nextOf (exec (.encOpen 0) (held p32 [3]))).map (fun t => t.enc)
      = some { isOpen := true, bs := 0, cursor := 0, fault := none } := by decide
/-- R60 b: the decoder's store. -/
theorem test_encOpen_borrowed :
    refusalOf (exec (.encOpen 0) (decAt p32 0 [])) = some .borrowedByDecoder := by decide
/-- V-W4. -/
theorem test_write0_overwrites :
    store0 .write0 (encAt p32 0 [0xFFFFFFFF]) = some [0x7FFFFFFF] := by decide
/-- V-W2: past capacity nothing is stored, and the cursor moves. -/
theorem test_write0_past_end :
    store0 .write0 (encAt p32 2 []) = some [] ∧ encCursorAfter .write0 (encAt p32 2 []) = some 3 := by
  decide
/-- V-W3. -/
theorem test_write1_grows_exactly :
    store0 .write1 (encAt p32 36 []) = some [0, 0x08000000] := by decide
/-- V-F6: `CursorOverflow` comes first. -/
theorem test_write1_both_faults :
    answers .write1 (encAt (inst .w32 .p0Msb (some 0) (some 5)) 31 [])
      = some (.faulted (.cursorOverflow .encoder)) := by decide
/-- V-F1's status read, and R29: it is answered on a faulted session. -/
theorem test_encCursor_faulted :
    answers .encCursor encFaulted = some (.status 0 (some .cursorOverflow)) := by decide
/-- R103: the cursor and the fault keep their values. -/
theorem test_encClose_keeps :
    (nextOf (exec .encClose encFaulted)).map (fun t => t.enc)
      = some { isOpen := false, bs := 0, cursor := 0, fault := some .cursorOverflow } := by decide
/-- V-E11 after `0 10` (V-S1): the literal straddles the word boundary. -/
theorem test_encBlock_literal :
    store0 (.encBlock 0x01010101) (encAt p32 3 [0x40000000]) = some [0x58080808, 0x08000000] := by
  decide
/-- R110: WhiteBlock is one bit. -/
theorem test_encBlock_white :
    encCursorAfter (.encBlock 0xFFFFFFFF) (encAt p32 7 []) = some 8 := by decide
/-- V-E9 under `P0_MSB`: the tail is padded with Black. -/
theorem test_encode_tail :
    store0 (.encode [0x12, 0x34, 0x56]) (encAt p32 0 []) = some [0xC48D1580] ∧
    encCursorAfter (.encode [0x12, 0x34, 0x56]) (encAt p32 0 []) = some 34 := by decide
/-- V-F1: the fault keeps the bits before it. -/
theorem test_encode_fault :
    store0 (.encode [0xDE, 0xAD, 0xBE, 0xEF]) (encAt oneWord 0 []) = some [0xF7AB6FBB] ∧
    answers (.encode [0xDE, 0xAD, 0xBE, 0xEF]) (encAt oneWord 0 [])
      = some (.faulted (.allocationFailed 0 2)) ∧
    encCursorAfter (.encode [0xDE, 0xAD, 0xBE, 0xEF]) (encAt oneWord 0 []) = some 32 := by decide

/-! ### The decoder -/

/-- R125. -/
theorem test_decOpen :
    (nextOf (exec (.decOpen 0) (held p32 [3]))).map (fun t => t.dec)
      = some { isOpen := true, bs := 0, cursor := 0, fault := none } := by decide
/-- 95_test_vectors.md 2.8: `ENC_OPEN(0)`; `DEC_OPEN(0)`. -/
theorem test_decOpen_borrowed :
    refusalOf (exec (.decOpen 0) (encAt p32 0 [])) = some .borrowedByEncoder := by decide
/-- V-R3: the last bit of the store. -/
theorem test_readBit_last :
    answers .readBit (decAt p32 31 [0x00000001]) = some (.bit true) := by decide
/-- V-R3: beyond it. -/
theorem test_readBit_past_end :
    answers .readBit (decAt p32 32 [0x00000001]) = some (.bit false) ∧
    decCursorAfter .readBit (decAt p32 32 [0x00000001]) = some 33 := by decide
/-- R128 on a faulted session. -/
theorem test_decCursor_faulted :
    answers .decCursor decFaulted = some (.status 0 (some .cursorOverflow)) := by decide
/-- R127. -/
theorem test_decClose :
    (nextOf (exec .decClose (decAt p32 9 []))).map (fun t => t.dec)
      = some { isOpen := false, bs := 0, cursor := 9, fault := none } := by decide
/-- V-D5. -/
theorem test_decBlock_literal :
    answers .decBlock (decAt p32 3 [0x58080808, 0x08000000]) = some (.block 0x01010101) ∧
    decCursorAfter .decBlock (decAt p32 3 [0x58080808, 0x08000000]) = some 37 := by decide
/-- V-D5 from cursor 1: a black block, two bits. -/
theorem test_decBlock_black :
    answers .decBlock (decAt p32 1 [0x58080808, 0x08000000]) = some (.block 0x00000000) ∧
    decCursorAfter .decBlock (decAt p32 1 [0x58080808, 0x08000000]) = some 3 := by decide
/-- V-D2: the whole literal is consumed for one pixel. -/
theorem test_decode_tail :
    answers (.decode 9) (decAt p32 0 [0x58080808, 0x08000000])
      = some (.pixels [0xFF, 0xFF, 0xFF, 0xFF, 0x00, 0x00, 0x00, 0x00, 0x01]) ∧
    decCursorAfter (.decode 9) (decAt p32 0 [0x58080808, 0x08000000]) = some 37 := ⟨rfl, rfl⟩
/-- V-D7 under `P0_MSB`: a truncated literal reads zeros. -/
theorem test_decode_truncated :
    answers (.decode 4) (decAt p32 0 [0xF7AB6FBB])
      = some (.pixels [0xDE, 0xAD, 0xBE, 0xEC]) := by decide
/-- R71. -/
theorem test_cwWhite :
    answers .cwWhite (decAt p32 4 []) = some (.block 0xFFFFFFFF) ∧
    decCursorAfter .cwWhite (decAt p32 4 []) = some 5 := by decide
/-- R71. -/
theorem test_cwBlack :
    answers .cwBlack (decAt p32 4 []) = some (.block 0x00000000) ∧
    decCursorAfter .cwBlack (decAt p32 4 []) = some 6 := by decide
/-- R76: a white literal is accepted. -/
theorem test_cwLiteral_white :
    answers (.cwLiteral 0xFFFFFFFF) (decAt p32 4 []) = some (.block 0xFFFFFFFF) ∧
    decCursorAfter (.cwLiteral 0xFFFFFFFF) (decAt p32 4 []) = some 38 := by decide

/-! ### The step -/

/-- Nothing presented: no step (R14). -/
theorem test_step_idle : step State.reset = .fault .noOperation := rfl
/-- R81. -/
theorem test_step_reserved :
    refusalOf (step { State.reset with inputs := [.op { code := 0x17, issuer := .driver, operands := [] }] })
      = some (.undecodable (.reservedCode 0x17)) := by decide
/-- R210 on a session. -/
theorem test_step_reset :
    nextOf (step { encAt p32 9 [3] with inputs := [.reset] }) = some (State.resetOf p32 2) := by decide
/-- The host's probe places a codeword where the next step runs it. -/
theorem test_fetch_codeword :
    (nextOf (step (State.reset.withFetchWord 2 0b10))).map (fun t => t.response)
      = some (.block 0x00000000) := by decide
/-- The host's probe of an operation row. -/
theorem test_table_word :
    decodeTableWord 5 0x0C = some .write1 ∧ decodeTableWord 8 0x0C = some .write1 ∧
    decodeTableWord 1 0 = some .cwWhite ∧ decodeTableWord 2 2 = some .cwBlack ∧
    decodeTableWord 34 0x3DEADBEEF = some (.cwLiteral 0xDEADBEEF) ∧ decodeTableWord 5 0x17 = none := by
  decide

/-- A memory of one word that fits is well formed. -/
theorem one_word_wf (p : Params) (v : Word) (hw : p.w = 32) (hv : v.toNat < 2 ^ 32)
    (h1 : wordsAllowed p 1 = true) : Memory.wf p [{ words := [v] }, Store.empty] := by
  intro st hst
  simp only [List.mem_cons, List.not_mem_nil, or_false] at hst
  obtain rfl | rfl := hst
  · refine ⟨fun x hx => ?_, h1⟩
    rw [List.mem_singleton] at hx
    rw [hx, hw]
    exact hv
  · refine ⟨nofun, ?_⟩
    revert h1
    unfold wordsAllowed
    cases p.maxWords <;> simp [Store.empty, Store.wordCount]

/-! ### Witnesses for the obligations -/

/-- A transaction of an operation without operands. -/
def bare (code : BitVec 5) : Transaction := { code := code, issuer := .driver, operands := [] }

theorem witness_DecodeEncodeAgree :
    wellFormed fiveBits (.bsSet 1 31) = true ∧
    wellFormed p32 (.bsLoadWord .loader 0 0 0xFFFFFFFF) = true ∧
    wellFormed p64 (.cwLiteral 0xFFFFFFFF) = true := by decide

theorem witness_OneTransactionPerInstruction :
    decodeOp fiveBits { code := 0x02, issuer := .loader, operands := [1, 31] }
      = .instr (.bsSet 1 31) ∧
    decodeOp p32 { code := 0x07, issuer := .driver, operands := [0, 0, 0xFFFFFFFF] }
      = .instr (.bsLoadWord .driver 0 0 0xFFFFFFFF) := by decide

theorem witness_NoCodewordBeginsAnother :
    encode .cwBlack = .stream [true, false] ∧ encode .cwBlack = .stream ([true, false] ++ []) ∧
    encode .cwWhite = .stream [false] := by decide

theorem witness_EveryBitStringBeginsWithACodeword : 34 ≤ (List.replicate 34 true).length := by decide

theorem witness_StepRunsTheDecodedInstruction :
    ({ encAt p32 3 [] with inputs := [.op (bare 0x0C), .reset] } : State).inputs
      = .op (bare 0x0C) :: [.reset] ∧
    decodeOp p32 (bare 0x0C) = .instr .write1 := by decide

theorem witness_ReservedCodesAreRefused :
    ({ held p32 [] with inputs := [.op (bare 0x17)] } : State).inputs = .op (bare 0x17) :: [] ∧
    0x17 ≤ (bare 0x17).code.toNat ∧ 0x17 ≤ (bare 0x1F).code.toNat := by decide

theorem witness_ResetMayBeAppliedAtAnyTime :
    ({ encFaulted with inputs := [.reset, .op (bare 0x0C)] } : State).inputs
      = .reset :: [.op (bare 0x0C)] := by decide

theorem witness_ResetMeetsTheInvariant : 1 ≤ 1 := by decide

theorem witness_StepKeepsTheInvariant :
    Inv { encAt oneWord 31 [0xFFFFFFFF] with inputs := [.op (bare 0x0C)] } ∧
    ∃ t, step { encAt oneWord 31 [0xFFFFFFFF] with inputs := [.op (bare 0x0C)] } = .next t :=
  ⟨⟨one_word_wf oneWord 0xFFFFFFFF rfl (by decide) rfl, by decide⟩, _, rfl⟩

theorem witness_BsNewMakesZeroWords :
    (HostMayWrite 1 (held oneWord [5]) ∧ wordsAllowed oneWord ((32 + oneWord.w - 1) / oneWord.w) = true) ∧
    (HostMayWrite 0 (held oneWord [5]) ∧ wordsAllowed oneWord ((33 + oneWord.w - 1) / oneWord.w) = false) ∧
    ¬ HostMayWrite 0 (decAt p32 0 []) ∧ ¬ HostMayWrite 2 (held p32 []) := by decide

theorem witness_BsTestReadsLeniently :
    (HostMayRead 0 (decAt p32 0 [1]) ∧ (storeAt (decAt p32 0 [1]) 0).wordCount ≤ 32 / p32.w) ∧
    (HostMayRead 0 (held p32 [1]) ∧ 31 / p32.w < (storeAt (held p32 [1]) 0).wordCount) ∧
    ((encAt p32 0 [1]).enc.isOpen = true ∧ (encAt p32 0 [1]).enc.bs = 0) := by decide

theorem witness_BsSetSetsOneBit :
    (HostMayWrite 0 (held oneWord []) ∧
      OneFits oneWord (storeAt (held oneWord []) 0).wordCount 31) ∧
    (HostMayWrite 0 (held oneWord []) ∧
      ¬ OneFits oneWord (storeAt (held oneWord []) 0).wordCount 32) ∧
    ¬ HostMayWrite 0 (encAt p32 0 []) := by decide

theorem witness_BsClearClearsOneBit :
    HostMayWrite 1 (encAt p32 0 [1]) ∧ (storeAt (held p32 [1]) 0).wordCount ≤ 32 / p32.w ∧
    ¬ HostMayWrite 0 (encAt p32 0 [1]) := by decide

theorem witness_BsWordReadsAWord :
    (HostMayRead 0 (held p32 [1, 2]) ∧ 1 < (storeAt (held p32 [1, 2]) 0).words.length) ∧
    (storeAt (held p32 [1, 2]) 0).wordCount ≤ 2 ∧ ¬ HostMayRead 0 (encAt p32 0 [1]) := by decide

theorem witness_BsWordCountCountsWords :
    HostMayRead 1 (held p32 []) ∧
    ((encAt p32 0 []).enc.isOpen = true ∧ (encAt p32 0 []).enc.bs = 0) := by decide

theorem witness_BsResizeAddsWordsOfAnyValue :
    (HostMayWrite 0 (held oneWord []) ∧ (storeAt (held oneWord []) 0).wordCount ≤ 1 ∧
      wordsAllowed oneWord 1 = true) ∧
    (HostMayWrite 0 (held oneWord []) ∧ (storeAt (held oneWord []) 0).wordCount ≤ 2 ∧
      wordsAllowed oneWord 2 = false) ∧
    0 < (storeAt (held oneWord [7]) 0).wordCount ∧ ¬ HostMayWrite 0 (decAt p32 0 []) := by decide

theorem witness_BsLoadWordStoresAWord :
    (HostMayWrite 0 (held p32 [1, 2]) ∧ 1 < (storeAt (held p32 [1, 2]) 0).wordCount) ∧
    (storeAt (held p32 [1, 2]) 0).wordCount ≤ 2 ∧ ¬ HostMayWrite 0 (decAt p32 0 []) := by decide

theorem witness_BorrowDiscipline :
    ((encAt p32 0 []).enc.isOpen = true ∧ (encAt p32 0 []).enc.bs = 0) ∧
    ((decAt p32 0 []).dec.isOpen = true ∧ (decAt p32 0 []).dec.bs = 0 ∧
      HostMayRead 0 (decAt p32 0 [])) ∧
    HostMayWrite 1 (encAt p32 0 []) := by decide

theorem witness_RefusedUses :
    (held p32 []).enc.isOpen = false ∧ (held p32 []).dec.isOpen = false ∧
    (encAt p32 0 []).enc.isOpen = true ∧ (decAt p32 0 []).dec.isOpen = true ∧
    encFaulted.enc.fault ≠ none ∧ decFaulted.dec.fault ≠ none ∧
    (storeAt (held p32 [1]) 0).wordCount ≤ 1 ∧ 0 < (storeAt (held p32 [1]) 0).wordCount ∧
    (held p32 []).stores.length ≤ 2 := by decide

theorem witness_CombineUnderP0Msb : (held p32 []).params.packOrder = .p0Msb := by decide

theorem witness_CombineUnderP0Lsb : (held p64 []).params.packOrder = .p0Lsb := by decide

theorem witness_SplitOrdersPixels :
    (decAt p32 3 [1]).params.packOrder = .p0Msb ∧ (encAt p64 3 [1]).params.packOrder = .p0Lsb := by decide

theorem witness_UniformBlocksIgnoreOrder : (0x12 : Pixel) = 0x12 ∧ (0x34 : Pixel) = 0x34 := by decide

theorem witness_MixedOrdersReverse :
    (held p32 []).params.packOrder ≠ (held p64 []).params.packOrder := by decide

theorem witness_EncOpenStartsASession :
    ((held p32 []).enc.isOpen = false ∧ 1 < (held p32 []).stores.length ∧
      ¬ ((decAt p32 0 []).dec.isOpen = true ∧ (decAt p32 0 []).dec.bs = 1)) ∧
    (encAt p32 0 []).enc.isOpen = true ∧ (held p32 []).stores.length ≤ 2 ∧
    ((decAt p32 0 []).dec.isOpen = true ∧ (decAt p32 0 []).dec.bs = 0) := by decide

theorem witness_WriteZeroClearsAndAdvances :
    (EncReady (encAt fiveBits 30 []) ∧ CursorRoom fiveBits (encAt fiveBits 30 []).enc.cursor 1) ∧
    (EncReady (encAt fiveBits 31 []) ∧ CursorLast fiveBits (encAt fiveBits 31 []).enc.cursor) ∧
    (held p32 []).enc.isOpen = false ∧ encFaulted.enc.fault ≠ none := by decide

theorem witness_WriteOneSetsAndAdvances :
    (EncReady (encAt oneWord 31 []) ∧ CursorRoom oneWord 31 1 ∧ OneFits oneWord 0 31) ∧
    (EncReady (encAt fiveBits 31 []) ∧ CursorLast fiveBits 31) ∧
    (EncReady (encAt oneWord 32 []) ∧ CursorRoom oneWord 32 1 ∧ ¬ OneFits oneWord 0 32) ∧
    (held p32 []).enc.isOpen = false ∧ encFaulted.enc.fault ≠ none := by decide

theorem witness_EncCloseEndsTheSession :
    encFaulted.enc.isOpen = true ∧ (held p32 []).enc.isOpen = false := by decide

theorem witness_EncCursorReadsStatus :
    encFaulted.enc.isOpen = true ∧ (decAt p32 0 []).enc.isOpen = false := by decide

theorem witness_EncBlockWritesOneCodeword :
    (EncReady (encAt (inst .w32 .p0Msb (some 2) (some 6)) 29 []) ∧
      CursorRoom (inst .w32 .p0Msb (some 2) (some 6)) 29 (blockCost 0xFFFFFFFE) ∧
      OnesFit (inst .w32 .p0Msb (some 2) (some 6)) 0 29 (codewordBits 0xFFFFFFFE)) ∧
    (CursorRoom fiveBits 30 (blockCost 0xFFFFFFFF) ∧
      OnesFit fiveBits 0 30 (codewordBits 0xFFFFFFFF)) ∧
    (CursorRoom fiveBits 29 (blockCost 0) ∧ OnesFit fiveBits 0 29 (codewordBits 0)) ∧
    encFaulted.enc.fault ≠ none := by decide

theorem witness_EncodeRunsItsBlocksInOrder :
    EncReady (encAt oneWord 0 []) ∧ (held p32 []).enc.isOpen = false ∧
    ∃ m, exec (.encBlock (packPixels .p0Msb 1 2 3 4)) (encAt oneWord 0 []) = .next m :=
  ⟨by decide, by decide, _, rfl⟩

theorem witness_EncodeWritesItsStream :
    EncReady (encAt fiveBits 29 []) ∧
    CursorRoom fiveBits 29 (streamOf .p0Msb [0x00, 0x00, 0x00]).length ∧
    OnesFit fiveBits 0 29 (streamOf .p0Msb [0x00, 0x00, 0x00]) := by decide

theorem witness_EncodeCallsConcatenate :
    ([0, 0, 0, 0] : List Pixel).length % 4 = 0 ∧
    ∃ m, exec (.encode [0, 0, 0, 0]) (encAt oneWord 0 []) = .next m ∧ m.enc.fault = none :=
  ⟨by decide, _, rfl, rfl⟩

theorem witness_CodingFaultKeepsWrittenBits :
    EncReady (encAt oneWord 31 []) ∧ indexFits oneWord 31 = true ∧
    ∃ t, exec (.encBlock 0xFF000000) (encAt oneWord 31 []) = .next t ∧ t.enc.fault ≠ none :=
  ⟨by decide, rfl, _, rfl, by decide⟩

theorem witness_WordCountFollowsTheHighestOne :
    EncReady (encAt p32 31 []) ∧
    (∃ t, exec (.encode [0, 0, 0, 0]) (encAt p32 31 []) = .next t ∧ t.enc.fault = none) ∧
    (0 < (streamOf .p0Msb [0, 0, 0, 0]).length ∧
      (streamOf .p0Msb [0, 0, 0, 0]).getD 0 false = true ∧
      ∀ j < (streamOf .p0Msb [0, 0, 0, 0]).length,
        (streamOf .p0Msb [0, 0, 0, 0]).getD j false = true → j ≤ 0) ∧
    (∀ j < (streamOf .p0Msb [0xFF, 0xFF, 0xFF, 0xFF]).length,
      (streamOf .p0Msb [0xFF, 0xFF, 0xFF, 0xFF]).getD j false = false) :=
  ⟨by decide, ⟨_, rfl, rfl⟩, by decide, by decide⟩

theorem witness_DecOpenStartsASession :
    ((held p32 []).dec.isOpen = false ∧ 1 < (held p32 []).stores.length ∧
      ¬ ((encAt p32 0 []).enc.isOpen = true ∧ (encAt p32 0 []).enc.bs = 1)) ∧
    (decAt p32 0 []).dec.isOpen = true ∧ (held p32 []).stores.length ≤ 2 ∧
    ((encAt p32 0 []).enc.isOpen = true ∧ (encAt p32 0 []).enc.bs = 0) := by decide

theorem witness_ReadBitReadsAndAdvances :
    (DecReady (decAt fiveBits 30 []) ∧ CursorRoom fiveBits 30 1 ∧
      (storeAt (decAt fiveBits 30 []) 0).wordCount ≤ 30 / fiveBits.w) ∧
    (DecReady (decAt fiveBits 31 []) ∧ CursorLast fiveBits 31) ∧
    (held p32 []).dec.isOpen = false ∧ decFaulted.dec.fault ≠ none := by decide

theorem witness_DecCloseEndsTheSession :
    decFaulted.dec.isOpen = true ∧ (held p32 []).dec.isOpen = false := by decide

theorem witness_DecCursorReadsStatus :
    decFaulted.dec.isOpen = true ∧ (encAt p32 0 []).dec.isOpen = false := by decide

theorem witness_CodewordsAnswerTheirBlocks :
    (DecReady (decAt fiveBits 30 []) ∧ CursorRoom fiveBits 30 1) ∧
    (DecReady (decAt fiveBits 29 []) ∧ CursorRoom fiveBits 29 2) ∧
    (DecReady (decAt (inst .w32 .p0Msb none (some 6)) 29 []) ∧
      CursorRoom (inst .w32 .p0Msb none (some 6)) 29 34) := by decide

theorem witness_DecBlockReadsOneCodeword :
    (DecReady (decAt fiveBits 30 []) ∧ bitAt (decAt fiveBits 30 []) 0 30 = false ∧
      CursorRoom fiveBits 30 (codeLength (decAt fiveBits 30 []))) ∧
    (bitAt (decAt fiveBits 29 [0x4]) 0 29 = true ∧ bitAt (decAt fiveBits 29 [0x4]) 0 30 = false ∧
      CursorRoom fiveBits 29 (codeLength (decAt fiveBits 29 [0x4]))) ∧
    (bitAt (decAt p32 31 [1, 0x80000000]) 0 31 = true ∧
      bitAt (decAt p32 31 [1, 0x80000000]) 0 32 = true) ∧
    CursorRoom p32 31 (codeLength (decAt p32 31 [1, 0x80000000])) ∧
    (DecReady (decAt fiveBits 31 []) ∧ fiveBits.indexBits = some 5 ∧ 31 < 2 ^ 5 ∧
      ¬ CursorRoom fiveBits 31 (codeLength (decAt fiveBits 31 []))) ∧
    decFaulted.dec.fault ≠ none := by decide

theorem witness_DecBlockRunsTheCodewordAtTheCursor :
    CodewordAtCursor (decAt p32 31 [1, 0]) .cwBlack :=
  ⟨[true, false], rfl, by decide⟩

theorem witness_DecodeRunsItsBlocksInOrder :
    DecReady (decAt fiveBits 28 []) ∧
    (∃ m, exec .decBlock (decAt fiveBits 28 []) = .next m ∧ m.response = .block 0xFFFFFFFF ∧
      (∃ u, exec (.decode 3) m = .next u ∧ u.response = .pixels [0xFF, 0xFF, 0xFF]) ∧
      ∃ u, exec (.decode 12) m = .next u ∧ u.dec.fault ≠ none) ∧
    (∃ m, exec .decBlock (decAt fiveBits 31 []) = .next m ∧ m.dec.fault ≠ none) ∧
    (held p32 []).dec.isOpen = false :=
  ⟨by decide, ⟨_, rfl, rfl, ⟨_, rfl, rfl⟩, _, rfl, by decide⟩, ⟨_, rfl, by decide⟩, by decide⟩

theorem witness_DecodeAlwaysCompletes :
    DecReady (decAt (inst .w32 .p0Msb none (some 6)) 29 []) ∧
    CursorRoom (inst .w32 .p0Msb none (some 6)) 29 (34 * ((1 + 3) / 4)) := by decide

theorem witness_DecodePastTheEndGivesWhite :
    DecReady (decAt fiveBits 29 []) ∧ CursorRoom fiveBits 29 ((5 + 3) / 4) ∧
    ∀ i, 29 ≤ i → bitAt (decAt fiveBits 29 []) 0 i = false :=
  ⟨by decide, by decide, fun _ _ => rfl⟩

theorem witness_EncodeThenDecodeRoundTrip :
    (held oneWord []).dec.isOpen = false ∧
    ∃ t rs, runAll [.encOpen 0, .encode [0, 0, 0], .encode [], .encode [0xFF, 0xFF, 0xFF, 0xFF]]
      (held oneWord []) = some (t, rs) ∧ t.enc.fault = none :=
  ⟨rfl, _, _, rfl, rfl⟩

theorem witness_ElementsAreWrittenOnlyByTheirOperations :
    (∃ t, exec .write1 (encAt p32 31 []) = .next t) ∧ writesStores .readBit = false ∧
    (advancesEnc .readBit = false ∧ opensOrClosesEnc .readBit = false) ∧
    (advancesDec .write1 = false ∧ opensOrClosesDec .write1 = false) ∧
    advancesEnc .write1 = true ∧ advancesDec .readBit = true ∧
    1 ≠ (encAt p32 31 []).enc.bs ∧
    (keepsWordCounts (.bsClear 0 31) = true ∧ keepsWordCounts (.bsLoadWord .loader 0 0 1) = true ∧
      keepsWordCounts .write0 = true) ∧
    (∃ t, exec .encClose encFaulted = .next t) ∧ ∃ t, exec .decClose decFaulted = .next t :=
  ⟨⟨_, rfl⟩, by decide, by decide, by decide, rfl, rfl, by decide, by decide, ⟨_, rfl⟩, _, rfl⟩

theorem witness_CursorsOnlyAdvance :
    (∃ t, exec (.encOpen 1) (decAt p32 9 []) = .next t) ∧
    (∃ t, exec (.decOpen 1) (encAt p32 9 []) = .next t) ∧
    (∃ t, exec .write0 (encAt fiveBits 30 []) = .next t) ∧
    (∀ h, Instr.write0 ≠ .encOpen h) ∧ (∀ h, Instr.write0 ≠ .decOpen h) ∧
    advancesEnc .encClose = false ∧ advancesDec .decClose = false :=
  ⟨⟨_, rfl⟩, ⟨_, rfl⟩, ⟨_, rfl⟩, nofun, nofun, rfl, rfl⟩

theorem witness_FaultElementsAreSticky :
    (∃ t, exec .encCursor encFaulted = .next t) ∧ encFaulted.enc.fault = some .cursorOverflow ∧
    (∃ t, exec .decClose decFaulted = .next t) ∧ decFaulted.dec.fault = some .cursorOverflow ∧
    (∀ h, Instr.encCursor ≠ .encOpen h) ∧ (∀ h, Instr.decClose ≠ .decOpen h) :=
  ⟨⟨_, rfl⟩, rfl, ⟨_, rfl⟩, rfl, nofun, nofun⟩

theorem witness_BitsDoNotDependOnTheWordWidth :
    widthFree .write1 = true ∧
    SameBits (encAt (inst .w32 .p0Msb none none) 40 []) (encAt (inst .w64 .p0Msb none none) 40 []) ∧
    ∃ t, exec .write1 (encAt (inst .w32 .p0Msb none none) 40 []) = .next t := by
  refine ⟨rfl, ⟨rfl, rfl, rfl, rfl, rfl, fun h i => ?_, rfl, rfl, rfl⟩, _, rfl⟩
  match h with
  | 0 => rfl
  | 1 => rfl
  | _ + 2 => rfl

/-! ### The host around the block: tests and witnesses -/

/-- One row of one pixel. -/
def pixelOf (q : Pixel) : Bitmap := { size := { width := 1, height := 1 }, pixels := [q] }

/-- The image in stores 0 (lookup table) and 1 (pixel data), one pixel wide. -/
def tall (height : Nat) : CompressedBitmap :=
  { size := { width := 1, height := height }, lookup := 0, pixelData := 1 }

/-- What a job ends in, as the error or nothing. -/
def errorOf {α : Type} (j : Job α) : Option HostError :=
  match j.result with
  | .ok _ => none
  | .error e => some e

/-- R165: the 1×1 black bitmap gives one word `0x80000000` and lookup bit 1. -/
theorem test_compress_black :
    errorOf (compress 0 1 (pixelOf 0x00) (held p32 [])) = none ∧
    (compress 0 1 (pixelOf 0x00) (held p32 [])).state.stores
      = [{ words := [0x80000000] }, { words := [0x80000000] }] := ⟨rfl, rfl⟩
/-- R165: the 1×1 white bitmap gives no word and lookup bit 0. -/
theorem test_compress_white :
    (compress 0 1 (pixelOf 0xFF) (held p32 [])).state.stores = [{ words := [0] }, { words := [] }] := rfl
/-- R152, R185, R188: a second literal over `MAX_WORDS = 1` ends the job, the Encoder leaves scope, and row 0 alone was
announced. -/
theorem test_compress_error :
    errorOf (compress 0 1 (pixelOf 0x0F) (held oneWord [])) = none ∧
    errorOf (compress 0 1 { size := { width := 5, height := 1 }, pixels := [1, 2, 3, 4, 5] } (held oneWord []))
      = some (.blockFault (.allocationFailed 1 2)) ∧
    (compress 0 1 { size := { width := 5, height := 1 }, pixels := [1, 2, 3, 4, 5] }
      (held oneWord [])).state.enc.isOpen = false ∧
    (compress 0 1 { size := { width := 5, height := 1 }, pixels := [1, 2, 3, 4, 5] }
      (held oneWord [])).calls = [(0, 1)] := ⟨rfl, rfl, rfl, rfl⟩
/-- R157: separate handles. -/
theorem test_compress_one_store :
    errorOf (compress 1 1 (pixelOf 0x00) (held p32 [])) = some .storesNotSeparate := rfl
/-- R174, R178: the file of the 1×1 black bitmap on a little-endian 32-bit host. -/
theorem test_save_bytes :
    (save none .little (tall 1)
        { held p32 [] with stores := [{ words := [0x80000000] }, { words := [0x80000000] }] }).result.toOption
      = some [1, 0, 0, 0, 1, 0, 0, 0, 0, 0, 0, 0x80, 1, 0, 0, 0, 0, 0, 0, 0x80] := by decide
/-- R177, R181: the resize comes before the reading, so a count over `MAX_WORDS` is AllocationFailed in a short file. -/
theorem test_load_resizes_first :
    errorOf (load .big 0 1 [0, 0, 0, 1, 0, 0, 0, 1, 0, 0, 0, 0, 0, 0, 0, 2] (held oneWord []))
      = some (.blockFault (.allocationFailed 1 2)) := by decide
/-- R177, R184: a source that ends inside the lookup word. -/
theorem test_load_short :
    errorOf (load .little 0 1 [1, 0, 0, 0, 1, 0, 0, 0, 0, 0] (held p32 []))
      = some (.ioShortRead 4 2) := by decide
/-- R187: `Bitmap(MAX_USIZE/2, 2)` on a 32-bit host, and the coordinates one past the end. -/
theorem test_bitmap_boundaries :
    newBitmap p32 none { width := 2147483647, height := 2 } 0xFF = .error .tooLarge ∧
    rowAt (pixelOf 0x00) 1 = .error (.coordinateY 1) ∧
    pixelAt (pixelOf 0x00) 1 0 = .error (.coordinateX 1) ∧
    pixelAt (pixelOf 0x00) 0 1 = .error (.coordinateY 1) := ⟨rfl, rfl, rfl, rfl⟩
/-- R40: row 32 has no lookup bit where cursors have 5 bits. -/
theorem test_isEmptyRowAt_not_presentable :
    errorOf (isEmptyRowAt (tall 40) 32 (held fiveBits [0, 0])) = some (.notPresentable (.bsTest 0 32)) := rfl

/-- R152: a deep copy, bit for bit, also of words that have bit places past `2^IW` (5 bits here). -/
theorem test_copyStore :
    errorOf (copyStore 0 1 (held fiveBits [0x80000001, 0])) = none ∧
    (copyStore 0 1 (held fiveBits [0x80000001, 0])).state.stores
      = [{ words := [0x80000001, 0] }, { words := [0x80000001, 0] }] := by decide
/-- R40: a 1 past `2^IW` has no index to be set by (log entry 26). -/
theorem test_copyStore_not_presentable :
    errorOf (copyStore 0 1 (held fiveBits [0, 0x40000000])) = some (.notPresentable (.bsSet 1 33)) := by
  decide

/-- R155, R169: row 1 of a 2×2 bitmap written through its view, and the row past the end. -/
theorem test_writeRowAt :
    writeRowAt { size := { width := 2, height := 2 }, pixels := [1, 2, 3, 4] } 1 [8, 9]
      = .ok { size := { width := 2, height := 2 }, pixels := [1, 2, 8, 9] } ∧
    writeRowAt { size := { width := 2, height := 2 }, pixels := [1, 2, 3, 4] } 2 [8, 9]
      = .error (.coordinateY 2) := ⟨rfl, rfl⟩
/-- R186 (1), on the 1×1 black bitmap. -/
theorem test_restores_black : RestoresBitmap none 0 1 (pixelOf 0x00) (held p32 []) := ⟨_, rfl, rfl⟩
/-- R186 (2), on the 1×1 white bitmap and on the black one. -/
theorem test_tells_empty_rows :
    TellsEmptyRows (pixelOf 0xFF) (tall 1) (held p32 [0x00000000]) ∧
    TellsEmptyRows (pixelOf 0x00) (tall 1) (held p32 [0x80000000]) := by
  constructor <;> intro y hy <;> obtain rfl : y = 0 := Nat.lt_one_iff.mp hy <;> exact ⟨_, rfl, by decide⟩
/-- R186 (3), on a 2×3 bitmap. -/
theorem test_fills_bitmap : FillsBitmap p32 (some 6) { width := 2, height := 3 } 0x7F :=
  ⟨_, rfl, rfl, rfl, by decide⟩
/-- R186 (4), big-endian, the stores exchanged on loading. -/
theorem test_restores_compressed :
    RestoresCompressed .big (tall 1) (held p32 [0x80000000]) 1 0 (held p32 [7]) :=
  ⟨_, _, rfl, rfl, by decide⟩
/-- R186 (7), R183: a bitmap of 3 rows. -/
theorem test_progress_runs : ProgressRuns 3 [(0, 3), (1, 3), (2, 3), (3, 3)] := by
  unfold ProgressRuns
  decide

theorem witness_UncompressRestoresTheBitmap :
    (held p32 []).enc.isOpen = false ∧ (held p32 []).dec.isOpen = false ∧
    (held p32 []).params.maxWords = none ∧ (held p32 []).params.indexBits = none ∧
    0 < (held p32 []).stores.length ∧ 1 < (held p32 []).stores.length ∧ (0 : Nat) ≠ 1 ∧
    BitmapValid p32 (pixelOf 0x00) ∧ canAllocate p32 (some 1) (1 * 1) = true :=
  ⟨rfl, rfl, rfl, rfl, by decide, by decide, by decide, by decide, rfl⟩

theorem witness_LookupTableMarksNonEmptyRows :
    (∃ c, (compress 0 1 (pixelOf 0x00) (held p32 [])).result = .ok c) ∧
    (∃ c, (compress 0 1 (pixelOf 0xFF) (held p32 [])).result = .ok c) ∧
    (0 < (pixelOf 0x00).size.height ∧ indexFits p32 0 = true) ∧ (pixelOf 0x00).size.height ≤ 1 ∧
    (∃ c, (compress 0 1 { size := { width := 1, height := 33 }, pixels := List.replicate 33 0xFF }
      (held fiveBits [])).result = .ok c) ∧ indexFits fiveBits 32 = false :=
  ⟨⟨_, rfl⟩, ⟨_, rfl⟩, by decide, by decide, ⟨_, rfl⟩, by decide⟩

theorem witness_LoadRestoresWhatSaveWrote :
    CompressedValid (held p32 [0x80000000]) (tall 32) ∧
    Memory.wf p32 (held p32 [0x80000000]).stores ∧
    (∃ file, (save none .big (tall 32) (held p32 [0x80000000])).result = .ok file) ∧
    HostMayWrite 1 (held p32 [7]) ∧ HostMayWrite 0 (held p32 [7]) ∧ (1 : Nat) ≠ 0 :=
  ⟨by decide, one_word_wf p32 0x80000000 rfl (by decide) rfl, ⟨_, rfl⟩, by decide, by decide, by decide⟩

theorem witness_BitmapSizesAreChecked :
    (1 ≤ 2 ∧ 1 ≤ 2147483648 ∧ 2 ^ p32.w ≤ 2 * 2147483648) ∧
    (1 * 4294967295 < 2 ^ p32.w ∧ canAllocate p32 none (1 * 4294967295) = false) ∧
    (1 * 4294967293 < 2 ^ p32.w ∧ canAllocate p32 none (1 * 4294967293) = true) ∧
    canAllocate p32 (some 5) (2 * 3) = false ∧ canAllocate p32 (some 6) (2 * 3) = true := by decide

theorem witness_ProgressIsCalledOncePerRowAndAtTheEnd :
    (∃ c, (compress 0 1 (pixelOf 0x00) (held p32 [])).result = .ok c) ∧
    ∃ b, (uncompress none (tall 1) (held p32 [0x80000000])).result = .ok b :=
  ⟨⟨_, rfl⟩, _, rfl⟩

theorem witness_SaveWritesTheFileLayout :
    HostMayRead 0 (decAt p32 0 [1]) ∧ HostMayRead 1 (encAt p32 0 [1]) ∧
    HostMayRead 1 (decAt p32 0 [1]) ∧ 7 < p64.w / 8 := by decide

theorem witness_CompressAnswersTheImageAndLeavesTheRest :
    (∃ c, (compress 0 1 (pixelOf 0x00) (held p32 [])).result = .ok c) ∧
    errorOf (compress 0 1 (pixelOf 0x00) (encAt p32 0 [])) ≠ none ∧
    (∃ b, (uncompress none (tall 1) (held p32 [0x80000000])).result = .ok b) ∧
    (2 : Nat) ≠ 0 ∧ (2 : Nat) ≠ 1 :=
  ⟨⟨_, rfl⟩, by decide, ⟨_, rfl⟩, by decide, by decide⟩

end Sys2Proof.Tests
end

section
/-! The guards of a host's store operations (20_memory.md R60) in the statements' words: what passes, and what is
refused whatever the operation would do. -/

namespace Sys2Proof.Machine

variable {s : State} {h : Nat}

/-- A ground for refusal refuses the operation, whatever it would do. -/
theorem guarded_refuses_of_ne_none {g : Option Refusal} (hg : g ≠ none)
    (o : Host.Outcome State Fault Refusal) : ∃ r, guarded g o = .refused r := by
  obtain ⟨r, rfl⟩ := Option.ne_none_iff_exists'.mp hg
  exact ⟨r, guarded_some r o⟩

/-- An operation that is refused behind its guard is refused, though perhaps for the guard's reason. -/
theorem guarded_refuses_of_refused (g : Option Refusal) (r : Refusal) :
    ∃ r', guarded g (.refused r) = .refused r' := by
  cases g with
  | none => exact ⟨r, guarded_none _⟩
  | some r' => exact ⟨r', guarded_some r' _⟩

theorem guarded_hostReadGuard_of_mayRead (hr : HostMayRead h s)
    (o : Host.Outcome State Fault Refusal) : guarded (hostReadGuard h s) o = o := by
  rw [(hostReadGuard_eq_none_iff h s).mpr hr, guarded_none]

theorem guarded_hostReadGuard_refuses (hr : ¬ HostMayRead h s)
    (o : Host.Outcome State Fault Refusal) : ∃ r, guarded (hostReadGuard h s) o = .refused r :=
  guarded_refuses_of_ne_none ((hostReadGuard_eq_none_iff h s).not.mpr hr) o

theorem guarded_hostWriteGuard_of_mayWrite (hw : HostMayWrite h s)
    (o : Host.Outcome State Fault Refusal) : guarded (hostWriteGuard h s) o = o := by
  rw [(hostWriteGuard_eq_none_iff h s).mpr hw, guarded_none]

theorem guarded_hostWriteGuard_refuses (hw : ¬ HostMayWrite h s)
    (o : Host.Outcome State Fault Refusal) : ∃ r, guarded (hostWriteGuard h s) o = .refused r :=
  guarded_refuses_of_ne_none ((hostWriteGuard_eq_none_iff h s).not.mpr hw) o

/-- The encoder's exclusive borrow shuts out even a host read (R60 a). -/
theorem not_hostMayRead_of_encoderHolds (hopen : s.enc.isOpen = true) (hbs : s.enc.bs = h) :
    ¬ HostMayRead h s :=
  fun ⟨_, hfree⟩ => hfree ⟨hopen, hbs⟩

end Sys2Proof.Machine
end

section
/-! Where a stream bit lies (20_memory.md R41), seen from the word: the bits of a word that is replaced, and the bits of
every other word. -/

namespace Sys2Proof.Machine

/-- Offset `j` of word `k` lies in word `k`. -/
theorem wordIndex_mul_add {w j : Nat} (k : Nat) (hj : j < w) : wordIndex w (k * w + j) = k := by
  have hw : 0 < w := by omega
  rw [wordIndex, Nat.mul_comm, Nat.mul_add_div hw, Nat.div_eq_of_lt hj, Nat.add_zero]

/-- Offset `j` of a word is its value bit `W − 1 − j`. -/
theorem valueBit_mul_add {w j : Nat} (k : Nat) (hj : j < w) :
    valueBit w (k * w + j) = w - 1 - j := by
  rw [valueBit, Nat.mul_add_mod', Nat.mod_eq_of_lt hj]

/-- Offset `j` of a replaced word is value bit `W − 1 − j` of the new word. -/
theorem testBit_setWord_same {w j k : Nat} {st : Store} (v : Word) (hk : k < st.wordCount)
    (hj : j < w) :
    testBit w { words := st.words.set k v } (k * w + j) = v.getLsbD (w - 1 - j) := by
  have hk' : k < st.words.length := hk
  rw [testBit_eq, wordIndex_mul_add k hj, valueBit_mul_add k hj]
  simp [hk']

/-- Replacing a word changes no bit of another word. -/
theorem testBit_setWord_other {w i k : Nat} (st : Store) (v : Word) (hi : i / w ≠ k) :
    testBit w { words := st.words.set k v } i = testBit w st i := by
  rw [testBit_eq, testBit_eq]
  simp [wordIndex, List.getElem?_set_ne (Ne.symm hi)]

/-- The bits of the store just written. -/
theorem bitAt_setStore_same {s : State} {h : Nat} (st : Store) (i : Nat)
    (hh : h < s.stores.length) : bitAt (setStore s h st) h i = testBit s.params.w st i := by
  rw [bitAt, storeAt_setStore_same s h st hh, setStore_params]

/-- `BS_TEST`'s value in R45's own words: bit 0 of the word shifted right by `W − 1 − (i mod W)`. -/
theorem bitAt_eq_shifted_word (s : State) (h i : Nat) :
    bitAt s h i = (((storeAt s h).words.getD (i / s.params.w) 0) >>>
      (s.params.w - 1 - i % s.params.w)).getLsbD 0 := by
  rw [bitAt, testBit_eq, BitVec.getLsbD_ushiftRight, Nat.add_zero, wordIndex, valueBit]

end Sys2Proof.Machine
end

section
/-! The statements about the store operations (20_memory.md): what each operation answers when its guard passes, and the
obligations assembled from that. -/

namespace Sys2Proof.Machine

variable {s : State} {h : Nat}

/-- `BS_NEW` on a store the host may write (R63). -/
theorem exec_bsNew_of_mayWrite (c : Nat) (hw : HostMayWrite h s) :
    exec (.bsNew h c) s =
      if wordsAllowed s.params (ceilDiv c s.params.w) = false then
        .next (takeFault .host (.allocationFailed h (ceilDiv c s.params.w)) s)
      else .next (answer .done
        (setStore s h { words := List.replicate (ceilDiv c s.params.w) 0 })) :=
  guarded_hostWriteGuard_of_mayWrite hw _

/-- `BS_TEST` on a store the host may read (R45). -/
theorem exec_bsTest_of_mayRead (i : Nat) (hr : HostMayRead h s) :
    exec (.bsTest h i) s = .next (answer (.bit (bitAt s h i)) s) :=
  guarded_hostReadGuard_of_mayRead hr _

/-- `BS_LOAD_WORD` by the loader: a host write, refused past the last word (R52, R199 b). -/
theorem exec_bsLoadWord_loader (s : State) (h k : Nat) (v : Word) :
    exec (.bsLoadWord .loader h k v) s = guarded (hostWriteGuard h s)
      (if (storeAt s h).wordCount ≤ k then .refused .wordIndex
       else .next (answer .done (setStore s h { words := (storeAt s h).words.set k v }))) := rfl

theorem exec_bsLoadWord_of_mayWrite {k : Nat} (v : Word) (hw : HostMayWrite h s)
    (hk : k < (storeAt s h).wordCount) :
    exec (.bsLoadWord .loader h k v) s = .next
      (answer .done (setStore s h { words := (storeAt s h).words.set k v })) := by
  rw [exec_bsLoadWord_loader, guarded_hostWriteGuard_of_mayWrite hw, if_neg (Nat.not_le.mpr hk)]

theorem exec_bsLoadWord_refuses_past_end {k : Nat} (v : Word)
    (hk : (storeAt s h).wordCount ≤ k) :
    ∃ r, exec (.bsLoadWord .loader h k v) s = .refused r := by
  rw [exec_bsLoadWord_loader, if_pos hk]
  exact guarded_refuses_of_refused _ _

/-- Settles O18: the operation replaces one word, and R41 says which stream bits that word holds. -/
theorem bsLoadWordStoresAWord : Obligations.BsLoadWordStoresAWord := by
  intro s h k v
  refine ⟨fun hw hk => ⟨_, exec_bsLoadWord_of_mayWrite v hw hk, rfl, fun j hj => ?_, fun i hi => ?_⟩,
    exec_bsLoadWord_refuses_past_end v, fun hw => guarded_hostWriteGuard_refuses hw _,
    .notLoader, rfl⟩
  · rw [bitAt_answer, bitAt_setStore_same _ _ hw.1, testBit_setWord_same v hk hj]
  · rw [bitAt_answer, bitAt_setStore_same _ _ hw.1, testBit_setWord_other _ v hi, bitAt]

/-- Settles O11: past the guard, the limit on the word count alone decides. -/
theorem bsNewMakesZeroWords : Obligations.BsNewMakesZeroWords := by
  intro s h c
  refine ⟨fun hw hfits => ?_, fun hw hover => ?_, fun hw => guarded_hostWriteGuard_refuses hw _⟩
  · exact (exec_bsNew_of_mayWrite c hw).trans (if_neg (Bool.not_eq_false _ |>.mpr hfits))
  · exact (exec_bsNew_of_mayWrite c hw).trans (if_pos hover)

/-- Settles O12: past the last word a bit reads 0, elsewhere it is the shifted word's. -/
theorem bsTestReadsLeniently : Obligations.BsTestReadsLeniently := by
  intro s h i
  refine ⟨fun hr hpast => ?_, fun hr _ => ?_, fun hopen hbs => ?_⟩
  · rw [exec_bsTest_of_mayRead i hr, bitAt, wordCount_le_iff_testBit_zero hpast]
    rfl
  · rw [exec_bsTest_of_mayRead i hr, bitAt_eq_shifted_word]
    rfl
  · exact guarded_hostReadGuard_refuses (not_hostMayRead_of_encoderHolds hopen hbs) _

/-- Settles O16: the read guard alone decides between the count and a refusal. -/
theorem bsWordCountCountsWords : Obligations.BsWordCountCountsWords := fun _ _ =>
  ⟨fun hr => guarded_hostReadGuard_of_mayRead hr _,
   fun hopen hbs => guarded_hostReadGuard_refuses (not_hostMayRead_of_encoderHolds hopen hbs) _⟩

end Sys2Proof.Machine
end

section
/-! The prefix code (30_encoding.md R71 to R74): the decoder reads each codeword back from the front of any bit string
that begins with it. -/

namespace Sys2Proof

/-- Reading the first `n` bits of a block in stream order gives its upper `n` bits (R72). -/
theorem literalOfBits_upperBits (b : Block) {n : Nat} (hn : n ≤ 32) :
    literalOfBits ((List.range n).map fun j => b.getLsbD (31 - j)) = b >>> (32 - n) := by
  induction n with
  | zero => exact (BitVec.ushiftRight_eq_zero (Nat.le_refl 32)).symm
  | succ n ih =>
    have hstep : literalOfBits ((List.range (n + 1)).map fun j => b.getLsbD (31 - j))
        = ((b >>> (32 - n)) <<< 1) ||| (BitVec.ofBool (b.getLsbD (31 - n))).setWidth 32 := by
      rw [← ih (Nat.le_of_succ_le hn), List.range_succ, List.map_append]
      exact List.foldl_append
    rw [hstep]
    ext k hk
    cases k with
    | zero => simp [show 32 - (n + 1) = 31 - n by omega]
    | succ k => simp [show 32 - n + k = 32 - (n + 1) + (k + 1) by omega]

@[simp] theorem literalOfBits_literalBits (b : Block) : literalOfBits (literalBits b) = b :=
  (literalOfBits_upperBits b (Nat.le_refl 32)).trans (BitVec.ushiftRight_zero b)

@[simp] theorem length_literalBits (b : Block) : (literalBits b).length = 32 := by
  simp [literalBits]

/-- The three codewords are the only instructions encoded as stream bits (R71). -/
theorem codeword_of_encode_eq_stream {i : Instr} {x : List Bool} (hi : encode i = .stream x) :
    (i = .cwWhite ∧ x = [false]) ∨ (i = .cwBlack ∧ x = [true, false]) ∨
      ∃ b, i = .cwLiteral b ∧ x = true :: true :: literalBits b := by
  cases i with
  | cwWhite => exact .inl ⟨rfl, (Encoding.stream.inj hi).symm⟩
  | cwBlack => exact .inr (.inl ⟨rfl, (Encoding.stream.inj hi).symm⟩)
  | cwLiteral b => exact .inr (.inr ⟨b, rfl, (Encoding.stream.inj hi).symm⟩)
  | _ => cases hi

/-- The decoder reads a codeword off the front of any bit string that begins with it. -/
theorem decodeStream_codeword_append {i : Instr} {x : List Bool} (hi : encode i = .stream x)
    (y : List Bool) : decodeStream (x ++ y) = some (i, y) := by
  obtain ⟨rfl, rfl⟩ | ⟨rfl, rfl⟩ | ⟨b, rfl, rfl⟩ := codeword_of_encode_eq_stream hi
  · rfl
  · rfl
  · simp [decodeStream]

/-- A codeword's length, told by its first bit and, after a 1, its second (R74). -/
theorem length_of_encode_eq_stream {i : Instr} {x : List Bool} (hi : encode i = .stream x) :
    x.length = if x.getD 0 false = false then 1 else if x.getD 1 false = false then 2 else 34 := by
  obtain ⟨-, rfl⟩ | ⟨-, rfl⟩ | ⟨b, -, rfl⟩ := codeword_of_encode_eq_stream hi
  · rfl
  · rfl
  · simp

/-- Settles O3: reading the longer codeword's bits finds the shorter one with `y` left over, and also the longer one
with nothing left over, so the two are the same. -/
theorem noCodewordBeginsAnother : Obligations.NoCodewordBeginsAnother := by
  refine ⟨fun i j x y hi hj => ?_, fun _ _ => length_of_encode_eq_stream⟩
  have hshort : decodeStream (x ++ y) = some (i, y) := decodeStream_codeword_append hi y
  have hlong : decodeStream (x ++ y) = some (j, []) := by
    simpa using decodeStream_codeword_append hj []
  exact Prod.mk.inj (Option.some.inj (hshort.symm.trans hlong))

end Sys2Proof
end

section
/-! The statements about the packer and unpacker (40_pixel_block.md): the model's byte places written by shifts, and the
two pixel orders as reverses of each other. -/

namespace Sys2Proof.Machine

/-- `COMBINE` answers the packed block on every instance (R90). -/
theorem exec_combine (p0 p1 p2 p3 : Pixel) (s : State) :
    exec (.combine p0 p1 p2 p3) s =
      .next (answer (.block (packPixels s.params.packOrder p0 p1 p2 p3)) s) := rfl

/-- `SPLIT` answers the block's pixels on every instance (R93). -/
theorem exec_split (b : Block) (s : State) :
    exec (.split b) s = .next (answer (.pixels (unpackPixels s.params.packOrder b)) s) := rfl

/-- Packing under `P0_MSB` by shift and or (R91). -/
theorem packPixels_p0Msb_eq_shifts (p0 p1 p2 p3 : Pixel) :
    packPixels .p0Msb p0 p1 p2 p3 =
      ((p0.setWidth 32 <<< 24) ||| (p1.setWidth 32 <<< 16) ||| (p2.setWidth 32 <<< 8)
        ||| p3.setWidth 32) := by
  rw [← BitVec.setWidth_eq (packPixels .p0Msb p0 p1 p2 p3)]
  exact BitVec.setWidth_append_append_append_eq_shiftLeft_setWidth_or

/-- The byte of a block from bit `k` up, by shift. -/
theorem extractLsb'_byte_eq_shift (b : Block) (k : Nat) :
    b.extractLsb' k 8 = (b >>> k).setWidth 8 := by
  ext i hi
  rw [BitVec.getElem_extractLsb', BitVec.getElem_setWidth, BitVec.getLsbD_ushiftRight]

/-- Splitting under `P0_MSB`, the most significant byte first, by shifts (R93). -/
theorem unpackPixels_p0Msb_eq_shifts (b : Block) :
    unpackPixels .p0Msb b =
      [(b >>> 24).setWidth 8, (b >>> 16).setWidth 8, (b >>> 8).setWidth 8, b.setWidth 8] := by
  simp only [unpackPixels, extractLsb'_byte_eq_shift, BitVec.ushiftRight_zero]

/-- Splitting under the other order gives the pixels in reverse (R93). -/
theorem unpackPixels_eq_reverse_of_ne {o o' : PackOrder} (h : o ≠ o') (b : Block) :
    unpackPixels o' b = (unpackPixels o b).reverse := by
  cases o <;> cases o'
  case p0Msb.p0Lsb | p0Lsb.p0Msb => rfl
  case p0Msb.p0Msb | p0Lsb.p0Lsb => exact absurd rfl h

/-- Settles O26: the packing order would give the four pixels back, and the other order reverses that. -/
theorem mixedOrdersReverse : Obligations.MixedOrdersReverse := by
  intro s u p0 p1 p2 p3 hne
  refine ⟨_, _, exec_combine p0 p1 p2 p3 s, rfl, ?_⟩
  rw [exec_split, unpackPixels_eq_reverse_of_ne hne, splitUndoesCombine_holds]
  rfl

/-- Settles O21: the concatenation of the four bytes is their shift and or. -/
theorem combineUnderP0Msb : Obligations.CombineUnderP0Msb := by
  intro s p0 p1 p2 p3 ho
  rw [exec_combine, ho, packPixels_p0Msb_eq_shifts]
  rfl

/-- Settles O23: the bytes under `P0_MSB` are shifts, and `P0_LSB` takes the same bytes in reverse. -/
theorem splitOrdersPixels : Obligations.SplitOrdersPixels := by
  intro s b
  refine ⟨fun ho => ?_, fun ho => ?_⟩
  · rw [exec_split, ho, unpackPixels_p0Msb_eq_shifts]
    rfl
  · have hne : PackOrder.p0Msb ≠ .p0Lsb := by decide
    rw [exec_split, ho, unpackPixels_eq_reverse_of_ne hne, unpackPixels_p0Msb_eq_shifts]
    rfl

end Sys2Proof.Machine
end

section
/-! Opening and closing the encoder's session (41_write_cursor.md R100, R103): the two guards in the statements' words, and
what stands behind them. -/

namespace Sys2Proof.Machine

theorem isHandle_eq_false_iff (s : State) (h : Nat) :
    isHandle s h = false ↔ s.stores.length ≤ h := by
  rw [isHandle, decide_eq_false_iff_not, Nat.not_lt]

theorem decHolds_iff (s : State) (h : Nat) :
    decHolds s h = true ↔ s.dec.isOpen = true ∧ s.dec.bs = h := by
  rw [decHolds, Bool.and_eq_true, decide_eq_true_iff]

/-- The three grounds that refuse `ENC_OPEN` (R194 b, f; R60 b). -/
theorem encOpenGuard_ne_none_iff (h : Nat) (s : State) :
    encOpenGuard h s ≠ none ↔
      s.enc.isOpen = true ∨ s.stores.length ≤ h ∨ (s.dec.isOpen = true ∧ s.dec.bs = h) := by
  rw [← isHandle_eq_false_iff, ← decHolds_iff, encOpenGuard]
  split
  next hopen => simp [hopen]
  next hclosed =>
    split
    next hbad => simp [hbad]
    next hhandle => simp [hclosed, hhandle]

/-- Settles O27: the three grounds of the guard are the refusal clause, and the opening clause shuts out each. -/
theorem encOpenStartsASession : Obligations.EncOpenStartsASession := by
  intro s h
  refine ⟨fun hclosed hhandle hfree => ?_,
    fun hground => guarded_refuses_of_ne_none ((encOpenGuard_ne_none_iff h s).mpr hground) _⟩
  have hnone : encOpenGuard h s = none := by
    refine not_not.mp ((encOpenGuard_ne_none_iff h s).not.mpr ?_)
    rintro (hopen | hbad | hheld)
    · exact Bool.false_ne_true (hclosed.symm.trans hopen)
    · exact Nat.not_le.mpr hhandle hbad
    · exact hfree hheld
  rw [exec, execEncOpen, hnone, guarded_none]
  rfl

theorem encSessionGuard_of_open {s : State} (hopen : s.enc.isOpen = true) :
    encSessionGuard s = none :=
  if_neg (Bool.not_eq_false _ |>.mpr hopen)

theorem encSessionGuard_of_closed {s : State} (hclosed : s.enc.isOpen = false) :
    encSessionGuard s = some .encoderNotOpen :=
  if_pos hclosed

/-- Settles O30: whether a session is open alone decides; its fault element is not tested. -/
theorem encCloseEndsTheSession : Obligations.EncCloseEndsTheSession := by
  intro s
  refine ⟨fun hopen => ?_, fun hclosed => ⟨.encoderNotOpen, ?_⟩⟩
  · rw [exec, execEncClose, encSessionGuard_of_open hopen, guarded_none]
    rfl
  · rw [exec, execEncClose, encSessionGuard_of_closed hclosed, guarded_some]

end Sys2Proof.Machine
end

section
/-! The encoder's guard and the two coding operations behind it (42_encoder.md R110, R112): what a completed run of
writes leaves at each index, and that the response standing before a run has no effect on how it ends. -/

namespace Sys2Proof.Machine

variable {s t : State}

/-- A closed session and a faulted one each refuse a coding operation (R194 a, c). -/
theorem guarded_encGuard_refuses (hg : s.enc.isOpen = false ∨ s.enc.fault ≠ none)
    (o : Host.Outcome State Fault Refusal) : ∃ r, guarded (encGuard s) o = .refused r := by
  refine guarded_refuses_of_ne_none ((encGuard_eq_none_iff s).not.mpr ?_) o
  rintro ⟨hopen, hnofault, -⟩
  obtain hclosed | hfault := hg
  · exact Bool.false_ne_true (hclosed.symm.trans hopen)
  · exact hfault hnofault

theorem exec_encBlock_of_ready (hs : EncReady s) (b : Block) :
    exec (.encBlock b) s = finish .encoder (fun _ => .done) (writeBits (codewordBits b) s) := by
  rw [exec, execEncBlock, encGuard_ready hs, guarded_none]

theorem exec_encode_of_ready (hs : EncReady s) (px : List Pixel) :
    exec (.encode px) s = finish .encoder (fun _ => .done)
      (writeBlocks (blocksOf s.params.packOrder px) s) := by
  rw [exec, execEncode, encGuard_ready hs, guarded_none]

/-! ### What a completed run of writes leaves -/

theorem Wrote.bitAt_inside {bits : List Bool} (hw : Wrote bits s t) {j : Nat}
    (hj : j < bits.length) :
    bitAt t s.enc.bs (s.enc.cursor + j) = bits.getD j false := by
  rw [hw.stored, overlay, if_pos (by omega), Nat.add_sub_cancel_left]

theorem Wrote.bitAt_outside {bits : List Bool} (hw : Wrote bits s t) {i : Nat}
    (hi : i < s.enc.cursor ∨ s.enc.cursor + bits.length ≤ i) :
    bitAt t s.enc.bs i = bitAt s s.enc.bs i := by
  rw [hw.stored, overlay, if_neg (by omega)]

/-- A completed run leaves the session ready for the next one. -/
theorem Wrote.encReady {bits : List Bool} (hw : Wrote bits s t) (hs : EncReady s) :
    EncReady t := by
  obtain ⟨hopen, hnofault, hbs⟩ := hs
  obtain ⟨-, -, -, -, -, -, hlen, -⟩ := hw.frame
  rw [EncReady, hw.enc, hlen]
  exact ⟨hopen, hnofault, hbs⟩

/-! ### The response before a run -/

/-- A run with another response standing in the state it ends in. -/
def Run.withResponse {α : Type} (r : Response) : Run α → Run α
  | .done a s => .done a (answer r s)
  | .faulted f s => .faulted f (answer r s)

/-- The end of an operation sets the response, whatever stood there. -/
@[simp] theorem finish_withResponse {α : Type} (who : Agent) (g : α → Response) (r : Response)
    (x : Run α) : finish who g (x.withResponse r) = finish who g x := by
  cases x with
  | done a s => rfl
  | faulted f s => cases who <;> rfl

theorem writeSet_answer (h i : Nat) (r : Response) (s : State) :
    writeSet h i (answer r s) = (writeSet h i s).withResponse r := by
  simp only [writeSet, apply_ite (Run.withResponse r)]
  rfl

/-- A primitive write neither reads the response nor sets it. -/
theorem writeBit_answer (b : Bool) (r : Response) (s : State) :
    writeBit b (answer r s) = (writeBit b s).withResponse r := by
  unfold writeBit
  rw [answer_params, answer_enc]
  split
  · rfl
  · cases b with
    | false => rfl
    | true =>
      rw [writeSet_answer]
      cases writeSet s.enc.bs s.enc.cursor s <;> rfl

theorem writeBits_answer (bits : List Bool) (r : Response) (s : State) :
    writeBits bits (answer r s) = (writeBits bits s).withResponse r := by
  induction bits generalizing s with
  | nil => rfl
  | cons b bs ih =>
    rw [writeBits, writeBits, writeBit_answer]
    cases writeBit b s with
    | done _ t => exact ih t
    | faulted f t => rfl

theorem writeBlocks_answer (bs : List Block) (r : Response) (s : State) :
    writeBlocks bs (answer r s) = (writeBlocks bs s).withResponse r := by
  rw [writeBlocks_eq, writeBlocks_eq, writeBits_answer]

end Sys2Proof.Machine
end

section
/-! The statements about the encoder (42_encoder.md): one codeword, and a pixel sequence as its blocks in order. -/

namespace Sys2Proof.Machine

variable {s : State}

/-! ### One codeword -/

theorem codewordBits_white : codewordBits 0xFFFFFFFF = [false] := by decide

theorem codewordBits_black : codewordBits 0x00000000 = [true, false] := by decide

theorem codewordBits_literal {b : Block} (hwhite : b ≠ 0xFFFFFFFF) (hblack : b ≠ 0x00000000) :
    codewordBits b = true :: true :: (List.range 32).map fun j => b.getLsbD (31 - j) := by
  rw [codewordBits, if_neg (show b ≠ whiteBlock from hwhite),
    if_neg (show b ≠ blackBlock from hblack)]

/-- A block costs as many bits as its codeword has (R83). -/
@[simp] theorem length_codewordBits (b : Block) : (codewordBits b).length = blockCost b := by
  unfold blockCost
  split_ifs with hwhite hblack
  · rw [hwhite, codewordBits_white]; rfl
  · rw [hblack, codewordBits_black]; rfl
  · simp [codewordBits_literal hwhite hblack]

/-- Settles O32: the bits of the codeword are written, each is read off the codeword's table, and outside them the bits
written do not reach. -/
theorem encBlockWritesOneCodeword : Obligations.EncBlockWritesOneCodeword := by
  intro s b
  refine ⟨fun hs hroom hones => ?_, fun hg => guarded_encGuard_refuses hg _⟩
  obtain ⟨t, ht, hw⟩ := writeBits_completes (codewordBits b) s hs.2.2
    (by rwa [length_codewordBits]) hones
  refine ⟨answer .done t, by rw [exec_encBlock_of_ready hs, ht, finish_done], hw.frame, rfl,
    by rw [answer_enc, hw.enc, length_codewordBits], ?white, ?black, ?literal, fun i hi => ?outside⟩
  case white =>
    rintro rfl
    exact hw.bitAt_inside (j := 0) (by decide)
  case black =>
    rintro rfl
    exact ⟨hw.bitAt_inside (j := 0) (by decide), hw.bitAt_inside (j := 1) (by decide)⟩
  case literal =>
    intro hwhite hblack
    rw [codewordBits_literal hwhite hblack] at hw
    refine ⟨hw.bitAt_inside (j := 0) (by simp), hw.bitAt_inside (j := 1) (by simp),
      fun j hj => ?_⟩
    rw [bitAt_answer, Nat.add_assoc, hw.bitAt_inside (by simp; omega), Nat.add_comm 2 j]
    simp [hj]
  case outside =>
    exact hw.bitAt_outside (by rwa [length_codewordBits])

/-! ### A sequence of blocks -/

/-- A pixel sequence of one block is that block's operation, its refusals included (R114). -/
theorem exec_encode_of_one_block {px : List Pixel} {b : Block}
    (hb : blocksOf s.params.packOrder px = [b]) :
    exec (.encode px) s = exec (.encBlock b) s := by
  rw [exec, exec, execEncode, execEncBlock, hb, writeBlocks_eq, List.flatMap_singleton]

/-- Past the first four pixels `ENCODE` goes on from the state `ENC_BLOCK` left, unless that is a faulted one: a
completed block leaves the session ready, and the response it left has no effect on the rest. -/
theorem exec_encode_four_append (hs : EncReady s) (p0 p1 p2 p3 : Pixel) (rest : List Pixel)
    {m : State} (hm : exec (.encBlock (packPixels s.params.packOrder p0 p1 p2 p3)) s = .next m) :
    exec (.encode (p0 :: p1 :: p2 :: p3 :: rest)) s =
      if m.enc.fault = none then exec (.encode rest) m else .next m := by
  rw [exec_encBlock_of_ready hs] at hm
  rw [exec_encode_of_ready hs, blocksOf, writeBlocks]
  obtain ⟨t, ht, hw⟩ | ⟨_, f, t, -, ht, -, -⟩ :=
    writeBits_cases (codewordBits (packPixels s.params.packOrder p0 p1 p2 p3)) s hs.2.2
  · rw [ht, finish_done] at hm
    obtain rfl := Host.Outcome.next.inj hm
    have hready : EncReady (answer .done t) := hw.encReady hs
    have hparams : t.params = s.params := hw.frame.1
    rw [ht, andThen_done, if_pos hready.2.1, exec_encode_of_ready hready, writeBlocks_answer,
      finish_withResponse, answer_params, hparams]
  · rw [ht, finish_faulted] at hm
    obtain rfl := Host.Outcome.next.inj hm
    rw [ht, andThen_faulted, finish_faulted]
    exact (if_neg (Option.some_ne_none _)).symm

/-- Settles O33: each case is one equation of the division into blocks. -/
theorem encodeRunsItsBlocksInOrder : Obligations.EncodeRunsItsBlocksInOrder := fun _ =>
  ⟨fun hs => ⟨exec_encode_of_ready hs [],
    fun _ => exec_encode_of_one_block rfl,
    fun _ _ => exec_encode_of_one_block rfl,
    fun _ _ _ => exec_encode_of_one_block rfl,
    fun p0 p1 p2 p3 rest _ => exec_encode_four_append hs p0 p1 p2 p3 rest⟩,
   fun hg _ => guarded_encGuard_refuses hg _⟩

end Sys2Proof.Machine
end

section
/-! The read cursor's session and its primitive read (43_read_cursor.md R125 to R127): the decoder's guards in the
statements' words, and what stands behind them. -/

namespace Sys2Proof.Machine

variable {s : State}

/-! ### Opening and closing -/

theorem encHolds_iff (s : State) (h : Nat) :
    encHolds s h = true ↔ s.enc.isOpen = true ∧ s.enc.bs = h := by
  rw [encHolds, Bool.and_eq_true, decide_eq_true_iff]

/-- What `DEC_OPEN` needs: no session open, a store, and the store not the encoder's (R194 b, f; R60 a). -/
theorem decOpenGuard_eq_none_iff (h : Nat) (s : State) :
    decOpenGuard h s = none ↔
      s.dec.isOpen = false ∧ h < s.stores.length ∧ ¬ (s.enc.isOpen = true ∧ s.enc.bs = h) := by
  rw [← encHolds_iff, ← Nat.not_le, ← isHandle_eq_false_iff, decOpenGuard]
  split
  next hopen => simp [hopen]
  next hclosed =>
    split
    next hbad => simp [hbad]
    next hhandle => simp [hclosed, hhandle]

/-- Settles O38: the guard passes exactly under the opening clause, and each ground of refusal contradicts one part of
it. -/
theorem decOpenStartsASession : Obligations.DecOpenStartsASession := by
  intro s h
  refine ⟨fun hclosed hhandle hfree => ?_,
    fun hground => guarded_refuses_of_ne_none (fun hnone => ?_) _⟩
  · rw [exec, execDecOpen, (decOpenGuard_eq_none_iff h s).mpr ⟨hclosed, hhandle, hfree⟩,
      guarded_none]
    rfl
  · obtain ⟨hclosed, hhandle, hfree⟩ := (decOpenGuard_eq_none_iff h s).mp hnone
    obtain hopen | hbad | hheld := hground
    · exact Bool.false_ne_true (hclosed.symm.trans hopen)
    · exact Nat.not_le.mpr hhandle hbad
    · exact hfree hheld

theorem decSessionGuard_of_open (hopen : s.dec.isOpen = true) : decSessionGuard s = none :=
  if_neg (Bool.not_eq_false _ |>.mpr hopen)

theorem decSessionGuard_of_closed (hclosed : s.dec.isOpen = false) :
    decSessionGuard s = some .decoderNotOpen :=
  if_pos hclosed

/-- Settles O40: whether a session is open alone decides; its fault element is not tested. -/
theorem decCloseEndsTheSession : Obligations.DecCloseEndsTheSession := by
  intro s
  refine ⟨fun hopen => ?_, fun hclosed => ⟨.decoderNotOpen, ?_⟩⟩
  · rw [exec, execDecClose, decSessionGuard_of_open hopen, guarded_none]
    rfl
  · rw [exec, execDecClose, decSessionGuard_of_closed hclosed, guarded_some]

/-! ### Reading one bit -/

/-- A closed session and a faulted one each refuse a coding operation (R194 a, c). -/
theorem guarded_decGuard_refuses (hg : s.dec.isOpen = false ∨ s.dec.fault ≠ none)
    (o : Host.Outcome State Fault Refusal) : ∃ r, guarded (decGuard s) o = .refused r := by
  refine guarded_refuses_of_ne_none (fun hnone => ?_) o
  obtain ⟨hopen, hnofault, -⟩ := (decGuard_eq_none_iff s).mp hnone
  obtain hclosed | hfault := hg
  · exact Bool.false_ne_true (hclosed.symm.trans hopen)
  · exact hfault hnofault

theorem exec_readBit_of_ready (hs : DecReady s) :
    exec .readBit s = finish .decoder .bit (readOne s) := by
  rw [exec, execReadBit, decGuard_ready hs, guarded_none]

/-- At the last index a cursor holds there is no room for one more (R28). -/
theorem canAdvance_of_cursorLast {p : Params} {c : Nat} (hlast : CursorLast p c) :
    canAdvance p c = false := by
  obtain ⟨iw, hiw, hc⟩ := hlast
  exact (atTop_iff p c).mp ⟨iw, hiw, hc.ge⟩

/-- A bit past the last word reads 0 (R45). -/
theorem bitAt_past_end {h i : Nat} (hpast : (storeAt s h).wordCount ≤ i / s.params.w) :
    bitAt s h i = false :=
  wordCount_le_iff_testBit_zero hpast

/-- Settles O39: a ready session runs the primitive read, and room for one more bit decides how it ends. -/
theorem readBitReadsAndAdvances : Obligations.ReadBitReadsAndAdvances := by
  intro s
  refine ⟨fun hs hroom => ⟨?_, bitAt_past_end⟩, fun hs hlast => ?_,
    fun hg => guarded_decGuard_refuses hg _⟩
  · rw [exec_readBit_of_ready hs, readOne_done (canAdvance_of_room hroom), finish_done]
    rfl
  · rw [exec_readBit_of_ready hs, readOne_top (canAdvance_of_cursorLast hlast), finish_faulted]
    rfl

end Sys2Proof.Machine
end

section
/-! How a run of reads ends, in general: what a completed sequence was made of, how an operation's next state comes about,
and that the response standing before a read has no effect on it. -/

namespace Sys2Proof.Machine

variable {α β : Type}

/-- A sequence completes exactly where both its parts do. -/
theorem andThen_eq_done_iff {x : Run α} {k : α → State → Run β} {b : β} {u : State} :
    andThen x k = .done b u ↔ ∃ a t, x = .done a t ∧ k a t = .done b u := by
  cases x <;> simp

/-- An operation that ends in a next state has completed or taken a fault (R190). -/
theorem finish_eq_next {who : Agent} {g : α → Response} {x : Run α} {m : State}
    (h : finish who g x = .next m) :
    (∃ a t, x = .done a t ∧ m = answer (g a) t) ∨
      ∃ f t, x = .faulted f t ∧ m = takeFault who f t := by
  cases x with
  | done a t => exact .inl ⟨a, t, rfl, (Host.Outcome.next.inj h).symm⟩
  | faulted f t => exact .inr ⟨f, t, rfl, (Host.Outcome.next.inj h).symm⟩

/-- A sequence carries a response along where its second part does. -/
theorem andThen_withResponse {r : Response} {x : Run α} {k : α → State → Run β}
    (hk : ∀ a t, k a (answer r t) = (k a t).withResponse r) :
    andThen (x.withResponse r) k = (andThen x k).withResponse r := by
  cases x with
  | done a t => exact hk a t
  | faulted f t => rfl

/-- The primitive read neither reads the response nor sets it. -/
theorem readOne_answer (r : Response) (s : State) :
    readOne (answer r s) = (readOne s).withResponse r := by
  simp only [readOne, apply_ite (Run.withResponse r)]
  rfl

theorem readLiteral_answer (n : Nat) (v : Block) (r : Response) (s : State) :
    readLiteral n v (answer r s) = (readLiteral n v s).withResponse r := by
  induction n generalizing v s with
  | zero => rfl
  | succ n ih =>
    rw [readLiteral, readLiteral, readOne_answer]
    exact andThen_withResponse fun _ _ => ih _ _

theorem readBlock_answer (r : Response) (s : State) :
    readBlock (answer r s) = (readBlock s).withResponse r := by
  rw [readBlock, readBlock, readOne_answer]
  refine andThen_withResponse fun b0 s1 => ?_
  cases b0 with
  | false => rfl
  | true =>
    rw [readOne_answer]
    refine andThen_withResponse fun b1 s2 => ?_
    cases b1 with
    | false => rfl
    | true => exact readLiteral_answer 32 0 r s2

end Sys2Proof.Machine
end

section
/-! The codeword at the cursor (44_decoder.md R135, R136): with room for its length the read answers its block, and
without room it stops at the last index a cursor holds. -/

namespace Sys2Proof.Machine

variable {α : Type} {s : State}

/-! ### With room -/

/-- The block of the codeword at the decoder's cursor (R135); `codeLength` is that codeword's length. -/
def blockAtCursor (s : State) : Block :=
  if bitAt s s.dec.bs s.dec.cursor = false then whiteBlock
  else if bitAt s s.dec.bs (s.dec.cursor + 1) = false then blackBlock
  else shiftIn s (s.dec.cursor + 2) 32 0

theorem readBlock_completes (hroom : CursorRoom s.params s.dec.cursor (codeLength s)) :
    readBlock s = .done (blockAtCursor s) (advanceDecBy (codeLength s) s) := by
  unfold codeLength at hroom ⊢
  unfold blockAtCursor
  split_ifs at hroom ⊢ with h0 h1
  · exact readBlock_white hroom h0
  · exact readBlock_black hroom (Bool.eq_true_of_not_eq_false h0) h1
  · exact readBlock_literal hroom (Bool.eq_true_of_not_eq_false h0)
      (Bool.eq_true_of_not_eq_false h1)

/-! ### Without room -/

/-- The run `r` from `s` ends in `CursorOverflow`, having moved nothing but the cursor; one that started within its range
has come to the last index of it (D9). -/
def Overflows (s : State) (r : Run α) : Prop :=
  ∃ m, r = .faulted (.cursorOverflow .decoder) (advanceDecBy m s) ∧
    ∀ iw ∈ s.params.indexBits, s.dec.cursor < 2 ^ iw → s.dec.cursor + m = 2 ^ iw - 1

/-- A sequence that begins with a read overflows where the read does, or else the rest. -/
theorem overflows_readOne_andThen {k : Bool → State → Run α}
    (hk : CursorRoom s.params s.dec.cursor 1 →
      Overflows (advanceDec s) (k (bitAt s s.dec.bs s.dec.cursor) (advanceDec s))) :
    Overflows s (andThen (readOne s) k) := by
  cases hadv : canAdvance s.params s.dec.cursor with
  | false =>
    refine ⟨0, by rw [readOne_top hadv]; rfl, fun iw hiw hlt => ?_⟩
    obtain ⟨iw', hiw', htop⟩ := (atTop_iff _ _).mpr hadv
    obtain rfl := Option.mem_unique hiw hiw'
    omega
  | true =>
    obtain ⟨m, hm, hlast⟩ := hk (room_one hadv)
    refine ⟨m + 1, by rw [readOne_done hadv, andThen_done, hm, advanceDecBy_advanceDec],
      fun iw hiw _ => ?_⟩
    have hnext : s.dec.cursor + 1 + m = 2 ^ iw - 1 := hlast iw hiw (room_one hadv iw hiw)
    omega

theorem readLiteral_overflows {n : Nat} (v : Block)
    (hin : CursorRoom s.params s.dec.cursor 0) (hno : ¬ CursorRoom s.params s.dec.cursor n) :
    Overflows s (readLiteral n v s) := by
  induction n generalizing s v with
  | zero => exact absurd hin hno
  | succ n ih =>
    refine overflows_readOne_andThen fun hroom => ih _ (room_mono hroom (by simp)) ?_
    exact fun h => hno (room_mono h (by simp; omega))

/-- The reads of a codeword stop short where the cursor lacks room for its length. -/
theorem readBlock_overflows (hno : ¬ CursorRoom s.params s.dec.cursor (codeLength s)) :
    Overflows s (readBlock s) := by
  refine overflows_readOne_andThen fun hroom => ?_
  cases h0 : bitAt s s.dec.bs s.dec.cursor with
  | false =>
    rw [codeLength, if_pos h0] at hno
    exact absurd hroom hno
  | true =>
    rw [codeLength, if_neg (by simp [h0])] at hno
    refine overflows_readOne_andThen fun hroom1 => ?_
    rw [bitAt_advanceDec, advanceDec_dec]
    cases h1 : bitAt s s.dec.bs (s.dec.cursor + 1) with
    | false =>
      rw [if_pos h1] at hno
      exact absurd (room_mono hroom1 (by simp)) hno
    | true =>
      rw [if_neg (by simp [h1])] at hno
      exact readLiteral_overflows 0 (room_mono hroom1 (by simp))
        fun h => hno (room_mono h (by simp))

/-- A codeword that was read has moved the cursor and nothing else. -/
theorem readBlock_done {b : Block} {t : State} (h : readBlock s = .done b t) :
    t = advanceDecBy (codeLength s) s := by
  by_cases hroom : CursorRoom s.params s.dec.cursor (codeLength s)
  · rw [readBlock_completes hroom] at h
    exact (Run.done.inj h).2.symm
  · obtain ⟨m, hm, -⟩ := readBlock_overflows hroom
    rw [hm] at h
    cases h

theorem exec_decBlock_of_ready (hs : DecReady s) :
    exec .decBlock s = finish .decoder .block (readBlock s) := by
  rw [exec, execDecBlock, decGuard_ready hs, guarded_none]

/-- Settles O43: room for the codeword at the cursor decides how the reads end, and each of its bits is read off the
block. -/
theorem decBlockReadsOneCodeword : Obligations.DecBlockReadsOneCodeword := by
  intro s
  refine ⟨fun hs hroom => ⟨blockAtCursor s, ?_, fun h0 => if_pos h0, fun h0 h1 => ?black,
      fun h0 h1 j hj => ?literal⟩,
    fun iw hs hiw hlt hno => ?overflow, fun hg => guarded_decGuard_refuses hg _⟩
  · rw [exec_decBlock_of_ready hs, readBlock_completes hroom, finish_done]
    rfl
  case black =>
    rw [blockAtCursor, if_neg (by simp [h0]), if_pos h1]
    rfl
  case literal =>
    rw [blockAtCursor, if_neg (by simp [h0]), if_neg (by simp [h1]),
      getLsbD_shiftIn _ _ _ _ _ (by omega), if_pos (by omega)]
    congr 2
    omega
  case overflow =>
    obtain ⟨m, hm, hlast⟩ := readBlock_overflows hno
    rw [exec_decBlock_of_ready hs, hm, finish_faulted, ← hlast iw hiw hlt]
    rfl

end Sys2Proof.Machine
end

section
/-! A pixel sequence as its blocks in order (44_decoder.md R137 to R139): one equation for each way `DECODE`'s count
falls into blocks, and what follows from them by induction along the blocks. -/

namespace Sys2Proof.Machine

variable {s t : State} {b : Block}

/-! ### The count in blocks -/

/-- Induction along the blocks of a count: none, the tail of 1 to 3, or one block of 4 before the rest (R137). -/
theorem blocks_induction {P : Nat → Prop} (zero : P 0) (tail : ∀ n, 0 < n → n < 4 → P n)
    (add_four : ∀ n, P n → P (n + 4)) (n : Nat) : P n := by
  induction n using Nat.strong_induction_on with
  | h n ih =>
    rcases Nat.eq_zero_or_pos n with rfl | hpos
    · exact zero
    rcases Nat.lt_or_ge n 4 with hlt | hge
    · exact tail n hpos hlt
    · obtain ⟨k, rfl⟩ := Nat.exists_eq_add_of_le' hge
      exact add_four k (ih k (by omega))

@[simp] theorem readPixels_zero (s : State) : readPixels 0 s = .done [] s := rfl

/-- 1 to 3 pixels are the first of one block (R138). -/
theorem readPixels_tail {n : Nat} (hpos : 0 < n) (hlt : n < 4) (s : State) :
    readPixels n s = andThen (readBlock s) fun b t =>
      .done ((unpackPixels s.params.packOrder b).take n) t := by
  rw [readPixels, Nat.div_eq_of_lt hlt, Nat.mod_eq_of_lt hlt, readGroups, andThen_done,
    if_neg (by omega)]
  rfl

/-- Four pixels more are one block before the rest (R137). -/
theorem readPixels_add_four (n : Nat) (s : State) :
    readPixels (n + 4) s = andThen (readBlock s) fun b t =>
      andThen (readPixels n t) fun px u =>
        .done (unpackPixels s.params.packOrder b ++ px) u := by
  rw [readPixels, Nat.add_div_right n (by omega), Nat.add_mod_right, readGroups, andThen_assoc]
  cases hb : readBlock s with
  | faulted f t => rfl
  | done b t =>
    have hparams : t.params = s.params := by rw [readBlock_done hb]; rfl
    simp only [andThen_done, readPixels, andThen_assoc, hparams]
    congr 1
    funext px u
    split_ifs
    · rfl
    · simp only [andThen_assoc, andThen_done, List.append_assoc]

/-! ### What a run of blocks keeps -/

/-- A fault in the first block ends the whole (R137, D9). -/
theorem readPixels_of_readBlock_faulted {n : Nat} {f : FaultReport} (hpos : 0 < n)
    (hb : readBlock s = .faulted f t) : readPixels n s = .faulted f t := by
  cases n using blocks_induction with
  | zero => exact absurd hpos (Nat.lt_irrefl 0)
  | tail n hpos hlt => rw [readPixels_tail hpos hlt, hb, andThen_faulted]
  | add_four n => rw [readPixels_add_four, hb, andThen_faulted]

/-- A completed run of blocks has moved the cursor and nothing else. -/
theorem readPixels_done {n : Nat} {px : List Pixel} (h : readPixels n s = .done px t) :
    ∃ k, t = advanceDecBy k s := by
  induction n using blocks_induction generalizing s px with
  | zero => exact ⟨0, (Run.done.inj h).2.symm⟩
  | tail n hpos hlt =>
    rw [readPixels_tail hpos hlt, andThen_eq_done_iff] at h
    obtain ⟨b, u, hu, he⟩ := h
    exact ⟨_, (Run.done.inj he).2.symm.trans (readBlock_done hu)⟩
  | add_four n ih =>
    rw [readPixels_add_four, andThen_eq_done_iff] at h
    obtain ⟨b, u, hu, hrest⟩ := h
    obtain ⟨px', t', hpx, he⟩ := andThen_eq_done_iff.mp hrest
    obtain ⟨-, rfl⟩ := Run.done.inj he
    obtain ⟨k, rfl⟩ := ih hpx
    exact ⟨_, by rw [readBlock_done hu, advanceDecBy_add]⟩

theorem readPixels_answer (n : Nat) (r : Response) (s : State) :
    readPixels n (answer r s) = (readPixels n s).withResponse r := by
  induction n using blocks_induction generalizing s with
  | zero => rfl
  | tail n hpos hlt =>
    rw [readPixels_tail hpos hlt, readPixels_tail hpos hlt, readBlock_answer]
    exact andThen_withResponse fun _ _ => rfl
  | add_four n ih =>
    rw [readPixels_add_four, readPixels_add_four, readBlock_answer]
    refine andThen_withResponse fun b t => ?_
    rw [ih]
    exact andThen_withResponse fun _ _ => rfl

/-! ### The operation -/

theorem exec_decode_of_ready (hs : DecReady s) (n : Nat) :
    exec (.decode n) s = finish .decoder .pixels (readPixels n s) := by
  rw [exec, execDecode, decGuard_ready hs, guarded_none]

/-- After a completed `DEC_BLOCK` the session is ready for the rest, and the answer standing there has no effect. -/
theorem exec_decode_of_readBlock_done (hs : DecReady s) (hb : readBlock s = .done b t)
    (r : Response) (n : Nat) :
    exec (.decode n) (answer r t) = finish .decoder .pixels (readPixels n t) := by
  have hready : DecReady (answer r t) := by rw [readBlock_done hb]; exact hs
  rw [exec_decode_of_ready hready, readPixels_answer, finish_withResponse]

/-- Where a completed run leaves no fault behind, a faulted session afterwards is one the run itself faulted. -/
theorem finish_decoder_faulted {α : Type} {g : α → Response} {x : Run α} {m : State}
    (hdone : ∀ a t, x = .done a t → t.dec.fault = none)
    (h : finish .decoder g x = .next m) (hfault : m.dec.fault ≠ none) :
    ∃ f t, x = .faulted f t ∧ m = takeFault .decoder f t := by
  obtain ⟨a, t, ht, rfl⟩ | hf := finish_eq_next h
  · exact absurd (hdone a t ht) hfault
  · exact hf

theorem readBlock_done_fault (hs : s.dec.fault = none) (h : readBlock s = .done b t) :
    t.dec.fault = none := by
  rw [readBlock_done h]
  exact hs

theorem readPixels_done_fault {n : Nat} {px : List Pixel} (hs : s.dec.fault = none)
    (h : readPixels n s = .done px t) : t.dec.fault = none := by
  obtain ⟨k, rfl⟩ := readPixels_done h
  exact hs

/-- A `DEC_BLOCK` that answers a block has read it. -/
theorem readBlock_of_exec_decBlock {m : State} (hs : DecReady s)
    (h : exec .decBlock s = .next m) (hm : m.response = .block b) :
    ∃ t, readBlock s = .done b t ∧ m = answer (.block b) t := by
  rw [exec_decBlock_of_ready hs] at h
  obtain ⟨a, t, ht, rfl⟩ | ⟨f, t, -, rfl⟩ := finish_eq_next h
  · obtain rfl := Response.block.inj hm
    exact ⟨t, ht, rfl⟩
  · cases hm

/-- A faulted `DEC_BLOCK` faulted in its reads. -/
theorem readBlock_of_exec_decBlock_faulted {m : State} (hs : DecReady s)
    (h : exec .decBlock s = .next m) (hfault : m.dec.fault ≠ none) :
    ∃ f t, readBlock s = .faulted f t ∧ m = takeFault .decoder f t := by
  rw [exec_decBlock_of_ready hs] at h
  exact finish_decoder_faulted (fun _ _ => readBlock_done_fault hs.2.1) h hfault

/-- Settles O45: each clause is one equation of the count in blocks, run on from the state `DEC_BLOCK` left. -/
theorem decodeRunsItsBlocksInOrder : Obligations.DecodeRunsItsBlocksInOrder := by
  intro s
  refine ⟨fun hs => ?none, fun m b n hs hm hr => ?_, fun m n hs hm hfault hpos => ?fault,
    fun hg _ => guarded_decGuard_refuses hg _⟩
  case none =>
    rw [exec_decode_of_ready hs, readPixels_zero, finish_done]
    rfl
  case fault =>
    obtain ⟨f, t, hb, rfl⟩ := readBlock_of_exec_decBlock_faulted hs hm hfault
    rw [exec_decode_of_ready hs, readPixels_of_readBlock_faulted hpos hb, finish_faulted]
  obtain ⟨t, hb, rfl⟩ := readBlock_of_exec_decBlock hs hm hr
  rw [exec_decode_of_readBlock_done hs hb, exec_decode_of_ready hs (n + 4), readPixels_add_four,
    hb, andThen_done]
  refine ⟨fun hpos hlt => ?tail, fun u px hu hpx => ?rest, fun u hu hfault => ?restFault⟩
  case tail =>
    rw [exec_decode_of_ready hs, readPixels_tail hpos hlt, hb, andThen_done, finish_done]
    rfl
  case rest =>
    obtain ⟨a, v, ha, rfl⟩ | ⟨f, v, -, rfl⟩ := finish_eq_next hu
    · obtain rfl := Response.pixels.inj hpx
      rw [ha, andThen_done, finish_done]
      rfl
    · cases hpx
  case restFault =>
    have hnone : t.dec.fault = none := readBlock_done_fault hs.2.1 hb
    obtain ⟨f, v, hf, rfl⟩ :=
      finish_decoder_faulted (fun _ _ => readPixels_done_fault hnone) hu hfault
    rw [hf, andThen_faulted, finish_faulted]

/-! ### Past the end -/

theorem unpackPixels_white (o : PackOrder) :
    unpackPixels o whiteBlock = List.replicate 4 white := by
  cases o <;> decide

/-- Where only 0 bits remain, each block read is the one-bit codeword of White (R77). -/
theorem readPixels_of_zero_bits (n : Nat) (hroom : CursorRoom s.params s.dec.cursor ((n + 3) / 4))
    (hzero : ∀ i, s.dec.cursor ≤ i → bitAt s s.dec.bs i = false) :
    readPixels n s = .done (List.replicate n white) (advanceDecBy ((n + 3) / 4) s) := by
  induction n using blocks_induction generalizing s with
  | zero => rfl
  | tail n hpos hlt =>
    have hone : (n + 3) / 4 = 1 := by omega
    rw [hone] at hroom ⊢
    rw [readPixels_tail hpos hlt, readBlock_white hroom (hzero _ le_rfl), andThen_done,
      unpackPixels_white, List.take_replicate, Nat.min_eq_left hlt.le]
  | add_four n ih =>
    have hcount : (n + 4 + 3) / 4 = (n + 3) / 4 + 1 := by omega
    rw [hcount] at hroom ⊢
    rw [readPixels_add_four, readBlock_white (room_mono hroom (by omega)) (hzero _ le_rfl),
      andThen_done, ih (s := advanceDecBy 1 s) (room_succ hroom)
        fun i hi => hzero i (Nat.le_of_succ_le hi),
      andThen_done, unpackPixels_white, List.replicate_append_replicate, advanceDecBy_add,
      Nat.add_comm 4 n, Nat.add_comm 1]

/-- Settles O47: `DECODE` runs as its pixel sequence does where only 0 bits remain. -/
theorem decodePastTheEndGivesWhite : Obligations.DecodePastTheEndGivesWhite := by
  intro s n hs hroom hzero
  rw [exec_decode_of_ready hs, readPixels_of_zero_bits n hroom hzero, finish_done]
  rfl

end Sys2Proof.Machine
end

section
/-! Transactions and codewords (30_encoding.md R71 to R81): what each operand shape accepts, and that decoding and encoding
undo each other. -/

namespace Sys2Proof

/-! ### What each operand shape accepts -/

variable {t : Transaction} {i : Instr}

theorem noOperand_eq_instr_iff {j : Instr} :
    noOperand t j = .instr i ↔ t.operands = [] ∧ j = i := by
  unfold noOperand
  split <;> simp_all

theorem oneOperand_eq_instr_iff {f : Nat → Decoded} :
    oneOperand t f = .instr i ↔ ∃ a, t.operands = [a] ∧ f a = .instr i := by
  unfold oneOperand
  split <;> simp_all

theorem twoOperands_eq_instr_iff {f : Nat → Nat → Decoded} :
    twoOperands t f = .instr i ↔ ∃ a b, t.operands = [a, b] ∧ f a b = .instr i := by
  unfold twoOperands
  split <;> simp_all

theorem threeOperands_eq_instr_iff {f : Nat → Nat → Nat → Decoded} :
    threeOperands t f = .instr i ↔ ∃ a b c, t.operands = [a, b, c] ∧ f a b c = .instr i := by
  unfold threeOperands
  split <;> simp_all

theorem fourOperands_eq_instr_iff {f : Nat → Nat → Nat → Nat → Decoded} :
    fourOperands t f = .instr i ↔
      ∃ a b c d, t.operands = [a, b, c, d] ∧ f a b c d = .instr i := by
  unfold fourOperands
  split <;> simp_all

theorem ifWidth_eq_instr_iff {ok : Bool} {j : Instr} :
    ifWidth t ok j = .instr i ↔ ok = true ∧ j = i := by
  cases ok <;> simp [ifWidth]

/-! ### Pixels as naturals -/

theorem pixelsFit_map_toNat (px : List Pixel) : pixelsFit (px.map BitVec.toNat) = true := by
  simp only [pixelsFit, List.all_map, List.all_eq_true, Function.comp_apply, decide_eq_true_eq]
  exact fun x _ => x.isLt

theorem map_ofNat_map_toNat (px : List Pixel) :
    (px.map BitVec.toNat).map (BitVec.ofNat 8) = px := by
  simp [Function.comp_def]

theorem map_toNat_map_ofNat {ns : List Nat} (h : pixelsFit ns = true) :
    (ns.map (BitVec.ofNat 8)).map BitVec.toNat = ns := by
  rw [List.map_map]
  refine (List.map_congr_left fun n hn => ?_).trans (List.map_id ns)
  rw [pixelsFit, List.all_eq_true] at h
  exact Nat.mod_eq_of_lt (of_decide_eq_true (h n hn))

/-! ### Both directions -/

/-- A codeword's own bits are read back as the codeword, with nothing over. -/
theorem decode_codeword {x : List Bool} (p : Params) (hi : encode i = .stream x) :
    decode p (encode i) = .instr i := by
  have hstream : decodeStream x = some (i, []) := by
    simpa using decodeStream_codeword_append hi []
  rw [hi, decode, hstream]

/-- Settles O1: a codeword is read off its own bits, and a transaction's code selects the operation whose operands pass
their width tests, which well-formedness is. -/
theorem decodeEncodeAgree : Obligations.DecodeEncodeAgree := by
  intro p i hwf
  cases i with
  | cwWhite | cwBlack | cwLiteral => exact decode_codeword p rfl
  | bsTest h i | bsSet h i | bsClear h i => exact ifWidth_eq_instr_iff.mpr ⟨hwf, rfl⟩
  | bsLoadWord who h k v =>
    exact ifWidth_eq_instr_iff.mpr ⟨hwf, by rw [BitVec.ofNat_toNat, BitVec.setWidth_eq]⟩
  | combine a b c d =>
    refine ifWidth_eq_instr_iff.mpr ⟨pixelsFit_map_toNat [a, b, c, d], ?_⟩
    simp only [BitVec.ofNat_toNat, BitVec.setWidth_eq]
  | split b | encBlock b =>
    refine ifWidth_eq_instr_iff.mpr ⟨decide_eq_true b.isLt, ?_⟩
    rw [BitVec.ofNat_toNat, BitVec.setWidth_eq]
  | encode px =>
    exact ifWidth_eq_instr_iff.mpr ⟨pixelsFit_map_toNat px, by rw [map_ofNat_map_toNat]⟩
  | _ => rfl

/-- Settles O2: the code has selected one row of R80's table, whose operand shape and width tests are read back; a code
past the table selects nothing. -/
theorem oneTransactionPerInstruction : Obligations.OneTransactionPerInstruction := by
  rintro p ⟨code, who, operands⟩ i h
  have hcode {k : Nat} (hk : code.toNat = k) : code = BitVec.ofNat 5 k := by
    rw [← hk, BitVec.ofNat_toNat, BitVec.setWidth_eq]
  unfold decodeOp at h
  dsimp only at h
  split at h
  -- The cases are the rows of R80's table in order, grouped by operand shape; the last is the reserved codes.
  case h_24 => cases h
  all_goals
    rename_i hk
    obtain rfl := hcode hk
  case h_12 | h_13 | h_14 | h_15 | h_19 | h_20 | h_21 | h_22 =>
    obtain ⟨rfl, rfl⟩ := noOperand_eq_instr_iff.mp h
    exact ⟨rfl, rfl, .driver, rfl⟩
  case h_6 | h_11 | h_18 | h_23 =>
    obtain ⟨a, rfl, hi⟩ := oneOperand_eq_instr_iff.mp h
    obtain rfl := Decoded.instr.inj hi
    exact ⟨rfl, rfl, .driver, rfl⟩
  case h_10 | h_16 =>
    obtain ⟨a, rfl, hi⟩ := oneOperand_eq_instr_iff.mp h
    obtain ⟨ha, rfl⟩ := ifWidth_eq_instr_iff.mp hi
    refine ⟨rfl, rfl, .driver, ?_⟩
    rw [encode, BitVec.toNat_ofNat, Nat.mod_eq_of_lt (of_decide_eq_true ha)]
    rfl
  case h_1 | h_5 =>
    obtain ⟨a, b, rfl, hi⟩ := twoOperands_eq_instr_iff.mp h
    obtain rfl := Decoded.instr.inj hi
    exact ⟨rfl, rfl, .driver, rfl⟩
  case h_7 =>
    obtain ⟨a, b, rfl, hi⟩ := twoOperands_eq_instr_iff.mp h
    obtain rfl := Decoded.instr.inj hi
    exact ⟨rfl, rfl, who, rfl⟩
  case h_2 | h_3 | h_4 =>
    obtain ⟨a, b, rfl, hi⟩ := twoOperands_eq_instr_iff.mp h
    obtain ⟨hb, rfl⟩ := ifWidth_eq_instr_iff.mp hi
    exact ⟨hb, rfl, .driver, rfl⟩
  case h_8 =>
    obtain ⟨a, b, c, rfl, hi⟩ := threeOperands_eq_instr_iff.mp h
    obtain ⟨hc, rfl⟩ := ifWidth_eq_instr_iff.mp hi
    have hv : (BitVec.ofNat 64 c).toNat = c := by
      rw [BitVec.toNat_ofNat]
      exact Nat.mod_eq_of_lt ((of_decide_eq_true hc).trans_le
        (Nat.pow_le_pow_right (by omega) (Machine.params_w_bounds p).2))
    exact ⟨by rwa [wellFormed, wordFits, hv], rfl, who, by rw [encode, hv]; rfl⟩
  case h_9 =>
    obtain ⟨a, b, c, d, rfl, hi⟩ := fourOperands_eq_instr_iff.mp h
    obtain ⟨hpx, rfl⟩ := ifWidth_eq_instr_iff.mp hi
    have hmap : [_, _, _, _] = [a, b, c, d] := map_toNat_map_ofNat hpx
    exact ⟨rfl, rfl, .driver, by rw [encode, hmap]; rfl⟩
  case h_17 =>
    obtain ⟨hpx, rfl⟩ := ifWidth_eq_instr_iff.mp h
    exact ⟨rfl, rfl, .driver, by rw [encode, map_toNat_map_ofNat hpx]; rfl⟩

/-! ### The code is complete -/

/-- The literal's value bits are the bits read, the last one read lowest (R72). -/
theorem getLsbD_literalOfBits (bits : List Bool) (k : Nat) (hk : k < 32) :
    (literalOfBits bits).getLsbD k = bits.reverse.getD k false := by
  induction bits using List.reverseRecOn generalizing k with
  | nil => simp [literalOfBits]
  | append_singleton bits t ih =>
    have hstep : literalOfBits (bits ++ [t])
        = (literalOfBits bits <<< 1) ||| (BitVec.ofBool t).setWidth 32 := List.foldl_append
    rw [hstep, List.reverse_append]
    cases k with
    | zero => simp
    | succ k => simpa [hk, show k < 32 by omega] using ih k (by omega)

/-- Thirty-two bits are the literal bits of the value they make. -/
theorem literalBits_literalOfBits {bits : List Bool} (hlen : bits.length = 32) :
    literalBits (literalOfBits bits) = bits := by
  refine List.ext_getElem (by rw [length_literalBits, hlen]) fun j hj hj' => ?_
  rw [length_literalBits] at hj
  have hrev : bits.length - 1 - (31 - j) = j := by omega
  have hlt : 31 - j < bits.length := by omega
  simp [literalBits, getLsbD_literalOfBits bits (31 - j) (by omega), hlt, hrev]

/-- Settles O4: the first one or two bits name the codeword, and thirty-four hold a whole one of any kind. -/
theorem everyBitStringBeginsWithACodeword : Obligations.EveryBitStringBeginsWithACodeword := by
  intro bits hlen
  match bits with
  | false :: rest => exact ⟨.cwWhite, [false], rest, rfl, rfl, rfl⟩
  | true :: false :: rest => exact ⟨.cwBlack, [true, false], rest, rfl, rfl, rfl⟩
  | true :: true :: rest =>
    have hrest : 32 ≤ rest.length := by simpa using hlen
    refine ⟨.cwLiteral (literalOfBits (rest.take 32)), true :: true :: rest.take 32, rest.drop 32,
      if_pos hrest, ?_, by simp⟩
    rw [encode, literalBits_literalOfBits (List.length_take_of_le hrest)]
  | [] | [true] => simp at hlen

/-- Settles O5: each row is looked up by evaluation. -/
theorem sampleEncodingsDecode : Obligations.SampleEncodingsDecode := by
  exact ⟨rfl, rfl, rfl, rfl, rfl, rfl, rfl, rfl, rfl, rfl, rfl, rfl, rfl, rfl, rfl, rfl, rfl, rfl, rfl, rfl, rfl, rfl,
    rfl, rfl, rfl, by decide⟩

end Sys2Proof
end

section
/-! The step and the reset (00_scope.md R15; 70_reset_and_hazards.md R210), and the numbers of the faults
(60_exceptions.md R191). -/

namespace Sys2Proof.Machine

variable {s : State}

/-! ### What a step takes -/

theorem step_of_op {t : Transaction} {rest : List Input} {i : Instr} (hin : s.inputs = .op t :: rest)
    (hdec : decodeOp s.params t = .instr i) : step s = exec i { s with inputs := rest } := by
  simp only [step, hin, hdec]

theorem step_of_rejected {t : Transaction} {rest : List Input} {e : DecodeError}
    (hin : s.inputs = .op t :: rest) (hdec : decodeOp s.params t = .rejected e) :
    step s = .refused (.undecodable e) := by
  simp only [step, hin, hdec]

theorem step_of_reset {rest : List Input} (hin : s.inputs = .reset :: rest) :
    step s = .next (applyReset { s with inputs := rest }) := by
  simp only [step, hin]

/-- A code past the table selects no operation (R81). -/
theorem decodeOp_of_reserved (p : Params) {t : Transaction} (h : 0x17 ≤ t.code.toNat) :
    decodeOp p t = .rejected (.reservedCode t.code) := by
  unfold decodeOp
  split
  case h_24 => rfl
  all_goals omega

/-- Settles O6: the queue's head is taken and decoded, and that instruction is run. -/
theorem stepRunsTheDecodedInstruction : Obligations.StepRunsTheDecodedInstruction :=
  fun _ _ _ _ hin hdec => step_of_op hin hdec

/-- Settles O7: decoding rejects the code by name, and the step passes that on. -/
theorem reservedCodesAreRefused : Obligations.ReservedCodesAreRefused :=
  fun _ _ _ hin hcode => step_of_rejected hin (decodeOp_of_reserved _ hcode)

/-! ### Reset -/

theorem indexFits_iff_room (p : Params) (c : Nat) : indexFits p c = true ↔ CursorRoom p c 0 := by
  unfold indexFits CursorRoom
  cases p.indexBits <;> simp

theorem indexFits_zero (p : Params) : indexFits p 0 = true :=
  (indexFits_iff_room p 0).mpr fun iw _ => Nat.two_pow_pos iw

theorem SessionWf_reset (p : Params) (nbs : Nat) : SessionWf p nbs Session.reset :=
  ⟨indexFits_zero p, fun hopen => absurd hopen Bool.false_ne_true⟩

/-- The reset state meets the invariant wherever there is a store (00_scope.md R12). -/
theorem Inv_resetOf (p : Params) {nbs : Nat} (h : 1 ≤ nbs) : Inv (State.resetOf p nbs) := by
  have hlen : (State.resetOf p nbs).stores.length = nbs := List.length_replicate
  refine ⟨Memory_wf_reset p nbs, by rwa [hlen], SessionWf_reset p _, SessionWf_reset p _, ?_, ?_⟩
  · exact fun ⟨hopen, _⟩ => Bool.false_ne_true hopen
  · exact (Option.some_ne_none _).symm

/-- Reset applied to a running state that has a store meets the invariant. -/
theorem Inv_applyReset (h : 1 ≤ s.stores.length) : Inv (applyReset s) :=
  Inv_resetOf s.params h

/-- Settles O8: the reset state of the instance, with the queue's rest. -/
theorem resetMayBeAppliedAtAnyTime : Obligations.ResetMayBeAppliedAtAnyTime := by
  intro s rest hin
  refine ⟨_, step_of_reset hin, rfl, rfl, List.length_replicate, fun st hst => ?_,
    rfl, rfl, rfl, rfl, rfl, rfl⟩
  rw [List.eq_of_mem_replicate hst]
  rfl

/-- Settles O9: the values are the definition's, and the invariant holds of them. -/
theorem resetMeetsTheInvariant : Obligations.ResetMeetsTheInvariant := by
  intro p nbs h
  refine ⟨Inv_resetOf p h, List.length_replicate, fun st hst => ?_, rfl, rfl, rfl, rfl, rfl, rfl⟩
  rw [List.eq_of_mem_replicate hst]
  rfl

/-- Settles O48: a fault's number depends on its kind alone. -/
theorem faultCodesAreNumbered : Obligations.FaultCodesAreNumbered :=
  ⟨rfl, fun _ _ => rfl, fun _ => rfl⟩

end Sys2Proof.Machine
end

section
/-! The host's store operations (20_memory.md R46 to R51): what each bit operation leaves at every place, and the refused
uses of R60 and R194. -/

namespace Sys2Proof.Machine

variable {s : State} {h : Nat}

/-! ### Every bit after a store was replaced -/

/-- What a replaced store changes: the bits of that store, if it is one of the instance. -/
theorem bitAt_setStore (s : State) (h : Nat) (st : Store) (g i : Nat) :
    bitAt (setStore s h st) g i =
      if g = h ∧ h < s.stores.length then testBit s.params.w st i else bitAt s g i := by
  by_cases hg : g = h
  · subst hg
    by_cases hlt : g < s.stores.length
    · rw [if_pos ⟨rfl, hlt⟩, bitAt_setStore_same st i hlt]
    · rw [if_neg fun hc => hlt hc.2, bitAt, bitAt, storeAt, storeAt, setStore_stores, setStore_params,
        List.set_eq_of_length_le (Nat.le_of_not_lt hlt)]
  · rw [if_neg fun hc => hg hc.1, bitAt, storeAt_setStore_other _ _ _ hg, setStore_params, bitAt]

theorem OtherStoresKept_setStore (s : State) (h : Nat) (st : Store) :
    OtherStoresKept h s (setStore s h st) :=
  ⟨List.length_set, fun _ hg => storeAt_setStore_other _ _ _ hg⟩

theorem bitAt_writeClear (hh : h < s.stores.length) (i j : Nat) :
    bitAt (writeClear h i s) h j = if j = i then false else bitAt s h j := by
  have hw := params_w_bounds s.params
  rw [writeClear, bitAt_setStore_same _ _ hh, testBit_clearBit hw.1 hw.2, bitAt]

/-! ### Setting a bit -/

theorem writeSet_of_fits {i : Nat} (hfit : OneFits s.params (storeAt s h).wordCount i) :
    writeSet h i s = .done () (setStore s h (setBit s.params.w (storeAt s h) i)) := by
  refine if_neg fun ⟨hpast, hover⟩ => hfit.elim (Nat.not_lt.mpr hpast) fun hallowed => ?_
  exact Bool.false_ne_true (hover.symm.trans hallowed)

theorem writeSet_of_not_fits {i : Nat} (hfit : ¬ OneFits s.params (storeAt s h).wordCount i) :
    writeSet h i s = .faulted (.allocationFailed h (i / s.params.w + 1)) s := by
  rw [OneFits, not_or, Nat.not_lt, Bool.not_eq_true] at hfit
  exact if_pos hfit

theorem bitAt_setStore_setBit (hh : h < s.stores.length) (i j : Nat) :
    bitAt (setStore s h (setBit s.params.w (storeAt s h) i)) h j =
      if j = i then true else bitAt s h j := by
  have hw := params_w_bounds s.params
  rw [bitAt_setStore_same _ _ hh, testBit_setBit hw.1 hw.2, bitAt]

theorem exec_bsSet_of_mayWrite (i : Nat) (hw : HostMayWrite h s) :
    exec (.bsSet h i) s = finish .host (fun _ => .done) (writeSet h i s) :=
  guarded_hostWriteGuard_of_mayWrite hw _

theorem exec_bsSet_of_fits {i : Nat} (hw : HostMayWrite h s)
    (hfit : OneFits s.params (storeAt s h).wordCount i) :
    exec (.bsSet h i) s =
      .next (answer .done (setStore s h (setBit s.params.w (storeAt s h) i))) := by
  rw [exec_bsSet_of_mayWrite i hw, writeSet_of_fits hfit, finish_done]

/-- Settles O13: where the 1 fits, the BitSet law and the grown word count; where it does not, the fault. -/
theorem bsSetSetsOneBit : Obligations.BsSetSetsOneBit := by
  intro s h i
  refine ⟨fun hw hfit => ?_, fun hw hfit => ?_, fun hw => guarded_hostWriteGuard_refuses hw _⟩
  · refine ⟨_, exec_bsSet_of_fits hw hfit, rfl, OtherStoresKept_setStore _ _ _,
      bitAt_setStore_setBit hw.1 i, ?_⟩
    rw [storeAt_answer, storeAt_setStore_same _ _ _ hw.1, wordCount_setBit]
    split_ifs <;> omega
  · rw [exec_bsSet_of_mayWrite i hw, writeSet_of_not_fits hfit, finish_faulted]
    rfl

/-! ### Clearing a bit -/

/-- A clear past the last word leaves the store as it is (R48). -/
theorem clearBit_past_end {w i : Nat} {st : Store} (hpast : st.wordCount ≤ i / w) :
    clearBit w st i = st := by
  rw [clearBit, List.modify_eq_self (show st.words.length ≤ wordIndex w i from hpast)]

theorem setStore_storeAt (s : State) (h : Nat) : setStore s h (storeAt s h) = s := by
  by_cases hh : h < s.stores.length
  · simp [setStore, storeAt, hh]
  · simp [setStore, List.set_eq_of_length_le (Nat.le_of_not_lt hh)]

theorem exec_bsClear_of_mayWrite (i : Nat) (hw : HostMayWrite h s) :
    exec (.bsClear h i) s = .next (answer .done (writeClear h i s)) :=
  guarded_hostWriteGuard_of_mayWrite hw _

/-- Settles O14: the BitSet law, and a cleared store has as many words. -/
theorem bsClearClearsOneBit : Obligations.BsClearClearsOneBit := by
  intro s h i
  refine ⟨fun hw => ⟨_, exec_bsClear_of_mayWrite i hw, rfl, OtherStoresKept_setStore _ _ _,
    bitAt_writeClear hw.1 i, ?_, fun hpast => ?_⟩, fun hw => guarded_hostWriteGuard_refuses hw _⟩
  · rw [storeAt_answer, writeClear, storeAt_setStore_same _ _ _ hw.1, wordCount_clearBit]
  · rw [answer_stores, writeClear, clearBit_past_end hpast, setStore_storeAt]

/-! ### Whole words -/

theorem exec_bsWord_of_mayRead (k : Nat) (hr : HostMayRead h s) :
    exec (.bsWord h k) s =
      if (storeAt s h).wordCount ≤ k then .refused .wordIndex
      else .next (answer (.word ((storeAt s h).words.getD k 0)) s) :=
  guarded_hostReadGuard_of_mayRead hr _

theorem exec_bsWord_refuses_past_end {k : Nat} (hk : (storeAt s h).wordCount ≤ k) :
    ∃ r, exec (.bsWord h k) s = .refused r := by
  rw [exec, execBsWord, if_pos hk]
  exact guarded_refuses_of_refused _ _

theorem exec_bsWord_of_lt {k : Nat} (hr : HostMayRead h s) (hk : k < (storeAt s h).words.length) :
    exec (.bsWord h k) s = .next (answer (.word ((storeAt s h).words[k])) s) := by
  rw [exec_bsWord_of_mayRead k hr,
    if_neg (show ¬ (storeAt s h).wordCount ≤ k from Nat.not_le.mpr hk), List.getD_eq_getElem _ _ hk]

/-- Settles O15: past the guard, the word index alone decides. -/
theorem bsWordReadsAWord : Obligations.BsWordReadsAWord := fun _ _ _ =>
  ⟨exec_bsWord_of_lt, exec_bsWord_refuses_past_end, fun hr => guarded_hostReadGuard_refuses hr _⟩

/-- `BS_RESIZE` by the loader on a store it may write (R51). -/
theorem exec_bsResize_of_mayWrite (n : Nat) (hw : HostMayWrite h s) :
    exec (.bsResize .loader h n) s =
      if n < (storeAt s h).wordCount then .refused .shrink
      else if wordsAllowed s.params n = false then
        .next (takeFault .host (.allocationFailed h n) s)
      else .next (answer .done
        { setStore s h { words := (storeAt s h).words ++ drawnWords (n - (storeAt s h).wordCount) s } with
          draws := s.draws + (n - (storeAt s h).wordCount) }) :=
  guarded_hostWriteGuard_of_mayWrite hw _

theorem exec_bsResize_refuses_shrink {n : Nat} (hn : n < (storeAt s h).wordCount) :
    ∃ r, exec (.bsResize .loader h n) s = .refused r := by
  simp only [exec, execBsResize, if_pos hn]
  exact guarded_refuses_of_refused _ _

@[simp] theorem length_drawnWords (m : Nat) (s : State) : (drawnWords m s).length = m := by
  simp [drawnWords]

/-- A drawn word has `W` bits (U1). -/
theorem toNat_lt_of_mem_drawnWords {m : Nat} {v : Word} (hv : v ∈ drawnWords m s) :
    v.toNat < 2 ^ s.params.w := by
  obtain ⟨j, -, rfl⟩ := List.mem_map.mp hv
  exact truncateWord_lt s.params _

/-- A refusal behind the loader's guard: for the loader it is a host write's, and the driver is always refused. -/
theorem guarded_loaderGuard_refuses (who : Issuer) (hw : ¬ HostMayWrite h s)
    (o : Host.Outcome State Fault Refusal) :
    ∃ r, guarded (loaderGuard who h s) o = .refused r := by
  cases who with
  | loader => exact guarded_hostWriteGuard_refuses hw o
  | driver => exact ⟨.notLoader, rfl⟩

/-- Settles O17: the drawn words are the words added, and each ground of refusal or fault stands in its own branch. -/
theorem bsResizeAddsWordsOfAnyValue : Obligations.BsResizeAddsWordsOfAnyValue := by
  intro s h n
  refine ⟨fun hw hle hallowed => ?_, fun hw hle hover => ?_, exec_bsResize_refuses_shrink,
    fun hw => guarded_loaderGuard_refuses .loader hw _, .notLoader, rfl⟩
  · refine ⟨drawnWords (n - (storeAt s h).wordCount) s, length_drawnWords _ s,
      fun v => toNat_lt_of_mem_drawnWords, ?_⟩
    rw [exec_bsResize_of_mayWrite n hw, if_neg (Nat.not_lt.mpr hle), if_neg (by simp [hallowed]),
      length_drawnWords]
    rfl
  · rw [exec_bsResize_of_mayWrite n hw, if_neg (Nat.not_lt.mpr hle), if_pos hover]
    rfl

/-! ### Borrowed stores and other refused uses -/

theorem HostMayWrite.mayRead (hw : HostMayWrite h s) : HostMayRead h s := ⟨hw.1, hw.2.1⟩

/-- A handle past the last store gives no leave to read, and so none to write. -/
theorem not_hostMayRead_of_length_le (hh : s.stores.length ≤ h) : ¬ HostMayRead h s :=
  fun hr => Nat.not_lt.mpr hh hr.1

/-- The decoder's shared borrow shuts out a host write (R60 b). -/
theorem not_hostMayWrite_of_decoderHolds (hopen : s.dec.isOpen = true) (hbs : s.dec.bs = h) :
    ¬ HostMayWrite h s :=
  fun ⟨_, _, hfree⟩ => hfree ⟨hopen, hbs⟩

/-- The store operations a host has, on one store (R60). -/
def hostStoreOps (who : Issuer) (h a b : Nat) (v : Word) : List Instr :=
  [.bsNew h a, .bsTest h a, .bsSet h a, .bsClear h a, .bsWord h a, .bsWordCount h,
   .bsResize who h b, .bsLoadWord who h a v]

/-- Where the host may not even read, the guard of each of its store operations refuses. -/
theorem hostStoreOps_refuse (who : Issuer) (a b : Nat) (v : Word) (hr : ¬ HostMayRead h s) :
    ∀ i ∈ hostStoreOps who h a b v, ∃ r, exec i s = .refused r := by
  have hw : ¬ HostMayWrite h s := fun hw => hr hw.mayRead
  simp only [hostStoreOps, List.forall_mem_cons]
  exact ⟨guarded_hostWriteGuard_refuses hw _, guarded_hostReadGuard_refuses hr _,
    guarded_hostWriteGuard_refuses hw _, guarded_hostWriteGuard_refuses hw _,
    guarded_hostReadGuard_refuses hr _, guarded_hostReadGuard_refuses hr _,
    guarded_loaderGuard_refuses who hw _, guarded_loaderGuard_refuses who hw _,
    List.forall_mem_nil _⟩

theorem exec_encOpen_refuses
    (hg : s.enc.isOpen = true ∨ s.stores.length ≤ h ∨ (s.dec.isOpen = true ∧ s.dec.bs = h)) :
    ∃ r, exec (.encOpen h) s = .refused r :=
  (encOpenStartsASession s h).2 hg

theorem exec_decOpen_refuses
    (hg : s.dec.isOpen = true ∨ s.stores.length ≤ h ∨ (s.enc.isOpen = true ∧ s.enc.bs = h)) :
    ∃ r, exec (.decOpen h) s = .refused r :=
  (decOpenStartsASession s h).2 hg

/-- The end of an operation is always a next state (R190). -/
theorem exists_finish_eq_next {α : Type} (who : Agent) (g : α → Response) (r : Run α) :
    ∃ t, finish who g r = .next t := by
  cases r with
  | done a t => exact ⟨_, rfl⟩
  | faulted f t => exact ⟨_, rfl⟩

/-- Settles O19: each borrow denies the guard what it asks, and a store nobody holds passes it. -/
theorem borrowDiscipline : Obligations.BorrowDiscipline := by
  intro s h a b v who
  refine ⟨fun hopen hbs => ?exclusive, fun hopen hbs => ?shared, fun _ _ hr => ?reads,
    fun hw => ?free⟩
  case exclusive =>
    refine List.forall_mem_append (l₁ := hostStoreOps who h a b v).mpr
      ⟨hostStoreOps_refuse who a b v (not_hostMayRead_of_encoderHolds hopen hbs), ?_⟩
    exact List.forall_mem_singleton.mpr (exec_decOpen_refuses (.inr (.inr ⟨hopen, hbs⟩)))
  case shared =>
    have hw := not_hostMayWrite_of_decoderHolds hopen hbs
    simp only [List.forall_mem_cons]
    exact ⟨guarded_hostWriteGuard_refuses hw _, guarded_hostWriteGuard_refuses hw _,
      guarded_hostWriteGuard_refuses hw _, guarded_loaderGuard_refuses who hw _,
      guarded_loaderGuard_refuses who hw _, exec_encOpen_refuses (.inr (.inr ⟨hopen, hbs⟩)),
      List.forall_mem_nil _⟩
  case reads =>
    simp only [List.forall_mem_cons]
    exact ⟨⟨_, exec_bsTest_of_mayRead a hr, rfl⟩,
      ⟨_, guarded_hostReadGuard_of_mayRead hr _, rfl⟩, List.forall_mem_nil _⟩
  case free =>
    simp only [List.forall_mem_cons]
    refine ⟨?_, ⟨_, exec_bsTest_of_mayRead a hw.mayRead⟩, ?_, ⟨_, exec_bsClear_of_mayWrite a hw⟩,
      ⟨_, guarded_hostReadGuard_of_mayRead hw.mayRead _⟩, List.forall_mem_nil _⟩
    · rw [exec_bsNew_of_mayWrite a hw]
      split_ifs
      · exact ⟨_, rfl⟩
      · exact ⟨_, rfl⟩
    · rw [exec_bsSet_of_mayWrite a hw]
      exact exists_finish_eq_next _ _ _

end Sys2Proof.Machine
end

section
/-! The packer and unpacker once more (40_pixel_block.md R92, R94, R95): packing is one to one and reaches every block. -/

namespace Sys2Proof.Machine

/-- Packing under `P0_LSB` is packing the reversed pixels under `P0_MSB` (R92). -/
theorem packPixels_p0Lsb (p0 p1 p2 p3 : Pixel) :
    packPixels .p0Lsb p0 p1 p2 p3 = packPixels .p0Msb p3 p2 p1 p0 := rfl

/-- Settles O22: reversed pixels under the other order, whose shifts are known. -/
theorem combineUnderP0Lsb : Obligations.CombineUnderP0Lsb := by
  intro s p0 p1 p2 p3 ho
  rw [exec_combine, ho, packPixels_p0Lsb, packPixels_p0Msb_eq_shifts]
  rfl

/-- The four bytes of a block put together again. -/
theorem append_extractLsb'_bytes (b : Block) :
    b.extractLsb' 24 8 ++ b.extractLsb' 16 8 ++ b.extractLsb' 8 8 ++ b.extractLsb' 0 8 = b := by
  rw [BitVec.extractLsb'_append_extractLsb'_eq_extractLsb' (show 24 = 16 + 8 from rfl),
    BitVec.extractLsb'_append_extractLsb'_eq_extractLsb' (show 16 = 8 + 8 from rfl),
    BitVec.extractLsb'_append_extractLsb'_eq_extractLsb' (show 8 = 0 + 8 from rfl)]
  exact BitVec.extractLsb'_eq_self

/-- The pixels of a block pack to the block (R94). -/
theorem exists_packPixels_eq (o : PackOrder) (b : Block) :
    ∃ p0 p1 p2 p3, unpackPixels o b = [p0, p1, p2, p3] ∧ packPixels o p0 p1 p2 p3 = b := by
  cases o with
  | p0Msb => exact ⟨_, _, _, _, rfl, append_extractLsb'_bytes b⟩
  | p0Lsb => exact ⟨_, _, _, _, rfl, append_extractLsb'_bytes b⟩

/-- Settles O24: splitting undoes packing, and every block is the packing of its pixels. -/
theorem splitAndCombineAreInverse : Obligations.SplitAndCombineAreInverse := by
  refine ⟨fun s p0 p1 p2 p3 => ⟨_, _, exec_combine p0 p1 p2 p3 s, rfl, ?_⟩, fun s b => ?_⟩
  · rw [exec_split, answer_params, splitUndoesCombine_holds]
    rfl
  · obtain ⟨p0, p1, p2, p3, hsplit, hpack⟩ := exists_packPixels_eq s.params.packOrder b
    refine ⟨_, p0, p1, p2, p3, exec_split b s, by rw [answer_response, hsplit], ?_⟩
    rw [exec_combine, answer_params, hpack]
    rfl

/-- Packing is one to one. -/
theorem packPixels_inj {o : PackOrder} {p0 p1 p2 p3 q0 q1 q2 q3 : Pixel} :
    packPixels o p0 p1 p2 p3 = packPixels o q0 q1 q2 q3 ↔ p0 = q0 ∧ p1 = q1 ∧ p2 = q2 ∧ p3 = q3 := by
  refine ⟨fun h => ?_, by rintro ⟨rfl, rfl, rfl, rfl⟩; rfl⟩
  have hsplit := congrArg (unpackPixels o) h
  rw [splitUndoesCombine_holds, splitUndoesCombine_holds] at hsplit
  simpa using hsplit

theorem packPixels_white (o : PackOrder) : packPixels o 0xFF 0xFF 0xFF 0xFF = whiteBlock := by
  cases o <;> decide

theorem packPixels_black (o : PackOrder) : packPixels o 0x00 0x00 0x00 0x00 = blackBlock := by
  cases o <;> decide

/-- Pixels that read the same backwards pack alike under both orders. -/
theorem packPixels_palindrome (o o' : PackOrder) (p q : Pixel) :
    packPixels o p q q p = packPixels o' p q q p := by
  cases o <;> cases o' <;> rfl

/-- Settles O25: the two constants are the packings of four white and of four black pixels, and packing is one to one. -/
theorem uniformBlocksIgnoreOrder : Obligations.UniformBlocksIgnoreOrder := by
  intro s p0 p1 p2 p3
  refine ⟨_, _, exec_combine p0 p1 p2 p3 s, rfl, ?_, ?_, ?_⟩
  · exact (Iff.of_eq (congrArg _ (packPixels_white _).symm)).trans packPixels_inj
  · exact (Iff.of_eq (congrArg _ (packPixels_black _).symm)).trans packPixels_inj
  · rintro rfl rfl s'
    exact ⟨_, exec_combine _ _ _ _ s', congrArg Response.block (packPixels_palindrome _ _ _ _)⟩

end Sys2Proof.Machine
end

section
/-! The status reads of both cursors (41_write_cursor.md R104; 43_read_cursor.md R128). -/

namespace Sys2Proof.Machine

theorem exec_encCursor_of_open {s : State} (hopen : s.enc.isOpen = true) :
    exec .encCursor s = .next (answer (.status s.enc.cursor s.enc.fault) s) := by
  rw [exec, execEncCursor, encSessionGuard_of_open hopen, guarded_none]

theorem exec_encCursor_refuses {s : State} (hclosed : s.enc.isOpen = false) :
    ∃ r, exec .encCursor s = .refused r :=
  ⟨.encoderNotOpen, by rw [exec, execEncCursor, encSessionGuard_of_closed hclosed, guarded_some]⟩

theorem exec_decCursor_of_open {s : State} (hopen : s.dec.isOpen = true) :
    exec .decCursor s = .next (answer (.status s.dec.cursor s.dec.fault) s) := by
  rw [exec, execDecCursor, decSessionGuard_of_open hopen, guarded_none]

theorem exec_decCursor_refuses {s : State} (hclosed : s.dec.isOpen = false) :
    ∃ r, exec .decCursor s = .refused r :=
  ⟨.decoderNotOpen, by rw [exec, execDecCursor, decSessionGuard_of_closed hclosed, guarded_some]⟩

/-- Settles O31: the session guard tests nothing but whether the session is open. -/
theorem encCursorReadsStatus : Obligations.EncCursorReadsStatus := fun _ =>
  ⟨exec_encCursor_of_open, exec_encCursor_refuses⟩

/-- Settles O41: the session guard tests nothing but whether the session is open. -/
theorem decCursorReadsStatus : Obligations.DecCursorReadsStatus := fun _ =>
  ⟨exec_decCursor_of_open, exec_decCursor_refuses⟩

/-- Settles O20: each use of the list fails the guard of its operation, or the test behind it. -/
theorem refusedUses : Obligations.RefusedUses := by
  intro s h k n v b px
  refine ⟨fun hclosed => ?_, fun hclosed => ?_, fun hopen => exec_encOpen_refuses (.inl hopen),
    fun hopen => exec_decOpen_refuses (.inl hopen), fun hfault => ?_, fun hfault => ?_,
    fun hk => ?_, exec_bsResize_refuses_shrink, fun hh => ?badHandle, ?_⟩
  case badHandle =>
    refine List.forall_mem_append (l₁ := hostStoreOps .loader h k n v).mpr
      ⟨hostStoreOps_refuse .loader k n v (not_hostMayRead_of_length_le hh), ?_⟩
    simp only [List.forall_mem_cons]
    exact ⟨exec_encOpen_refuses (.inr (.inl hh)), exec_decOpen_refuses (.inr (.inl hh)),
      List.forall_mem_nil _⟩
  all_goals simp only [List.forall_mem_cons]
  · exact ⟨guarded_encGuard_refuses (.inl hclosed) _, guarded_encGuard_refuses (.inl hclosed) _,
      exec_encCursor_refuses hclosed,
      (encCloseEndsTheSession s).2 hclosed, guarded_encGuard_refuses (.inl hclosed) _,
      guarded_encGuard_refuses (.inl hclosed) _, List.forall_mem_nil _⟩
  · exact ⟨guarded_decGuard_refuses (.inl hclosed) _,
      exec_decCursor_refuses hclosed,
      (decCloseEndsTheSession s).2 hclosed, guarded_decGuard_refuses (.inl hclosed) _,
      guarded_decGuard_refuses (.inl hclosed) _, List.forall_mem_nil _⟩
  · exact ⟨guarded_encGuard_refuses (.inr hfault) _, guarded_encGuard_refuses (.inr hfault) _,
      guarded_encGuard_refuses (.inr hfault) _, guarded_encGuard_refuses (.inr hfault) _,
      List.forall_mem_nil _⟩
  · exact ⟨guarded_decGuard_refuses (.inr hfault) _, guarded_decGuard_refuses (.inr hfault) _,
      guarded_decGuard_refuses (.inr hfault) _, List.forall_mem_nil _⟩
  · exact ⟨exec_bsWord_refuses_past_end hk, exec_bsLoadWord_refuses_past_end v hk,
      List.forall_mem_nil _⟩
  · exact ⟨⟨.notLoader, rfl⟩, ⟨.notLoader, rfl⟩, List.forall_mem_nil _⟩

end Sys2Proof.Machine
end

section
/-! What every run of writes keeps, faulted or not: words of `W` bits within `MAX_WORDS`, and a cursor within its range
(10_state.md R20, R28). -/

namespace Sys2Proof.Machine

/-- The state a run ends in, completed or faulted. -/
def Run.state {α : Type} : Run α → State
  | .done _ s => s
  | .faulted _ s => s

@[simp] theorem Run.state_done {α : Type} (a : α) (s : State) : (Run.done a s).state = s := rfl
@[simp] theorem Run.state_faulted {α : Type} (f : FaultReport) (s : State) :
    (Run.faulted (α := α) f s).state = s := rfl

/-- The store an absent handle reads as is well formed too, so a store read is well formed in any memory that is. -/
theorem StoreWf_storeAt {p : Params} {s : State} (hm : Memory.wf p s.stores) (h : Nat) :
    StoreWf p (storeAt s h) := by
  by_cases hh : h < s.stores.length
  · rw [storeAt, List.getD_eq_getElem _ _ hh]
    exact hm _ (List.getElem_mem hh)
  · rw [storeAt, List.getD_eq_default _ _ (Nat.le_of_not_lt hh)]
    exact Memory_wf_reset p 1 _ (List.mem_singleton.mpr rfl)

/-- The state after one primitive write: unchanged, or the cursor one further and the bit cleared or, where a 1 fits,
set. -/
theorem writeBit_state (b : Bool) (s : State) :
    (writeBit b s).state = s ∨
    (canAdvance s.params s.enc.cursor = true ∧
      (writeBit b s).state = advanceEnc (writeClear s.enc.bs s.enc.cursor s)) ∨
    (canAdvance s.params s.enc.cursor = true ∧
      OneFits s.params (storeAt s s.enc.bs).wordCount s.enc.cursor ∧
      (writeBit b s).state = advanceEnc
        (setStore s s.enc.bs (setBit s.params.w (storeAt s s.enc.bs) s.enc.cursor))) := by
  unfold writeBit
  by_cases hadv : canAdvance s.params s.enc.cursor = false
  · exact .inl (by rw [if_pos hadv, Run.state_faulted])
  rw [if_neg hadv]
  rw [Bool.not_eq_false] at hadv
  cases b with
  | false => exact .inr (.inl ⟨hadv, rfl⟩)
  | true =>
    by_cases hfit : OneFits s.params (storeAt s s.enc.bs).wordCount s.enc.cursor
    · exact .inr (.inr ⟨hadv, hfit, by rw [writeSet_of_fits hfit]; rfl⟩)
    · exact .inl (by rw [writeSet_of_not_fits hfit]; rfl)

/-- What each primitive write keeps, a run of them keeps. -/
theorem writeBits_keeps {P : State → Prop} (hbit : ∀ b s, P s → P (writeBit b s).state)
    (bits : List Bool) {s : State} (hs : P s) : P (writeBits bits s).state := by
  induction bits generalizing s with
  | nil => exact hs
  | cons b bs ih =>
    have hb := hbit b s hs
    rw [writeBits]
    cases hrun : writeBit b s with
    | done u t => rw [hrun] at hb; exact ih hb
    | faulted f t => rw [hrun] at hb; exact hb

/-- A cursor that can advance is within its range afterwards. -/
theorem indexFits_succ {p : Params} {c : Nat} (h : canAdvance p c = true) :
    indexFits p (c + 1) = true :=
  (indexFits_iff_room p _).mpr (room_succ (room_one h))

theorem writeBits_keeps_cursorFits (bits : List Bool) {s : State}
    (hs : indexFits s.params s.enc.cursor = true) :
    indexFits (writeBits bits s).state.params (writeBits bits s).state.enc.cursor = true := by
  refine writeBits_keeps (P := fun s => indexFits s.params s.enc.cursor = true) (fun b s hs => ?_) bits hs
  obtain h | ⟨hadv, h⟩ | ⟨hadv, -, h⟩ := writeBit_state b s
  · rwa [h]
  · rw [h]; exact indexFits_succ hadv
  · rw [h]; exact indexFits_succ hadv

theorem writeBits_keeps_memory (bits : List Bool) {s : State} (hs : Memory.wf s.params s.stores) :
    Memory.wf (writeBits bits s).state.params (writeBits bits s).state.stores := by
  refine writeBits_keeps (P := fun s => Memory.wf s.params s.stores) (fun b s hs => ?_) bits hs
  obtain h | ⟨-, h⟩ | ⟨-, hfit, h⟩ := writeBit_state b s
  · rwa [h]
  · rw [h]; exact Memory_wf_set hs (wf_clearBit _ (StoreWf_storeAt hs _))
  · rw [h]; exact Memory_wf_set hs (wf_setBit (StoreWf_storeAt hs _) hfit)

end Sys2Proof.Machine
end

section
/-! The primitive writes as operations (41_write_cursor.md R101, R102), and what a run leaves of the word count (R106). -/

namespace Sys2Proof.Machine

variable {s t : State}

/-! ### The word count -/

/-- A run that wrote no 1 leaves the word count. -/
theorem Wrote.wordCount_of_no_one {bits : List Bool} (hw : Wrote bits s t)
    (hzero : ∀ j < bits.length, bits.getD j false = false) :
    (storeAt t s.enc.bs).wordCount = (storeAt s s.enc.bs).wordCount := by
  obtain h | ⟨j, hj, hone, -⟩ := hw.exact_count
  · exact h
  · exact absurd ((hzero j hj).symm.trans hone) Bool.false_ne_true

/-- The highest 1 a run wrote fixes the word count. -/
theorem Wrote.wordCount_of_highest_one {bits : List Bool} (hw : Wrote bits s t) {m : Nat}
    (hm : m < bits.length) (hone : bits.getD m false = true)
    (htop : ∀ j < bits.length, bits.getD j false = true → j ≤ m) :
    (storeAt t s.enc.bs).wordCount =
      max (storeAt s s.enc.bs).wordCount ((s.enc.cursor + m) / s.params.w + 1) := by
  have hgrows := hw.grows
  have hholds := hw.holds m hm hone
  obtain h | ⟨j, hj, hjone, h⟩ := hw.exact_count
  · omega
  · have hle : (s.enc.cursor + j) / s.params.w ≤ (s.enc.cursor + m) / s.params.w :=
      Nat.div_le_div_right (Nat.add_le_add_left (htop j hj hjone) _)
    omega

/-! ### One primitive write -/

theorem exec_write0_of_ready (hs : EncReady s) :
    exec .write0 s = finish .encoder (fun _ => .done) (writeBit false s) := by
  rw [exec, execWrite0, encGuard_ready hs, guarded_none]

theorem exec_write1_of_ready (hs : EncReady s) :
    exec .write1 s = finish .encoder (fun _ => .done) (writeBit true s) := by
  rw [exec, execWrite1, encGuard_ready hs, guarded_none]

/-- With room for the cursor, and for the 1 if it is one, the bit is written. -/
theorem writeBit_completes {b : Bool} (hbs : s.enc.bs < s.stores.length)
    (hroom : CursorRoom s.params s.enc.cursor 1)
    (hfit : b = true → OneFits s.params (storeAt s s.enc.bs).wordCount s.enc.cursor) :
    ∃ t, writeBit b s = .done () t ∧ Wrote [b] s t := by
  obtain ⟨t, ht, hw, -⟩ | ⟨-, hadv⟩ | ⟨hb, -, hno, -⟩ := writeBit_cases b s hbs
  · exact ⟨t, ht, hw⟩
  · exact absurd (hadv.symm.trans (canAdvance_of_room hroom)) Bool.false_ne_true
  · exact absurd (hfit hb) hno

theorem writeBit_of_cursorLast (b : Bool) (hlast : CursorLast s.params s.enc.cursor) :
    writeBit b s = .faulted (.cursorOverflow .encoder) s :=
  if_pos (canAdvance_of_cursorLast hlast)

theorem writeBit_one_of_not_fits (hroom : CursorRoom s.params s.enc.cursor 1)
    (hno : ¬ OneFits s.params (storeAt s s.enc.bs).wordCount s.enc.cursor) :
    writeBit true s =
      .faulted (.allocationFailed s.enc.bs (s.enc.cursor / s.params.w + 1)) s := by
  rw [writeBit, if_neg (by simp [canAdvance_of_room hroom]),
    writeSet_of_not_fits hno, andThen_faulted]

/-- Every bit after a single one was written. -/
theorem Wrote.bitAt_singleton {b : Bool} (hw : Wrote [b] s t) (j : Nat) :
    bitAt t s.enc.bs j = if j = s.enc.cursor then b else bitAt s s.enc.bs j := by
  rw [hw.stored, overlay_cons, overlay_nil]

/-- Settles O28: a 0 always fits, so room for the cursor alone decides. -/
theorem writeZeroClearsAndAdvances : Obligations.WriteZeroClearsAndAdvances := by
  intro s
  refine ⟨fun hs hroom => ?_, fun hs hlast => ?_, fun hg => guarded_encGuard_refuses hg _⟩
  · obtain ⟨t, ht, hw⟩ := writeBit_completes (b := false) hs.2.2 hroom (fun h => Bool.noConfusion h)
    refine ⟨answer .done t, by rw [exec_write0_of_ready hs, ht, finish_done], hw.frame, rfl, hw.enc,
      hw.bitAt_singleton, hw.wordCount_of_no_one fun j hj => ?_⟩
    rw [Nat.lt_one_iff.mp hj]
    rfl
  · rw [exec_write0_of_ready hs, writeBit_of_cursorLast false hlast, finish_faulted]
    rfl

/-- Settles O29: room for the cursor is tested before room for the 1. -/
theorem writeOneSetsAndAdvances : Obligations.WriteOneSetsAndAdvances := by
  intro s
  refine ⟨fun hs hroom hfit => ?_, fun hs hlast => ?_, fun hs hroom hno => ?_,
    fun hg => guarded_encGuard_refuses hg _⟩
  · obtain ⟨t, ht, hw⟩ := writeBit_completes (b := true) hs.2.2 hroom fun _ => hfit
    refine ⟨answer .done t, by rw [exec_write1_of_ready hs, ht, finish_done], hw.frame, rfl, hw.enc,
      hw.bitAt_singleton, ?_⟩
    rw [storeAt_answer, hw.wordCount_of_highest_one (m := 0) Nat.one_pos rfl
      fun j hj _ => Nat.le_of_lt_succ hj, Nat.add_zero s.enc.cursor]
    split_ifs <;> omega
  · rw [exec_write1_of_ready hs, writeBit_of_cursorLast true hlast, finish_faulted]
    rfl
  · rw [exec_write1_of_ready hs, writeBit_one_of_not_fits hroom hno, finish_faulted]
    rfl

end Sys2Proof.Machine
end

section
/-! The statements about whole `ENCODE` calls (42_encoder.md R112 to R120; 41_write_cursor.md R106). -/

namespace Sys2Proof.Machine

variable {s t : State}

/-! ### A pixel sequence as blocks and as bits -/

theorem length_blocksOf (o : PackOrder) (px : List Pixel) :
    (blocksOf o px).length = (px.length + 3) / 4 := by
  induction px using blocksOf.induct with
  | case1 | case2 | case3 | case4 => simp [blocksOf]
  | case5 a b c d rest ih => simp only [blocksOf, List.length_cons, ih]; omega

/-- A sequence of whole blocks is divided before what follows it (R113). -/
theorem blocksOf_append (o : PackOrder) {x : List Pixel} (hx : x.length % 4 = 0) (y : List Pixel) :
    blocksOf o (x ++ y) = blocksOf o x ++ blocksOf o y := by
  induction x using blocksOf.induct with
  | case1 => rfl
  | case2 | case3 | case4 => simp at hx
  | case5 a b c d rest ih =>
    have hrest : rest.length % 4 = 0 := by simp only [List.length_cons] at hx; omega
    simp only [List.cons_append, blocksOf, ih hrest]

theorem streamOf_append (o : PackOrder) {x : List Pixel} (hx : x.length % 4 = 0) (y : List Pixel) :
    streamOf o (x ++ y) = streamOf o x ++ streamOf o y := by
  rw [streamOf, blocksOf_append o hx, List.flatMap_append, streamOf, streamOf]

theorem length_streamOf (o : PackOrder) (px : List Pixel) :
    (streamOf o px).length = ((blocksOf o px).map blockCost).sum := by
  simp [streamOf, List.length_flatMap]

/-- `ENCODE` is one run of primitive writes: the stream of its pixels (R115). -/
theorem exec_encode_eq_stream (hs : EncReady s) (px : List Pixel) :
    exec (.encode px) s = finish .encoder (fun _ => .done)
      (writeBits (streamOf s.params.packOrder px) s) := by
  rw [exec_encode_of_ready hs, writeBlocks_eq, streamOf]

/-- An operation under the encoder's guard that ends in a next state had a ready session. -/
theorem encReady_of_guarded_eq_next {o : Host.Outcome State Fault Refusal}
    (h : guarded (encGuard s) o = .next t) : EncReady s := by
  refine (encGuard_eq_none_iff s).mp (not_not.mp fun hg => ?_)
  obtain ⟨r, hr⟩ := guarded_refuses_of_ne_none hg o
  rw [hr] at h
  cases h

theorem encReady_of_exec_encode {px : List Pixel} (h : exec (.encode px) s = .next t) :
    EncReady s :=
  encReady_of_guarded_eq_next h

/-- A coding operation that left no fault has written all its bits. -/
theorem wrote_of_finish_writeBits {bits : List Bool} (hs : EncReady s)
    (h : finish .encoder (fun _ => .done) (writeBits bits s) = .next t) (ht : t.enc.fault = none) :
    ∃ m, writeBits bits s = .done () m ∧ Wrote bits s m ∧ t = answer .done m := by
  obtain ⟨m, hm, hw⟩ | ⟨n, f, m, -, hm, -, -⟩ := writeBits_cases bits s hs.2.2
  · rw [hm] at h
    exact ⟨m, hm, hw, (Host.Outcome.next.inj h).symm⟩
  · rw [hm] at h
    obtain rfl := Host.Outcome.next.inj h
    cases ht

/-- Settles O34: the whole stream is one run of writes, which completes where the cursor has room and each 1 fits. -/
theorem encodeWritesItsStream : Obligations.EncodeWritesItsStream := by
  intro s px hs hroom hones
  obtain ⟨t, ht, hw⟩ := writeBits_completes _ s hs.2.2 hroom hones
  refine ⟨length_blocksOf _ px, answer .done t, ?_, hw.frame, rfl, ?_, hw.stored⟩
  · rw [exec_encode_eq_stream hs, ht, finish_done]
  · rw [answer_enc, hw.enc, length_streamOf]

/-- Settles O35: whole blocks are divided alike in one call and in two, and the response between the calls has no
effect. -/
theorem encodeCallsConcatenate : Obligations.EncodeCallsConcatenate := by
  intro s m x y hx hm hfault
  have hs := encReady_of_exec_encode hm
  rw [exec_encode_eq_stream hs] at hm
  obtain ⟨t, ht, hw, rfl⟩ := wrote_of_finish_writeBits hs hm hfault
  have hready : EncReady (answer .done t) := hw.encReady hs
  have hparams : t.params = s.params := hw.frame.1
  rw [exec_encode_eq_stream hs, exec_encode_eq_stream hready, writeBits_answer, finish_withResponse,
    answer_params, hparams, streamOf_append _ hx, writeBits_append, ht, andThen_done]

/-- Settles O37: a completed run's word count is fixed by the highest 1 it wrote. -/
theorem wordCountFollowsTheHighestOne : Obligations.WordCountFollowsTheHighestOne := by
  rintro s t px _ hs rfl ht hfault
  rw [exec_encode_eq_stream hs] at ht
  obtain ⟨m, -, hw, rfl⟩ := wrote_of_finish_writeBits hs ht hfault
  exact ⟨fun _ hlt hone htop => hw.wordCount_of_highest_one hlt hone htop,
    fun hzero => hw.wordCount_of_no_one hzero⟩

/-! ### Faults -/

/-- A cursor within its range that cannot advance stands at the last index of it. -/
theorem cursorLast_of_atTop {p : Params} {c : Nat} (hin : indexFits p c = true)
    (htop : CursorAtTop p c) : CursorLast p c := by
  obtain ⟨iw, hiw, hle⟩ := htop
  have hlt := (indexFits_iff_room p c).mp hin iw hiw
  exact ⟨iw, hiw, by omega⟩

/-- Settles O36: a run of writes stops at the first bit that has no room for the cursor or does not fit, with the bits
before it written. -/
theorem codingFaultKeepsWrittenBits : Obligations.CodingFaultKeepsWrittenBits := by
  intro s t i bits hs hin hi ht hfault
  have hrun : finish .encoder (fun _ => .done) (writeBits bits s) = .next t := by
    obtain ⟨px, rfl, rfl⟩ | ⟨b, rfl, rfl⟩ := hi
    · rw [← exec_encode_eq_stream hs, ht]
    · rw [← exec_encBlock_of_ready hs, ht]
  have hfits := writeBits_keeps_cursorFits bits hin
  obtain ⟨m, hm, hw⟩ | ⟨n, f, m, hn, hm, hw, hstop⟩ := writeBits_cases bits s hs.2.2
  · rw [hm] at hrun
    obtain rfl := Host.Outcome.next.inj hrun
    exact absurd (hw.encReady hs).2.1 hfault
  rw [hm] at hrun
  obtain rfl := Host.Outcome.next.inj hrun
  have hp : m.params = s.params := hw.frame.1
  have hbs : m.enc.bs = s.enc.bs := by rw [hw.enc]
  have hc : m.enc.cursor = s.enc.cursor + n := by
    rw [hw.enc, List.length_take, Nat.min_eq_left hn.le]
  rw [hm, Run.state_faulted, hp, hc] at hfits
  rw [StopsAt, hp, hbs, hc] at hstop
  refine ⟨n, f, hn, rfl, ?_, hw.frame, hw.stored, ?_⟩
  · rw [takeFault_encoder_enc, hw.enc, List.length_take, Nat.min_eq_left hn.le]
  · obtain ⟨rfl, htop⟩ | ⟨hone, -, hno, rfl⟩ := hstop
    · exact .inl ⟨rfl, cursorLast_of_atTop hfits htop⟩
    · exact .inr ⟨rfl, hone, Bool.eq_false_of_not_eq_true fun h => hno (.inr h)⟩

end Sys2Proof.Machine
end

section
/-! A read as a codeword run (30_encoding.md R71; 44_decoder.md R135): the reads of `DEC_BLOCK` are the codeword's at the
cursor, with or without room, and what bits lie at the cursor tells which codeword that is. -/

namespace Sys2Proof.Machine

variable {α : Type} {s : State}

/-! ### The codeword at the cursor -/

/-- What follows a read depends on the one bit there, if there is room to read it at all. -/
theorem andThen_readOne_congr {k k' : Bool → State → Run α}
    (h : k (bitAt s s.dec.bs s.dec.cursor) (advanceDec s) =
      k' (bitAt s s.dec.bs s.dec.cursor) (advanceDec s)) :
    andThen (readOne s) k = andThen (readOne s) k' := by
  cases hadv : canAdvance s.params s.dec.cursor with
  | false => rw [readOne_top hadv, andThen_faulted, andThen_faulted]
  | true => rw [readOne_done hadv, andThen_done, andThen_done, h]

theorem runCodeword_succ (n : Nat) (b : Block) (s : State) :
    runCodeword (n + 1) b s = andThen (readOne s) fun _ t => runCodeword n b t := by
  rw [runCodeword, skipBits, andThen_assoc]
  rfl

/-- Reading bits for their value reads as many bits as skipping them. -/
theorem readLiteral_eq_runCodeword (n : Nat) (v : Block) (s : State) :
    readLiteral n v s = runCodeword n (shiftIn s s.dec.cursor n v) s := by
  induction n generalizing v s with
  | zero => rfl
  | succ n ih =>
    rw [readLiteral, runCodeword_succ]
    refine andThen_readOne_congr ?_
    rw [ih, shiftIn, shiftIn_congr (s := advanceDec s) (t := s) fun _ => rfl]
    rfl

/-- `DEC_BLOCK` runs the codeword at the cursor, faults included. -/
theorem readBlock_eq_runCodeword (s : State) :
    readBlock s = runCodeword (codeLength s) (blockAtCursor s) s := by
  cases h0 : bitAt s s.dec.bs s.dec.cursor with
  | false =>
    simp only [codeLength, blockAtCursor, h0, if_true]
    rw [runCodeword_succ]
    refine andThen_readOne_congr ?_
    rw [h0]
    rfl
  | true =>
    cases h1 : bitAt s s.dec.bs (s.dec.cursor + 1) with
    | false =>
      simp only [codeLength, blockAtCursor, h0, h1, if_true, Bool.true_eq_false, if_false]
      rw [runCodeword_succ]
      refine andThen_readOne_congr ?_
      rw [h0, runCodeword_succ]
      refine andThen_readOne_congr ?_
      rw [show bitAt (advanceDec s) (advanceDec s).dec.bs (advanceDec s).dec.cursor = false from h1]
      rfl
    | true =>
      simp only [codeLength, blockAtCursor, h0, h1, Bool.true_eq_false, if_false]
      rw [runCodeword_succ]
      refine andThen_readOne_congr ?_
      rw [h0, runCodeword_succ]
      refine andThen_readOne_congr ?_
      rw [show bitAt (advanceDec s) (advanceDec s).dec.bs (advanceDec s).dec.cursor = true from h1]
      exact readLiteral_eq_runCodeword 32 0 _

/-! ### Which bits lie at the cursor -/

/-- The bits lie in the decoder's store from its cursor on. -/
def BitsAtCursor (s : State) (bits : List Bool) : Prop :=
  ∀ j < bits.length, bitAt s s.dec.bs (s.dec.cursor + j) = bits.getD j false

theorem BitsAtCursor.append {x y : List Bool} (h : BitsAtCursor s (x ++ y)) :
    BitsAtCursor s x ∧ BitsAtCursor (advanceDecBy x.length s) y := by
  refine ⟨fun j hj => ?_, fun j hj => ?_⟩
  · rw [h j (by rw [List.length_append]; omega), List.getD_append _ _ _ _ hj]
  · have hxy := h (x.length + j) (by rw [List.length_append]; omega)
    rw [List.getD_append_right _ _ _ _ (Nat.le_add_right _ _), Nat.add_sub_cancel_left] at hxy
    rw [← hxy, ← Nat.add_assoc]
    rfl

/-- A literal's 32 bits after the two that announce it are the block's own (R72). -/
theorem shiftIn_eq_of_literalBits {b : Block}
    (h : BitsAtCursor s (true :: true :: literalBits b)) :
    shiftIn s (s.dec.cursor + 2) 32 0 = b := by
  refine BitVec.eq_of_getLsbD_eq fun k hk => ?_
  have hbit := h (31 - k + 2) (by simp; omega)
  rw [getLsbD_shiftIn _ _ _ _ _ hk, if_pos hk, Nat.add_assoc, Nat.add_comm 2, hbit]
  simp [literalBits, show 31 - k < 32 by omega, show 31 - (31 - k) = k by omega, hk]

/-- The bits of a codeword at the cursor make `DEC_BLOCK` run that codeword. -/
theorem readBlock_of_white (h : BitsAtCursor s [false]) : readBlock s = runCodeword 1 whiteBlock s := by
  have h0 : bitAt s s.dec.bs s.dec.cursor = false := h 0 (by decide)
  rw [readBlock_eq_runCodeword]
  simp [codeLength, blockAtCursor, h0]

theorem readBlock_of_black (h : BitsAtCursor s [true, false]) :
    readBlock s = runCodeword 2 blackBlock s := by
  have h0 : bitAt s s.dec.bs s.dec.cursor = true := h 0 (by decide)
  have h1 : bitAt s s.dec.bs (s.dec.cursor + 1) = false := h 1 (by decide)
  rw [readBlock_eq_runCodeword]
  simp [codeLength, blockAtCursor, h0, h1]

theorem readBlock_of_literal {b : Block} (h : BitsAtCursor s (true :: true :: literalBits b)) :
    readBlock s = runCodeword 34 b s := by
  have h0 : bitAt s s.dec.bs s.dec.cursor = true := h 0 (by simp)
  have h1 : bitAt s s.dec.bs (s.dec.cursor + 1) = true := h 1 (by simp)
  have hlit := shiftIn_eq_of_literalBits h
  rw [readBlock_eq_runCodeword, blockAtCursor, hlit]
  simp [codeLength, h0, h1]

/-- The codeword the encoder gives a block is read back as the block. -/
theorem readBlock_of_codewordBits {b : Block} (h : BitsAtCursor s (codewordBits b)) :
    readBlock s = runCodeword (blockCost b) b s := by
  unfold blockCost
  split_ifs with hwhite hblack
  · rw [hwhite, codewordBits_white] at h
    rw [hwhite]
    exact readBlock_of_white h
  · rw [hblack, codewordBits_black] at h
    rw [hblack]
    exact readBlock_of_black h
  · rw [codewordBits_literal hwhite hblack] at h
    exact readBlock_of_literal h

/-- Settles O44: the bits at the cursor tell the codeword, and its reads are the same. -/
theorem decBlockRunsTheCodewordAtTheCursor : Obligations.DecBlockRunsTheCodewordAtTheCursor := by
  rintro s i ⟨bits, hi, hbits⟩
  obtain ⟨rfl, rfl⟩ | ⟨rfl, rfl⟩ | ⟨b, rfl, rfl⟩ := codeword_of_encode_eq_stream hi
  · rw [exec, exec, execDecBlock, execCwWhite, readBlock_of_white hbits]
  · rw [exec, exec, execDecBlock, execCwBlack, readBlock_of_black hbits]
  · rw [exec, exec, execDecBlock, execCwLiteral, readBlock_of_literal hbits]

/-! ### With room -/

theorem runCodeword_completes {n : Nat} (b : Block) (hroom : CursorRoom s.params s.dec.cursor n) :
    runCodeword n b s = .done b (advanceDecBy n s) := by
  rw [runCodeword, skipBits_completes n s hroom, andThen_done]

/-- Settles O42: with room, a codeword's reads move the cursor by its length. -/
theorem codewordsAnswerTheirBlocks : Obligations.CodewordsAnswerTheirBlocks := by
  intro s lit hs
  refine ⟨fun hroom => ?_, fun hroom => ?_, fun hroom => ?_⟩
  · rw [exec, execCwWhite, decGuard_ready hs, guarded_none, runCodeword_completes _ hroom, finish_done]
    rfl
  · rw [exec, execCwBlack, decGuard_ready hs, guarded_none, runCodeword_completes _ hroom, finish_done]
    rfl
  · rw [exec, execCwLiteral, decGuard_ready hs, guarded_none, runCodeword_completes _ hroom,
      finish_done]
    rfl

theorem codeLength_cases (s : State) : codeLength s = 1 ∨ codeLength s = 2 ∨ codeLength s = 34 := by
  unfold codeLength
  split_ifs <;> simp

@[simp] theorem length_unpackPixels (o : PackOrder) (b : Block) : (unpackPixels o b).length = 4 := by
  cases o <;> rfl

/-- With room for the longest codewords a count of pixels is read to its end. -/
theorem readPixels_completes (n : Nat) (hroom : CursorRoom s.params s.dec.cursor (34 * ((n + 3) / 4))) :
    ∃ (px : List Pixel) (lens : List Nat), px.length = n ∧ lens.length = (n + 3) / 4 ∧
      (∀ l ∈ lens, l = 1 ∨ l = 2 ∨ l = 34) ∧
      readPixels n s = .done px (advanceDecBy lens.sum s) := by
  have hlen := codeLength_cases s
  induction n using blocks_induction generalizing s with
  | zero => exact ⟨[], [], rfl, rfl, List.forall_mem_nil _, rfl⟩
  | tail n hpos hlt =>
    have hone : (n + 3) / 4 = 1 := by omega
    rw [hone] at hroom ⊢
    refine ⟨(unpackPixels s.params.packOrder (blockAtCursor s)).take n, [codeLength s], ?_, rfl,
      by simpa using hlen, ?_⟩
    · rw [List.length_take, length_unpackPixels, Nat.min_eq_left hlt.le]
    · rw [readPixels_tail hpos hlt, readBlock_completes (room_mono hroom (by omega)), andThen_done,
        List.sum_singleton]
  | add_four n ih =>
    have hcount : (n + 4 + 3) / 4 = (n + 3) / 4 + 1 := by omega
    rw [hcount] at hroom ⊢
    obtain ⟨px, lens, hpx, hlens, hall, hread⟩ := ih (s := advanceDecBy (codeLength s) s)
      (room_mono (d := s.dec.cursor + codeLength s) hroom (by omega)) (codeLength_cases _)
    refine ⟨unpackPixels s.params.packOrder (blockAtCursor s) ++ px, codeLength s :: lens, ?_, ?_,
      List.forall_mem_cons.mpr ⟨hlen, hall⟩, ?_⟩
    · rw [List.length_append, length_unpackPixels, hpx, Nat.add_comm]
    · rw [List.length_cons, hlens]
    · rw [readPixels_add_four, readBlock_completes (room_mono hroom (by omega)), andThen_done, hread,
        andThen_done, advanceDecBy_add, List.sum_cons]

/-- Settles O46: with room for the longest codewords no read can overflow. -/
theorem decodeAlwaysCompletes : Obligations.DecodeAlwaysCompletes := by
  intro s n hs hroom
  obtain ⟨px, lens, hpx, hlens, hall, hread⟩ := readPixels_completes n hroom
  refine ⟨px, lens, hpx, hlens, hall, ?_⟩
  rw [exec_decode_of_ready hs, hread, finish_done]
  rfl

end Sys2Proof.Machine
end

section
/-! What every run of reads does (44_decoder.md R145; 10_state.md R28): it moves the cursor within its range and nothing
else, and can fail in one way alone. -/

namespace Sys2Proof.Machine

variable {α β : Type} {s : State}

/-- The run `r` from `s` has moved the decoder's cursor by `n`, not out of its range, and nothing else; if it faulted, the
cursor had no room. -/
def Reads (s : State) (r : Run α) : Prop :=
  ∃ n, (indexFits s.params s.dec.cursor = true → indexFits s.params (s.dec.cursor + n) = true) ∧
    ((∃ a, r = .done a (advanceDecBy n s)) ∨
      r = .faulted (.cursorOverflow .decoder) (advanceDecBy n s))

theorem Reads.done (a : α) (s : State) : Reads s (.done a s) := ⟨0, id, .inl ⟨a, rfl⟩⟩

theorem Reads.andThen {r : Run α} {k : α → State → Run β} (hr : Reads s r)
    (hk : ∀ a t, Reads t (k a t)) : Reads s (andThen r k) := by
  obtain ⟨n, hn, ⟨a, rfl⟩ | rfl⟩ := hr
  · obtain ⟨m, hm, hend⟩ := hk a (advanceDecBy n s)
    rw [advanceDecBy_add] at hend
    exact ⟨n + m, fun hin => by rw [← Nat.add_assoc]; exact hm (hn hin), hend⟩
  · exact ⟨n, hn, .inr rfl⟩

theorem reads_readOne (s : State) : Reads s (readOne s) := by
  cases hadv : canAdvance s.params s.dec.cursor with
  | false => exact ⟨0, id, .inr (readOne_top hadv)⟩
  | true => exact ⟨1, fun _ => indexFits_succ hadv, .inl ⟨_, readOne_done hadv⟩⟩

theorem reads_skipBits (n : Nat) (s : State) : Reads s (skipBits n s) := by
  induction n generalizing s with
  | zero => exact Reads.done () s
  | succ n ih => exact (reads_readOne s).andThen fun _ => ih

theorem reads_runCodeword (n : Nat) (b : Block) (s : State) : Reads s (runCodeword n b s) :=
  (reads_skipBits n s).andThen fun _ => Reads.done b

theorem reads_readBlock (s : State) : Reads s (readBlock s) := by
  rw [readBlock_eq_runCodeword]
  exact reads_runCodeword _ _ s

theorem reads_readPixels (n : Nat) (s : State) : Reads s (readPixels n s) := by
  induction n using blocks_induction generalizing s with
  | zero => exact Reads.done [] s
  | tail n hpos hlt =>
    rw [readPixels_tail hpos hlt]
    exact (reads_readBlock s).andThen fun _ => Reads.done _
  | add_four n ih =>
    rw [readPixels_add_four]
    exact (reads_readBlock s).andThen fun _ t => (ih t).andThen fun _ => Reads.done _

end Sys2Proof.Machine
end

section
/-! What an operation that ends in a next state has done (10_state.md R20, column "written by"), said once for every
instruction; the rules about whole machines are read off it. -/

namespace Sys2Proof.Machine

variable {i : Instr} {s t : State}

/-- A run of the encoder's writes took `s` to `m` for operation `i`, completed or up to a fault. -/
structure EncRan (i : Instr) (s m : State) : Prop where
  coding : advancesEnc i = true
  ready : EncReady s
  wrote : ∃ bits, Wrote bits s m ∧
    (keepsWordCounts i = true → ∀ j < bits.length, bits.getD j false = false)
  memory : Memory.wf s.params s.stores → Memory.wf m.params m.stores
  cursor : indexFits s.params s.enc.cursor = true → indexFits m.params m.enc.cursor = true

/-- A run of the decoder's reads moved the cursor by `n` for operation `i`, completed or up to a fault. -/
structure DecRan (i : Instr) (s : State) (n : Nat) : Prop where
  coding : advancesDec i = true
  ready : DecReady s
  cursor : indexFits s.params s.dec.cursor = true → indexFits s.params (s.dec.cursor + n) = true

/-- The store a host's writing operation names. -/
def hostWrites : Instr → Option Nat
  | .bsNew h _ => some h
  | .bsSet h _ => some h
  | .bsClear h _ => some h
  | .bsResize _ h _ => some h
  | .bsLoadWord _ h _ _ => some h
  | _ => none

/-- The operation that draws words (93_implementation_defined.md U1). -/
def drawsWords : Instr → Bool
  | .bsResize _ _ _ => true
  | _ => false

/-- What an operation that ends in a next state has done. -/
inductive Effect : Instr → State → State → Prop where
  /-- it answered and changed nothing else: a read, or a fault of a store operation -/
  | answers {i : Instr} {s : State} (r : Response) (henc : opensOrClosesEnc i = false)
      (hdec : opensOrClosesDec i = false) : Effect i s (answer r s)
  /-- a host's operation replaced one store -/
  | replacesStore {i : Instr} {s : State} (h : Nat) (st : Store) (draws : Nat)
      (hstore : hostWrites i = some h) (hdraws : drawsWords i = false → draws = s.draws)
      (hcount : keepsWordCounts i = true → st.wordCount = (storeAt s h).wordCount)
      (hwf : wellFormed s.params i = true → Memory.wf s.params s.stores → StoreWf s.params st) :
      Effect i s (answer .done { setStore s h st with draws := draws })
  /-- the encoder wrote bits, and its fault element is `c` -/
  | codes {i : Instr} {s m : State} (r : Response) (c : Option FaultCode) (hran : EncRan i s m) :
      Effect i s { m with response := r, enc := { m.enc with fault := c } }
  /-- the decoder read bits, and its fault element is `c` -/
  | reads {i : Instr} {s : State} {n : Nat} (r : Response) (c : Option FaultCode)
      (hc : c ≠ some .allocationFailed) (hran : DecRan i s n) :
      Effect i s
        { s with response := r, dec := { s.dec with cursor := s.dec.cursor + n, fault := c } }
  | opensEnc {h : Nat} {s : State} (hh : h < s.stores.length)
      (hfree : ¬ (s.dec.isOpen = true ∧ s.dec.bs = h)) :
      Effect (.encOpen h) s
        (answer .done { s with enc := { isOpen := true, bs := h, cursor := 0, fault := none } })
  | closesEnc {s : State} :
      Effect .encClose s (answer .done { s with enc := { s.enc with isOpen := false } })
  | opensDec {h : Nat} {s : State} (hh : h < s.stores.length)
      (hfree : ¬ (s.enc.isOpen = true ∧ s.enc.bs = h)) :
      Effect (.decOpen h) s
        (answer .done { s with dec := { isOpen := true, bs := h, cursor := 0, fault := none } })
  | closesDec {s : State} :
      Effect .decClose s (answer .done { s with dec := { s.dec with isOpen := false } })

/-! ### From each shape of operation to its effect -/

/-- An operation behind a guard ends in a next state exactly where the guard passes and what it guards does. -/
theorem guarded_eq_next_iff {g : Option Refusal} {o : Host.Outcome State Fault Refusal} :
    guarded g o = .next t ↔ g = none ∧ o = .next t := by
  cases g <;> simp

theorem effect_of_writeBits {bits : List Bool} (hcode : advancesEnc i = true)
    (hcount : keepsWordCounts i = true → ∀ j < bits.length, bits.getD j false = false)
    (h : guarded (encGuard s) (finish .encoder (fun _ => .done) (writeBits bits s)) = .next t) :
    Effect i s t := by
  obtain ⟨hg, hrun⟩ := guarded_eq_next_iff.mp h
  have hs := (encGuard_eq_none_iff s).mp hg
  have hmem := writeBits_keeps_memory bits (s := s)
  have hcur := writeBits_keeps_cursorFits bits (s := s)
  obtain ⟨m, hm, hw⟩ | ⟨n, f, m, hn, hm, hw, -⟩ := writeBits_cases bits s hs.2.2
  · rw [hm] at hrun hmem hcur
    obtain rfl := Host.Outcome.next.inj hrun
    exact .codes .done m.enc.fault ⟨hcode, hs, ⟨bits, hw, hcount⟩, hmem, hcur⟩
  · rw [hm] at hrun hmem hcur
    obtain rfl := Host.Outcome.next.inj hrun
    refine .codes (.faulted f) (some (faultCode f)) ⟨hcode, hs, ⟨_, hw, fun hkeep j hj => ?_⟩, hmem, hcur⟩
    rw [List.length_take] at hj
    rw [List.getD_eq_getElem?_getD, List.getElem?_take_of_lt (by omega),
      ← List.getD_eq_getElem?_getD, hcount hkeep j (by omega)]

theorem writeBits_singleton (b : Bool) (s : State) : writeBits [b] s = writeBit b s := by
  rw [writeBits]
  cases writeBit b s <;> rfl

theorem effect_of_reads {α : Type} {g : α → Response} {r : Run α} (hcode : advancesDec i = true)
    (hr : Reads s r) (h : guarded (decGuard s) (finish .decoder g r) = .next t) : Effect i s t := by
  obtain ⟨hg, hrun⟩ := guarded_eq_next_iff.mp h
  have hs := (decGuard_eq_none_iff s).mp hg
  obtain ⟨n, hin, ⟨a, rfl⟩ | rfl⟩ := hr
  · obtain rfl := Host.Outcome.next.inj hrun
    have hnone : s.dec.fault ≠ some .allocationFailed := by simp [hs.2.1]
    exact .reads (g a) s.dec.fault hnone ⟨hcode, hs, hin⟩
  · obtain rfl := Host.Outcome.next.inj hrun
    exact .reads _ (some .cursorOverflow) (by decide) ⟨hcode, hs, hin⟩

/-- Every operation that ends in a next state has one of the effects. -/
theorem exec_effect (h : exec i s = .next t) : Effect i s t := by
  cases i with
  | cwWhite => exact effect_of_reads rfl (reads_runCodeword _ _ s) h
  | cwBlack => exact effect_of_reads rfl (reads_runCodeword _ _ s) h
  | cwLiteral b => exact effect_of_reads rfl (reads_runCodeword _ _ s) h
  | readBit => exact effect_of_reads rfl (reads_readOne s) h
  | decBlock => exact effect_of_reads rfl (reads_readBlock s) h
  | decode n => exact effect_of_reads rfl (reads_readPixels n s) h
  | combine | split =>
    obtain rfl := Host.Outcome.next.inj h
    exact .answers _ rfl rfl
  | bsTest | bsWordCount | encCursor | decCursor =>
    obtain ⟨-, h⟩ := guarded_eq_next_iff.mp h
    obtain rfl := Host.Outcome.next.inj h
    exact .answers _ rfl rfl
  | bsWord h k =>
    obtain ⟨-, h⟩ := guarded_eq_next_iff.mp h
    split at h
    · cases h
    · obtain rfl := Host.Outcome.next.inj h
      exact .answers _ rfl rfl
  | bsNew g c =>
    obtain ⟨-, h⟩ := guarded_eq_next_iff.mp h
    split_ifs at h with hover
    · obtain rfl := Host.Outcome.next.inj h
      exact .answers _ rfl rfl
    · obtain rfl := Host.Outcome.next.inj h
      exact .replacesStore g _ s.draws rfl (fun _ => rfl) (fun hkeep => Bool.noConfusion hkeep)
        fun _ _ => wf_replicate_zero (Bool.not_eq_false _ |>.mp hover)
  | bsSet g j =>
    obtain ⟨-, h⟩ := guarded_eq_next_iff.mp h
    by_cases hfit : OneFits s.params (storeAt s g).wordCount j
    · rw [writeSet_of_fits hfit] at h
      obtain rfl := Host.Outcome.next.inj h
      exact .replacesStore g _ s.draws rfl (fun _ => rfl) (fun hkeep => Bool.noConfusion hkeep)
        fun _ hm => wf_setBit (StoreWf_storeAt hm g) hfit
    · rw [writeSet_of_not_fits hfit] at h
      obtain rfl := Host.Outcome.next.inj h
      exact .answers _ rfl rfl
  | bsClear g j =>
    obtain ⟨-, h⟩ := guarded_eq_next_iff.mp h
    obtain rfl := Host.Outcome.next.inj h
    exact .replacesStore g _ s.draws rfl (fun _ => rfl) (fun _ => wordCount_clearBit _ _ _)
      fun _ hm => wf_clearBit j (StoreWf_storeAt hm g)
  | bsResize who g n =>
    obtain ⟨-, h⟩ := guarded_eq_next_iff.mp h
    split_ifs at h with hless hover
    · obtain rfl := Host.Outcome.next.inj h
      exact .answers _ rfl rfl
    · obtain rfl := Host.Outcome.next.inj h
      refine .replacesStore g _ _ rfl (fun hno => Bool.noConfusion hno) (fun hkeep => Bool.noConfusion hkeep) fun _ hm =>
        wf_resize (StoreWf_storeAt hm g) (fun v => toNat_lt_of_mem_drawnWords) ?_
      rw [length_drawnWords, Nat.add_sub_cancel' (Nat.not_lt.mp hless)]
      exact Bool.not_eq_false _ |>.mp hover
  | bsLoadWord who g k v =>
    obtain ⟨-, h⟩ := guarded_eq_next_iff.mp h
    split_ifs at h with hpast
    obtain rfl := Host.Outcome.next.inj h
    exact .replacesStore g _ s.draws rfl (fun _ => rfl) (fun _ => List.length_set)
      fun hv hm => wf_loadWord (StoreWf_storeAt hm g) (of_decide_eq_true hv)
  | write0 =>
    rw [exec, execWrite0, ← writeBits_singleton] at h
    refine effect_of_writeBits rfl (fun _ j hj => ?_) h
    rw [Nat.lt_one_iff.mp hj]
    rfl
  | write1 =>
    rw [exec, execWrite1, ← writeBits_singleton] at h
    exact effect_of_writeBits rfl (fun hkeep => Bool.noConfusion hkeep) h
  | encBlock b => exact effect_of_writeBits rfl (fun hkeep => Bool.noConfusion hkeep) h
  | encode px =>
    rw [exec, execEncode, writeBlocks_eq] at h
    exact effect_of_writeBits rfl (fun hkeep => Bool.noConfusion hkeep) h
  | encOpen g =>
    obtain ⟨hg, h⟩ := guarded_eq_next_iff.mp h
    obtain rfl := Host.Outcome.next.inj h
    have hno := (encOpenGuard_ne_none_iff g s).not.mp (not_not.mpr hg)
    rw [not_or, not_or, Nat.not_le] at hno
    exact .opensEnc hno.2.1 hno.2.2
  | encClose =>
    obtain ⟨-, h⟩ := guarded_eq_next_iff.mp h
    obtain rfl := Host.Outcome.next.inj h
    exact .closesEnc
  | decOpen g =>
    obtain ⟨hg, h⟩ := guarded_eq_next_iff.mp h
    obtain rfl := Host.Outcome.next.inj h
    obtain ⟨-, hh, hfree⟩ := (decOpenGuard_eq_none_iff g s).mp hg
    exact .opensDec hh hfree
  | decClose =>
    obtain ⟨-, h⟩ := guarded_eq_next_iff.mp h
    obtain rfl := Host.Outcome.next.inj h
    exact .closesDec

end Sys2Proof.Machine
end

section
/-! The rules about whole machines (10_state.md R20, R27, R29), each read off the effects an operation can have. -/

namespace Sys2Proof.Machine

variable {i : Instr} {s t m : State}

/-! ### The invariant -/

/-- A run of writes keeps the invariant, up to a fault too. -/
theorem EncRan.inv (hran : EncRan i s m) (hs : Inv s) : Inv m := by
  obtain ⟨hmem, hlen, ⟨hcur, hbound⟩, hdec, hexcl, hfault⟩ := hs
  obtain ⟨bits, hw, -⟩ := hran.wrote
  obtain ⟨hp, hd, -, -, hopen, hbs, hlen', -⟩ := hw.frame
  refine ⟨hran.memory hmem, ?_, ⟨hran.cursor hcur, ?_⟩, ?_, ?_, ?_⟩
  · rwa [hlen']
  · rwa [hopen, hbs, hlen']
  · rwa [hd, hp, hlen']
  · rwa [hopen, hd, hbs]
  · rwa [hd]

/-- A session freshly opened on a store of the instance is well formed. -/
theorem SessionWf_opened (p : Params) {nbs h : Nat} (hh : h < nbs) :
    SessionWf p nbs { isOpen := true, bs := h, cursor := 0, fault := none } :=
  ⟨indexFits_zero p, fun _ => hh⟩

theorem exec_keeps_inv (hi : wellFormed s.params i = true) (hs : Inv s) (h : exec i s = .next t) :
    Inv t := by
  obtain ⟨hmem, hlen, ⟨hecur, hebound⟩, ⟨hdcur, hdbound⟩, hexcl, hfault⟩ := id hs
  cases exec_effect h with
  | answers r => exact hs
  | replacesStore g st draws _ _ _ hwf =>
    have hset : (s.stores.set g st).length = s.stores.length := List.length_set
    exact ⟨Memory_wf_set hmem (hwf hi hmem), hset ▸ hlen, ⟨hecur, hset ▸ hebound⟩,
      ⟨hdcur, hset ▸ hdbound⟩, hexcl, hfault⟩
  | codes r c hran => exact hran.inv hs
  | reads r c hc hran =>
    exact ⟨hmem, hlen, ⟨hecur, hebound⟩, ⟨hran.cursor hdcur, hdbound⟩, hexcl, hc⟩
  | @opensEnc g _ hh hfree =>
    exact ⟨hmem, hlen, SessionWf_opened _ hh, ⟨hdcur, hdbound⟩,
      fun ⟨_, hopen, hbs⟩ => hfree ⟨hopen, hbs.symm⟩, hfault⟩
  | closesEnc =>
    exact ⟨hmem, hlen, ⟨hecur, fun hopen => Bool.noConfusion hopen⟩, ⟨hdcur, hdbound⟩,
      fun ⟨hopen, _⟩ => Bool.noConfusion hopen, hfault⟩
  | @opensDec g _ hh hfree =>
    exact ⟨hmem, hlen, ⟨hecur, hebound⟩, SessionWf_opened _ hh,
      fun ⟨hopen, _, hbs⟩ => hfree ⟨hopen, hbs⟩, fun hc => by cases hc⟩
  | closesDec =>
    exact ⟨hmem, hlen, ⟨hecur, hebound⟩, ⟨hdcur, fun hopen => Bool.noConfusion hopen⟩,
      fun ⟨_, hopen, _⟩ => Bool.noConfusion hopen, hfault⟩

/-- Settles O10: a reset comes to the reset state, and a presented instruction is well formed, so each of its effects keeps
the invariant. -/
theorem stepKeepsTheInvariant : Obligations.StepKeepsTheInvariant := by
  intro s t hs h
  cases hin : s.inputs with
  | nil => simp [step, hin] at h
  | cons x rest =>
    cases x with
    | reset =>
      rw [step_of_reset hin] at h
      obtain rfl := Host.Outcome.next.inj h
      exact Inv_applyReset hs.2.1
    | op tr =>
      cases hdec : decodeOp s.params tr with
      | rejected e =>
        rw [step_of_rejected hin hdec] at h
        cases h
      | instr i =>
        rw [step_of_op hin hdec] at h
        exact exec_keeps_inv (s := { s with inputs := rest })
          (oneTransactionPerInstruction s.params tr i hdec).1 hs h

/-! ### Who writes what -/

theorem writesStores_of_advancesEnc (h : advancesEnc i = true) : writesStores i = true := by
  cases i <;> cases h <;> rfl

theorem advancesDec_of_writesStores (h : writesStores i = true) : advancesDec i = false := by
  cases i <;> cases h <;> rfl

/-- A host's writing operation is none of the others. -/
theorem writesStores_of_hostWrites {g : Nat} (h : hostWrites i = some g) :
    writesStores i = true ∧ advancesEnc i = false := by
  cases i <;> cases h <;> exact ⟨rfl, rfl⟩

/-- Replacing a store by one of as many words changes no word count. -/
theorem wordCount_storeAt_setStore {h : Nat} {st : Store}
    (hst : st.wordCount = (storeAt s h).wordCount) (g : Nat) :
    (storeAt (setStore s h st) g).wordCount = (storeAt s g).wordCount := by
  by_cases hg : g = h
  · subst hg
    by_cases hlt : g < s.stores.length
    · rw [storeAt_setStore_same _ _ _ hlt, hst]
    · rw [storeAt, setStore_stores, List.set_eq_of_length_le (Nat.le_of_not_lt hlt), storeAt]
  · rw [storeAt_setStore_other _ _ _ hg]

theorem EncRan.wordCount (hran : EncRan i s m) (hkeep : keepsWordCounts i = true) (g : Nat) :
    (storeAt m g).wordCount = (storeAt s g).wordCount := by
  obtain ⟨bits, hw, hzero⟩ := hran.wrote
  obtain ⟨-, -, -, -, -, -, -, hother⟩ := hw.frame
  by_cases hg : g = s.enc.bs
  · rw [hg, hw.wordCount_of_no_one (hzero hkeep)]
  · rw [hother g hg]

/-- Settles O50: no effect reaches an element whose row does not name its operation. -/
theorem elementsAreWrittenOnlyByTheirOperations :
    Obligations.ElementsAreWrittenOnlyByTheirOperations := by
  intro i s t h
  cases exec_effect h with
  | answers r henc hdec =>
    exact ⟨rfl, rfl, rfl, fun _ => rfl, fun _ _ => rfl, fun _ _ => rfl,
      fun _ => ⟨rfl, rfl, fun _ _ => rfl⟩, fun _ => ⟨rfl, rfl⟩, fun _ _ => rfl,
      fun _ => ⟨rfl, rfl, rfl⟩, fun _ => ⟨rfl, rfl, rfl⟩⟩
  | replacesStore g st draws hstore _ hcount =>
    obtain ⟨hwrites, hcode⟩ := writesStores_of_hostWrites hstore
    exact ⟨rfl, List.length_set, rfl, fun hw => absurd (hw.symm.trans hwrites) Bool.false_ne_true,
      fun _ _ => rfl, fun _ _ => rfl,
      fun he => absurd (hcode.symm.trans he) Bool.false_ne_true, fun _ => ⟨rfl, rfl⟩,
      fun hkeep => wordCount_storeAt_setStore (hcount hkeep),
      fun _ => ⟨rfl, rfl, rfl⟩, fun _ => ⟨rfl, rfl, rfl⟩⟩
  | codes r c hran =>
    obtain ⟨bits, hw, -⟩ := id hran.wrote
    obtain ⟨hp, hdec, hin, -, hopen, hbs, hlen, hother⟩ := hw.frame
    have hwrites := writesStores_of_advancesEnc hran.coding
    have hnodec := advancesDec_of_writesStores hwrites
    exact ⟨hp, hlen, hin, fun h => absurd (h.symm.trans hwrites) Bool.false_ne_true,
      fun h => absurd (h.symm.trans hran.coding) Bool.false_ne_true, fun _ _ => hdec,
      fun _ => ⟨hopen, hbs, hother⟩,
      fun h => absurd (hnodec.symm.trans h) Bool.false_ne_true, hran.wordCount,
      fun hi => by subst hi; exact Bool.noConfusion hran.coding,
      fun hi => by subst hi; exact Bool.noConfusion hran.coding⟩
  | reads r c hc hran =>
    exact ⟨rfl, rfl, rfl, fun _ => rfl, fun _ _ => rfl,
      fun h => absurd (h.symm.trans hran.coding) Bool.false_ne_true,
      fun _ => ⟨rfl, rfl, fun _ _ => rfl⟩, fun _ => ⟨rfl, rfl⟩, fun _ _ => rfl,
      fun _ => ⟨rfl, rfl, rfl⟩, fun hi => by subst hi; cases hran.coding⟩
  | opensEnc =>
    exact ⟨rfl, rfl, rfl, fun _ => rfl, fun _ h => Bool.noConfusion h, fun _ _ => rfl,
      fun h => Bool.noConfusion h, fun _ => ⟨rfl, rfl⟩, fun _ _ => rfl,
      fun hi => Instr.noConfusion hi, fun _ => ⟨rfl, rfl, rfl⟩⟩
  | closesEnc =>
    exact ⟨rfl, rfl, rfl, fun _ => rfl, fun _ h => Bool.noConfusion h, fun _ _ => rfl,
      fun h => Bool.noConfusion h, fun _ => ⟨rfl, rfl⟩, fun _ _ => rfl,
      fun _ => ⟨rfl, rfl, rfl⟩, fun _ => ⟨rfl, rfl, rfl⟩⟩
  | opensDec =>
    exact ⟨rfl, rfl, rfl, fun _ => rfl, fun _ _ => rfl, fun _ h => Bool.noConfusion h,
      fun _ => ⟨rfl, rfl, fun _ _ => rfl⟩, fun h => Bool.noConfusion h, fun _ _ => rfl,
      fun _ => ⟨rfl, rfl, rfl⟩, fun hi => Instr.noConfusion hi⟩
  | closesDec =>
    exact ⟨rfl, rfl, rfl, fun _ => rfl, fun _ _ => rfl, fun _ h => Bool.noConfusion h,
      fun _ => ⟨rfl, rfl, fun _ _ => rfl⟩, fun h => Bool.noConfusion h, fun _ _ => rfl,
      fun _ => ⟨rfl, rfl, rfl⟩, fun _ => ⟨rfl, rfl, rfl⟩⟩

/-! ### Cursors and faults -/

theorem EncRan.enc_cursor (hran : EncRan i s m) : s.enc.cursor ≤ m.enc.cursor := by
  obtain ⟨bits, hw, -⟩ := hran.wrote
  rw [hw.enc]
  exact Nat.le_add_right _ _

theorem EncRan.dec (hran : EncRan i s m) : m.dec = s.dec := by
  obtain ⟨bits, hw, -⟩ := hran.wrote
  exact hw.frame.2.1

theorem opensNone_of_writesStores (h : writesStores i = true) :
    opensOrClosesEnc i = false ∧ opensOrClosesDec i = false := by
  cases i <;> cases h <;> exact ⟨rfl, rfl⟩

theorem opensNone_of_advancesDec (h : advancesDec i = true) :
    opensOrClosesEnc i = false ∧ opensOrClosesDec i = false := by
  cases i <;> cases h <;> exact ⟨rfl, rfl⟩

theorem ne_encOpen (h : opensOrClosesEnc i = false) (g : Nat) : i ≠ .encOpen g := by
  rintro rfl
  exact Bool.noConfusion h

theorem ne_decOpen (h : opensOrClosesDec i = false) (g : Nat) : i ≠ .decOpen g := by
  rintro rfl
  exact Bool.noConfusion h

/-- Settles O51: an opening sets its cursor to 0, a run of bits moves its agent's on, and no other effect moves one. -/
theorem cursorsOnlyAdvance : Obligations.CursorsOnlyAdvance := by
  intro i s t h
  cases exec_effect h with
  | answers r henc hdec =>
    exact ⟨fun _ hi => absurd hi (ne_encOpen henc _), fun _ hi => absurd hi (ne_decOpen hdec _),
      fun _ => le_rfl, fun _ => le_rfl, fun _ _ => rfl, fun _ _ => rfl⟩
  | replacesStore g st draws hstore =>
    obtain ⟨henc, hdec⟩ := opensNone_of_writesStores (writesStores_of_hostWrites hstore).1
    exact ⟨fun _ hi => absurd hi (ne_encOpen henc _), fun _ hi => absurd hi (ne_decOpen hdec _),
      fun _ => le_rfl, fun _ => le_rfl, fun _ _ => rfl, fun _ _ => rfl⟩
  | codes r c hran =>
    obtain ⟨henc, hdec⟩ := opensNone_of_writesStores (writesStores_of_advancesEnc hran.coding)
    have hcur : _ = s.dec.cursor := congrArg Session.cursor hran.dec
    exact ⟨fun _ hi => absurd hi (ne_encOpen henc _), fun _ hi => absurd hi (ne_decOpen hdec _),
      fun _ => hran.enc_cursor, fun _ => hcur.ge,
      fun _ h => absurd (h.symm.trans hran.coding) Bool.false_ne_true, fun _ _ => hcur⟩
  | reads r c hc hran =>
    obtain ⟨henc, hdec⟩ := opensNone_of_advancesDec hran.coding
    exact ⟨fun _ hi => absurd hi (ne_encOpen henc _), fun _ hi => absurd hi (ne_decOpen hdec _),
      fun _ => le_rfl, fun _ => Nat.le_add_right _ _, fun _ _ => rfl,
      fun _ h => absurd (h.symm.trans hran.coding) Bool.false_ne_true⟩
  | opensEnc =>
    exact ⟨fun _ _ => rfl, fun _ hi => Instr.noConfusion hi, fun hi => absurd rfl (hi _),
      fun _ => le_rfl, fun hi => absurd rfl (hi _), fun _ _ => rfl⟩
  | opensDec =>
    exact ⟨fun _ hi => Instr.noConfusion hi, fun _ _ => rfl, fun _ => le_rfl,
      fun hi => absurd rfl (hi _), fun _ _ => rfl, fun hi => absurd rfl (hi _)⟩
  | closesEnc | closesDec =>
    exact ⟨fun _ hi => Instr.noConfusion hi, fun _ hi => Instr.noConfusion hi, fun _ => le_rfl,
      fun _ => le_rfl, fun _ _ => rfl, fun _ _ => rfl⟩

/-- Settles O52: a faulted session runs no bits, and only its own opening replaces its registers otherwise. -/
theorem faultElementsAreSticky : Obligations.FaultElementsAreSticky := by
  intro i s t c h
  cases exec_effect h with
  | answers r henc hdec =>
    exact ⟨fun hc _ => hc, fun hc _ => hc, fun _ hi => absurd hi (ne_encOpen henc _),
      fun _ hi => absurd hi (ne_decOpen hdec _)⟩
  | replacesStore g st draws hstore =>
    obtain ⟨henc, hdec⟩ := opensNone_of_writesStores (writesStores_of_hostWrites hstore).1
    exact ⟨fun hc _ => hc, fun hc _ => hc, fun _ hi => absurd hi (ne_encOpen henc _),
      fun _ hi => absurd hi (ne_decOpen hdec _)⟩
  | codes r c' hran =>
    obtain ⟨henc, hdec⟩ := opensNone_of_writesStores (writesStores_of_advancesEnc hran.coding)
    refine ⟨fun hc => absurd (hran.ready.2.1.symm.trans hc) (Option.some_ne_none c).symm,
      fun hc _ => ?_, fun _ hi => absurd hi (ne_encOpen henc _),
      fun _ hi => absurd hi (ne_decOpen hdec _)⟩
    exact (congrArg Session.fault hran.dec).trans hc
  | reads r c' _ hran =>
    obtain ⟨henc, hdec⟩ := opensNone_of_advancesDec hran.coding
    exact ⟨fun hc _ => hc,
      fun hc => absurd (hran.ready.2.1.symm.trans hc) (Option.some_ne_none c).symm,
      fun _ hi => absurd hi (ne_encOpen henc _), fun _ hi => absurd hi (ne_decOpen hdec _)⟩
  | opensEnc =>
    exact ⟨fun _ hi => absurd rfl (hi _), fun hc _ => hc, fun _ _ => rfl,
      fun _ hi => Instr.noConfusion hi⟩
  | opensDec =>
    exact ⟨fun hc _ => hc, fun _ hi => absurd rfl (hi _), fun _ hi => Instr.noConfusion hi,
      fun _ _ => rfl⟩
  | closesEnc | closesDec =>
    exact ⟨fun hc _ => hc, fun hc _ => hc, fun _ hi => Instr.noConfusion hi,
      fun _ hi => Instr.noConfusion hi⟩

end Sys2Proof.Machine
end

section
/-! The round trip (44_decoder.md R143): what a session of `ENCODE` calls left in a store is what a session of `DECODE`
calls of the same lengths reads. -/

namespace Sys2Proof.Machine

variable {s t : State}

/-! ### Reading a stream back -/

/-- One to three pixels are the first pixels of the one block they make (R114, R138). -/
theorem blocksOf_tail (o : PackOrder) {px : List Pixel} (hpos : 0 < px.length) (hlt : px.length < 4) :
    ∃ b, blocksOf o px = [b] ∧ (unpackPixels o b).take px.length = px := by
  match px with
  | [a] => exact ⟨_, rfl, by rw [splitUndoesCombine_holds]; rfl⟩
  | [a, b] => exact ⟨_, rfl, by rw [splitUndoesCombine_holds]; rfl⟩
  | [a, b, c] => exact ⟨_, rfl, by rw [splitUndoesCombine_holds]; rfl⟩

/-- Induction along the blocks of a pixel sequence. -/
theorem pixels_induction {P : List Pixel → Prop} (nil : P [])
    (tail : ∀ px : List Pixel, 0 < px.length → px.length < 4 → P px)
    (cons_four : ∀ (a b c d : Pixel) (rest : List Pixel), P rest → P (a :: b :: c :: d :: rest))
    (px : List Pixel) : P px := by
  induction px using blocksOf.induct with
  | case1 => exact nil
  | case2 | case3 | case4 => exact tail _ (by simp) (by simp)
  | case5 a b c d rest ih => exact cons_four a b c d rest ih

/-- Where the stream of some pixels lies at the cursor, as many pixels read are those pixels. -/
theorem readPixels_of_stream {px : List Pixel} (hbits : BitsAtCursor s (streamOf s.params.packOrder px))
    (hroom : CursorRoom s.params s.dec.cursor (streamOf s.params.packOrder px).length) :
    readPixels px.length s =
      .done px (advanceDecBy (streamOf s.params.packOrder px).length s) := by
  induction px using pixels_induction generalizing s with
  | nil => rfl
  | tail px hpos hlt =>
    obtain ⟨b, hb, htake⟩ := blocksOf_tail s.params.packOrder hpos hlt
    rw [streamOf, hb, List.flatMap_singleton] at hbits hroom ⊢
    rw [readPixels_tail hpos hlt, readBlock_of_codewordBits hbits, ← length_codewordBits,
      runCodeword_completes b hroom, andThen_done, htake]
  | cons_four a b c d rest ih =>
    have hstream : streamOf s.params.packOrder (a :: b :: c :: d :: rest) =
        codewordBits (packPixels s.params.packOrder a b c d) ++ streamOf s.params.packOrder rest :=
      List.flatMap_cons
    rw [hstream] at hbits hroom ⊢
    rw [List.length_append] at hroom ⊢
    obtain ⟨hhead, htail⟩ := hbits.append
    have hrest : CursorRoom s.params
        (s.dec.cursor + (codewordBits (packPixels s.params.packOrder a b c d)).length)
        (streamOf s.params.packOrder rest).length := room_mono hroom (by omega)
    rw [show (a :: b :: c :: d :: rest).length = rest.length + 4 from rfl, readPixels_add_four,
      readBlock_of_codewordBits hhead, ← length_codewordBits,
      runCodeword_completes _ (room_mono hroom (by omega)), andThen_done,
      ih (s := advanceDecBy _ s) htail hrest, andThen_done, splitUndoesCombine_holds, advanceDecBy_add]
    rfl

/-! ### Sessions -/

theorem runAll_cons_eq_some_iff {i : Instr} {is : List Instr} {rs : List Response} :
    runAll (i :: is) s = some (t, rs) ↔
      ∃ m rs', exec i s = .next m ∧ runAll is m = some (t, rs') ∧ rs = m.response :: rs' := by
  rw [runAll]
  cases exec i s with
  | next m => cases hrest : runAll is m <;> simp [hrest, Prod.ext_iff, eq_comm]
  | fault => simp
  | refused => simp

/-- Where no operation opens the encoder, a session not faulted afterwards was not faulted before (R29). -/
theorem enc_fault_none_of_runAll {is : List Instr} {rs : List Response}
    (hopen : ∀ i ∈ is, ∀ h, i ≠ .encOpen h) (hrun : runAll is s = some (t, rs))
    (ht : t.enc.fault = none) : s.enc.fault = none := by
  induction is generalizing s rs with
  | nil =>
    obtain ⟨rfl, -⟩ := Prod.mk.inj (Option.some.inj hrun)
    exact ht
  | cons i is ih =>
    obtain ⟨hi, his⟩ := List.forall_mem_cons.mp hopen
    obtain ⟨m, rs', hexec, hrest, -⟩ := runAll_cons_eq_some_iff.mp hrun
    have hm := ih his hrest
    by_contra hfault
    obtain ⟨c, hc⟩ := Option.ne_none_iff_exists'.mp hfault
    have hsticky := (faultElementsAreSticky i s m c hexec).1 hc hi
    exact Option.some_ne_none c (hsticky.symm.trans hm)

/-- The response standing before a run of writes, and after it, has no part in it. -/
theorem Wrote.answer {bits : List Bool} (r : Response) (hw : Wrote bits s t) :
    Wrote bits (answer r s) (answer r t) :=
  ⟨hw.frame, rfl, hw.enc, hw.stored, hw.grows, hw.holds, hw.exact_count⟩

/-- `ENCODE` calls that left no fault have written the streams of their pixels one after another, with the cursor within
its range. -/
theorem wrote_of_runAll_encode {rows : List (List Pixel)} {rs : List Response} (hs : EncReady s)
    (hin : indexFits s.params s.enc.cursor = true)
    (hrun : runAll (rows.map .encode) s = some (t, rs)) (ht : t.enc.fault = none) :
    indexFits t.params t.enc.cursor = true ∧
      Wrote (rows.flatMap (streamOf s.params.packOrder)) s (answer s.response t) := by
  induction rows generalizing s rs with
  | nil =>
    obtain ⟨rfl, -⟩ := Prod.mk.inj (Option.some.inj hrun)
    exact ⟨hin, Wrote.nil s⟩
  | cons row rows ih =>
    obtain ⟨m, rs', hexec, hrest, -⟩ := runAll_cons_eq_some_iff.mp hrun
    have hm : m.enc.fault = none := by
      refine enc_fault_none_of_runAll (fun i hi h => ?_) hrest ht
      obtain ⟨_, -, rfl⟩ := List.mem_map.mp hi
      exact Instr.noConfusion
    rw [exec_encode_eq_stream hs] at hexec
    obtain ⟨m, hbits, hw, rfl⟩ := wrote_of_finish_writeBits hs hexec hm
    have hparams : m.params = s.params := hw.frame.1
    have hfits := writeBits_keeps_cursorFits (streamOf s.params.packOrder row) hin
    rw [hbits] at hfits
    obtain ⟨hint, hwrest⟩ := ih (s := answer .done m) (hw.encReady hs) hfits hrest
    refine ⟨hint, ?_⟩
    rw [answer_params, hparams] at hwrest
    rw [← hw.response]
    exact hw.trans (hwrest.answer m.response)

/-- `DECODE` calls of the lengths of some pixel sequences whose streams lie at the cursor answer those sequences. -/
theorem runAll_decode_of_streams {rows : List (List Pixel)} (hs : DecReady s)
    (hbits : BitsAtCursor s (rows.flatMap (streamOf s.params.packOrder)))
    (hroom : CursorRoom s.params s.dec.cursor
      (rows.flatMap (streamOf s.params.packOrder)).length) :
    ∃ u, runAll (rows.map fun row => .decode row.length) s = some (u, rows.map .pixels) ∧
      u.dec.cursor = s.dec.cursor + (rows.flatMap (streamOf s.params.packOrder)).length := by
  induction rows generalizing s with
  | nil => exact ⟨s, rfl, rfl⟩
  | cons row rows ih =>
    rw [List.flatMap_cons] at hbits hroom ⊢
    rw [List.length_append] at hroom ⊢
    obtain ⟨hhead, htail⟩ := hbits.append
    have hrow : exec (.decode row.length) s = .next (answer (.pixels row)
        (advanceDecBy (streamOf s.params.packOrder row).length s)) := by
      rw [exec_decode_of_ready hs, readPixels_of_stream hhead (room_mono hroom (by omega)), finish_done]
    have hrest : CursorRoom s.params (s.dec.cursor + (streamOf s.params.packOrder row).length)
        (rows.flatMap (streamOf s.params.packOrder)).length := room_mono hroom (by omega)
    obtain ⟨u, hrun, hcur⟩ := ih (s := answer (.pixels row) (advanceDecBy _ s)) hs htail hrest
    exact ⟨u, runAll_cons_eq_some_iff.mpr ⟨_, _, hrow, hrun, rfl⟩, hcur.trans (Nat.add_assoc _ _ _)⟩

/-- The state in which a session of the encoder has just been opened on store `h` (R100). -/
def encOpened (h : Nat) (s : State) : State :=
  { s with enc := { isOpen := true, bs := h, cursor := 0, fault := none }, response := .done }

/-- The state in which a session of the decoder has just been opened on store `h` (R125). -/
def decOpened (h : Nat) (s : State) : State :=
  { s with dec := { isOpen := true, bs := h, cursor := 0, fault := none }, response := .done }

/-- What an `ENC_OPEN` that was answered leaves. -/
theorem exec_encOpen_eq_next {h : Nat} (hexec : exec (.encOpen h) s = .next t) :
    s.enc.isOpen = false ∧ h < s.stores.length ∧ ¬ (s.dec.isOpen = true ∧ s.dec.bs = h) ∧
      t = encOpened h s := by
  obtain ⟨hg, hnext⟩ := guarded_eq_next_iff.mp hexec
  have hno := (encOpenGuard_ne_none_iff h s).not.mp (not_not.mpr hg)
  rw [not_or, not_or, Nat.not_le, Bool.not_eq_true] at hno
  exact ⟨hno.1, hno.2.1, hno.2.2, (Host.Outcome.next.inj hnext).symm⟩

/-- Settles O49: the streams the encoder left from index 0 on are the ones the decoder's session begins at, and each is
read back as its pixels. -/
theorem encodeThenDecodeRoundTrip : Obligations.EncodeThenDecodeRoundTrip := by
  intro s t h rows rs hdec hrun ht
  obtain ⟨m, _, hopen, hrest, -⟩ := runAll_cons_eq_some_iff.mp hrun
  obtain ⟨-, hh, -, rfl⟩ := exec_encOpen_eq_next hopen
  obtain ⟨hin, hw⟩ := wrote_of_runAll_encode ⟨rfl, rfl, hh⟩ (indexFits_zero _) hrest ht
  obtain ⟨hp, hd, -, -, hisOpen, -, hlen, -⟩ := hw.frame
  have hcur : t.enc.cursor = 0 + (rows.flatMap (streamOf s.params.packOrder)).length :=
    congrArg Session.cursor hw.enc
  rw [hcur, indexFits_iff_room] at hin
  have hroom : CursorRoom t.params 0 (rows.flatMap (streamOf s.params.packOrder)).length :=
    room_mono hin (by omega)
  have hclosed : t.dec.isOpen = false := (congrArg Session.isOpen hd).trans hdec
  have hclose := (encCloseEndsTheSession t).1 hisOpen
  have hreopen := (decOpenStartsASession
    { t with enc := { t.enc with isOpen := false }, response := .done } h).1 hclosed
    (Nat.lt_of_lt_of_eq hh hlen.symm) fun hheld => Bool.noConfusion hheld.1
  have hpack : (decOpened h { t with enc := { t.enc with isOpen := false } }).params.packOrder =
      s.params.packOrder := congrArg Params.packOrder hp
  obtain ⟨u, hu, hucur⟩ := runAll_decode_of_streams (rows := rows)
    (s := decOpened h { t with enc := { t.enc with isOpen := false } })
    ⟨rfl, rfl, Nat.lt_of_lt_of_eq hh hlen.symm⟩
    (by rw [hpack]; exact fun j hj => hw.bitAt_inside hj)
    (by rw [hpack]; exact hroom)
  refine ⟨u, runAll_cons_eq_some_iff.mpr ⟨_, _, hclose, runAll_cons_eq_some_iff.mpr
    ⟨_, _, hreopen, hu, rfl⟩, rfl⟩, ?_⟩
  rw [hucur, hcur, hpack]
  rfl

end Sys2Proof.Machine
end

section
/-! The word width hidden behind the bits (20_memory.md R42 a): each operation but those that show words takes two states
that hold the same bits to two such states, with one answer. -/

namespace Sys2Proof.Machine

variable {α β : Type} {s t : State}

/-- Two runs that end alike, in states that hold the same bits. -/
inductive SameRun : Run α → Run α → Prop where
  | done (a : α) {s t : State} (h : SameBits s t) : SameRun (.done a s) (.done a t)
  | faulted (f : FaultReport) {s t : State} (h : SameBits s t) : SameRun (.faulted f s) (.faulted f t)

/-- Where the first outcome is a next state, so is the second, with the same bits and the same response. -/
def SameOutcome (o o' : Host.Outcome State Fault Refusal) : Prop :=
  ∀ s', o = .next s' → ∃ t', o' = .next t' ∧ SameBits s' t' ∧ s'.response = t'.response

/-! ### What two such states share -/

theorem SameBits.packOrder_eq (h : SameBits s t) : s.params.packOrder = t.params.packOrder := h.1

theorem SameBits.canAdvance_eq (h : SameBits s t) (c : Nat) :
    canAdvance s.params c = canAdvance t.params c := by
  obtain ⟨-, hindex, -⟩ := h
  rw [canAdvance, canAdvance, hindex]

theorem SameBits.bits_eq (h : SameBits s t) (g i : Nat) : bitAt s g i = bitAt t g i := by
  obtain ⟨-, -, -, -, -, hbits, -⟩ := h
  exact hbits g i

theorem SameBits.testBit_eq (h : SameBits s t) (g i : Nat) :
    testBit s.params.w (storeAt s g) i = testBit t.params.w (storeAt t g) i :=
  h.bits_eq g i

theorem SameBits.enc_eq (h : SameBits s t) : s.enc = t.enc := by
  obtain ⟨-, -, -, -, -, -, henc, -⟩ := h
  exact henc

theorem SameBits.dec_eq (h : SameBits s t) : s.dec = t.dec := by
  obtain ⟨-, -, -, -, -, -, -, hdec, -⟩ := h
  exact hdec

/-- Neither instance bounds a store's words. -/
theorem SameBits.wordsAllowed (h : SameBits s t) (n : Nat) :
    wordsAllowed s.params n = true ∧ wordsAllowed t.params n = true := by
  obtain ⟨-, -, hs, ht, -⟩ := h
  simp [Machine.wordsAllowed, hs, ht]

/-- Every guard asks only for what the two states share: the sessions and how many stores there are. -/
theorem SameBits.guards (h : SameBits s t) :
    (∀ g, hostReadGuard g s = hostReadGuard g t) ∧ (∀ g, hostWriteGuard g s = hostWriteGuard g t) ∧
    (∀ g, encOpenGuard g s = encOpenGuard g t) ∧ (∀ g, decOpenGuard g s = decOpenGuard g t) ∧
    encSessionGuard s = encSessionGuard t ∧ decSessionGuard s = decSessionGuard t ∧
    encGuard s = encGuard t ∧ decGuard s = decGuard t := by
  obtain ⟨-, -, -, -, hlen, -, henc, hdec, -⟩ := h
  have hhandle : isHandle s = isHandle t := by funext; rw [isHandle, isHandle, hlen]
  have heh : encHolds s = encHolds t := by funext; rw [encHolds, encHolds, henc]
  have hdh : decHolds s = decHolds t := by funext; rw [decHolds, decHolds, hdec]
  simp only [hostReadGuard, hostWriteGuard, encOpenGuard, decOpenGuard, encSessionGuard,
    decSessionGuard, encGuard, decGuard, hhandle, heh, hdh, henc, hdec, implies_true, and_self]

/-! ### The parts a run is made of -/

theorem SameRun.andThen {r r' : Run α} {k k' : α → State → Run β} (hr : SameRun r r')
    (hk : ∀ a s t, SameBits s t → SameRun (k a s) (k' a t)) :
    SameRun (andThen r k) (andThen r' k') := by
  cases hr with
  | done a h => exact hk a _ _ h
  | faulted f h => exact .faulted f h

theorem SameBits.answer (h : SameBits s t) (r : Response) : SameBits (answer r s) (answer r t) := h

theorem SameBits.withEnc (h : SameBits s t) (x : Session) :
    SameBits { s with enc := x } { t with enc := x } := by
  obtain ⟨ho, hi, hms, hmt, hlen, hbits, -, hdec, hin⟩ := h
  exact ⟨ho, hi, hms, hmt, hlen, hbits, rfl, hdec, hin⟩

theorem SameBits.withDec (h : SameBits s t) (x : Session) :
    SameBits { s with dec := x } { t with dec := x } := by
  obtain ⟨ho, hi, hms, hmt, hlen, hbits, henc, -, hin⟩ := h
  exact ⟨ho, hi, hms, hmt, hlen, hbits, henc, rfl, hin⟩

theorem SameBits.takeFault (h : SameBits s t) (who : Agent) (f : FaultReport) :
    SameBits (takeFault who f s) (takeFault who f t) := by
  cases who with
  | host => exact h
  | encoder => rw [Machine.takeFault, h.enc_eq]; exact h.withEnc _
  | decoder => rw [Machine.takeFault, h.dec_eq]; exact h.withDec _

theorem SameBits.advanceEnc (h : SameBits s t) : SameBits (advanceEnc s) (advanceEnc t) := by
  rw [Machine.advanceEnc, h.enc_eq]
  exact h.withEnc _

theorem SameBits.advanceDec (h : SameBits s t) : SameBits (advanceDec s) (advanceDec t) := by
  rw [Machine.advanceDec, h.dec_eq]
  exact h.withDec _

theorem SameBits.setStore (h : SameBits s t) (g : Nat) {st st' : Store}
    (hst : ∀ i, testBit s.params.w st i = testBit t.params.w st' i) :
    SameBits (setStore s g st) (setStore t g st') := by
  obtain ⟨ho, hi, hms, hmt, hlen, hbits, henc, hdec, hin⟩ := h
  refine ⟨ho, hi, hms, hmt, by simp [hlen], fun g' i => ?_, henc, hdec, hin⟩
  rw [bitAt_setStore, bitAt_setStore, hlen, hst, hbits]

theorem SameBits.writeClear (h : SameBits s t) (g i : Nat) :
    SameBits (writeClear g i s) (writeClear g i t) := by
  have hs := params_w_bounds s.params
  have ht := params_w_bounds t.params
  refine h.setStore g fun j => ?_
  rw [testBit_clearBit hs.1 hs.2, testBit_clearBit ht.1 ht.2, h.testBit_eq]

/-- Without a bound on the words, a 1 is set at the same place in both. -/
theorem SameBits.writeSet (h : SameBits s t) (g i : Nat) :
    SameRun (writeSet g i s) (writeSet g i t) := by
  have hs := params_w_bounds s.params
  have ht := params_w_bounds t.params
  rw [writeSet_of_fits (.inr (h.wordsAllowed _).1),
    writeSet_of_fits (.inr (h.wordsAllowed _).2)]
  refine .done () (h.setStore g fun j => ?_)
  rw [testBit_setBit hs.1 hs.2, testBit_setBit ht.1 ht.2, h.testBit_eq]

/-! ### Runs -/

theorem SameBits.writeBit (h : SameBits s t) (b : Bool) : SameRun (writeBit b s) (writeBit b t) := by
  unfold Machine.writeBit
  rw [← h.enc_eq, h.canAdvance_eq]
  split
  · exact .faulted _ h
  · cases b with
    | false => exact .done () (h.writeClear _ _).advanceEnc
    | true => exact (h.writeSet _ _).andThen fun _ _ _ h' => .done () h'.advanceEnc

theorem SameBits.writeBits (h : SameBits s t) (bits : List Bool) :
    SameRun (writeBits bits s) (writeBits bits t) := by
  induction bits generalizing s t with
  | nil => exact .done () h
  | cons b bs ih => exact (h.writeBit b).andThen fun _ _ _ h' => ih h'

theorem SameBits.readOne (h : SameBits s t) : SameRun (readOne s) (readOne t) := by
  rw [Machine.readOne, Machine.readOne, ← h.dec_eq, h.canAdvance_eq, h.bits_eq]
  split
  · exact .faulted _ h
  · exact .done _ h.advanceDec

theorem SameBits.skipBits (h : SameBits s t) (n : Nat) : SameRun (skipBits n s) (skipBits n t) := by
  induction n generalizing s t with
  | zero => exact .done () h
  | succ n ih => exact h.readOne.andThen fun _ _ _ h' => ih h'

theorem SameBits.runCodeword (h : SameBits s t) (n : Nat) (b : Block) :
    SameRun (runCodeword n b s) (runCodeword n b t) :=
  (h.skipBits n).andThen fun _ _ _ h' => .done b h'

theorem SameBits.readBlock (h : SameBits s t) : SameRun (readBlock s) (readBlock t) := by
  have hdec := h.dec_eq
  have hbit (c : Nat) : bitAt s s.dec.bs c = bitAt t t.dec.bs c := by rw [h.bits_eq, hdec]
  have hlength : codeLength s = codeLength t := by rw [codeLength, codeLength, hbit, hbit, hdec]
  have hblock : blockAtCursor s = blockAtCursor t := by
    rw [blockAtCursor, blockAtCursor, hbit, hbit, shiftIn_congr hbit, hdec]
  rw [readBlock_eq_runCodeword, readBlock_eq_runCodeword, hlength, hblock]
  exact h.runCodeword _ _

theorem SameBits.readPixels (h : SameBits s t) (n : Nat) :
    SameRun (readPixels n s) (readPixels n t) := by
  induction n using blocks_induction generalizing s t with
  | zero => exact .done [] h
  | tail n hpos hlt =>
    rw [readPixels_tail hpos hlt, readPixels_tail hpos hlt, h.packOrder_eq]
    exact h.readBlock.andThen fun _ _ _ h' => .done _ h'
  | add_four n ih =>
    rw [readPixels_add_four, readPixels_add_four, h.packOrder_eq]
    exact h.readBlock.andThen fun _ _ _ h' => (ih h').andThen fun _ _ _ h'' => .done _ h''

/-! ### Operations -/

theorem SameBits.next (h : SameBits s t) (hr : s.response = t.response) :
    SameOutcome (.next s) (.next t) := by
  rintro _ hs
  obtain rfl := Host.Outcome.next.inj hs
  exact ⟨t, rfl, h, hr⟩

theorem SameBits.answered (h : SameBits s t) (r : Response) :
    SameOutcome (.next (Machine.answer r s)) (.next (Machine.answer r t)) :=
  SameBits.next (h.answer r) rfl

theorem SameRun.finish {r r' : Run α} (h : SameRun r r') (who : Agent) (g : α → Response) :
    SameOutcome (finish who g r) (finish who g r') := by
  cases h with
  | done a h => exact h.answered (g a)
  | faulted f h => exact (h.takeFault who f).next (by simp)

theorem SameOutcome.guarded {g g' : Option Refusal} {o o' : Host.Outcome State Fault Refusal}
    (hg : g = g') (h : SameOutcome o o') : SameOutcome (guarded g o) (guarded g' o') := by
  subst hg
  intro s' hs
  obtain ⟨rfl, hs⟩ := guarded_eq_next_iff.mp hs
  exact h s' hs

theorem SameBits.exec {i : Instr} (hi : widthFree i = true) (h : SameBits s t) :
    SameOutcome (exec i s) (exec i t) := by
  obtain ⟨hread, hwrite, hencOpen, hdecOpen, hencSession, hdecSession, henc, hdec⟩ := h.guards
  cases i with
  | bsWord | bsWordCount | bsResize | bsLoadWord => cases hi
  | cwWhite | cwBlack | cwLiteral => exact ((h.runCodeword _ _).finish _ _).guarded hdec
  | bsNew g c =>
    refine SameOutcome.guarded (hwrite g) ?_
    rw [if_neg (by simp [h.wordsAllowed]), if_neg (by simp [h.wordsAllowed])]
    refine (h.setStore g fun j => ?_).answered .done
    rw [testBit_replicate_zero, testBit_replicate_zero]
  | bsTest g j =>
    refine SameOutcome.guarded (hread g) ?_
    rw [h.bits_eq]
    exact h.answered _
  | bsSet g j => exact ((h.writeSet g j).finish _ _).guarded (hwrite g)
  | bsClear g j => exact ((h.writeClear g j).answered .done).guarded (hwrite g)
  | combine p0 p1 p2 p3 =>
    rw [exec_combine, exec_combine, h.packOrder_eq]
    exact h.answered _
  | split b =>
    rw [exec_split, exec_split, h.packOrder_eq]
    exact h.answered _
  | encOpen g =>
    exact ((h.withEnc _).answered .done).guarded (hencOpen g)
  | write0 => exact ((h.writeBit false).finish _ _).guarded henc
  | write1 => exact ((h.writeBit true).finish _ _).guarded henc
  | encCursor =>
    refine SameOutcome.guarded hencSession ?_
    rw [h.enc_eq]
    exact h.answered _
  | encClose =>
    refine SameOutcome.guarded hencSession ?_
    rw [h.enc_eq]
    exact (h.withEnc _).answered .done
  | encBlock b => exact ((h.writeBits _).finish _ _).guarded henc
  | encode px =>
    refine SameOutcome.guarded henc ?_
    rw [writeBlocks_eq, writeBlocks_eq, h.packOrder_eq]
    exact (h.writeBits _).finish _ _
  | decOpen g => exact ((h.withDec _).answered .done).guarded (hdecOpen g)
  | readBit => exact (h.readOne.finish _ _).guarded hdec
  | decCursor =>
    refine SameOutcome.guarded hdecSession ?_
    rw [h.dec_eq]
    exact h.answered _
  | decClose =>
    refine SameOutcome.guarded hdecSession ?_
    rw [h.dec_eq]
    exact (h.withDec _).answered .done
  | decBlock => exact (h.readBlock.finish _ _).guarded hdec
  | decode n => exact ((h.readPixels n).finish _ _).guarded hdec

/-- Settles O53: every operation that shows no word is made of steps that keep the two states' bits alike. -/
theorem bitsDoNotDependOnTheWordWidth : Obligations.BitsDoNotDependOnTheWordWidth :=
  fun _ _ _ s' hi h hs => h.exec hi s' hs

end Sys2Proof.Machine
end

section
/-! Sizes of bitmaps (47_host_context.md R153, R154) and the progress calls of whole-image operations (R183). -/

namespace Sys2Proof.Machine

variable {α β : Type} {s t : State}

/-! ### Sizes -/

theorem checkSize_of_zero (p : Params) {z : BitmapSize} (h : z.width = 0 ∨ z.height = 0) :
    checkSize p z = .error .tooSmall :=
  if_pos h

theorem checkSize_of_pos (p : Params) {z : BitmapSize} (hw : 1 ≤ z.width) (hh : 1 ≤ z.height) :
    checkSize p z = if z.width * z.height < 2 ^ p.w then .ok () else .error .tooLarge := by
  have hpos : 0 < 2 ^ p.w := Nat.two_pow_pos _
  have hover : maxUsize p / z.width < z.height ↔ ¬ z.width * z.height < 2 ^ p.w := by
    rw [maxUsize, Nat.div_lt_iff_lt_mul hw, Nat.mul_comm z.height]
    omega
  rw [checkSize, if_neg (by omega), if_congr hover rfl rfl, ite_not]

theorem checkSize_eq_ok_iff {p : Params} {z : BitmapSize} :
    checkSize p z = .ok () ↔ SizeValid p z := by
  by_cases hz : z.width = 0 ∨ z.height = 0
  · rw [checkSize_of_zero p hz]
    exact ⟨nofun, fun ⟨hw, hh, _⟩ => by omega⟩
  · rw [checkSize_of_pos p (by omega) (by omega)]
    split_ifs with hlt
    · exact ⟨fun _ => ⟨by omega, by omega, hlt⟩, fun _ => rfl⟩
    · exact ⟨nofun, fun ⟨_, _, h⟩ => absurd h hlt⟩

/-- A Bitmap of a valid size is made exactly where the host can allocate it (R154). -/
theorem newBitmap_of_valid {p : Params} {z : BitmapSize} (hz : SizeValid p z) (room : Option Nat)
    (q : Pixel) :
    newBitmap p room z q =
      if canAllocate p room (z.width * z.height) then
        .ok { size := z, pixels := List.replicate (z.width * z.height) q }
      else .error .tooLarge := by
  rw [newBitmap, checkSize_eq_ok_iff.mpr hz]

/-- No host allocates `MAX_USIZE − 1` pixels or more (R187). -/
theorem canAllocate_of_large {p : Params} {n : Nat} (room : Option Nat) (hn : maxUsize p ≤ n + 1) :
    canAllocate p room n = false := by
  unfold canAllocate
  rw [decide_eq_false (Nat.not_lt.mpr hn), Bool.false_and]

/-- Settles O57: the order of the tests is the order of the clauses, and twice half of `MAX_USIZE` is past what any host
allocates. -/
theorem bitmapSizesAreChecked : Obligations.BitmapSizesAreChecked := by
  intro p room w h q
  refine ⟨fun hz => ?_, fun hw hh hover => ?_, fun hw hh hlt hno => ?_, fun hw hh hlt hyes => ?_, ?_⟩
  · rw [newBitmap, checkSize_of_zero p hz]
  · rw [newBitmap, checkSize_of_pos p hw hh, if_neg (Nat.not_lt.mpr hover)]
  · rw [newBitmap_of_valid ⟨hw, hh, hlt⟩, if_neg (by simp [hno])]
  · rw [newBitmap_of_valid ⟨hw, hh, hlt⟩, if_pos hyes]
    exact ⟨_, rfl, rfl, List.length_replicate, fun x => List.eq_of_mem_replicate⟩
  · have hpow : 4 ≤ 2 ^ p.w := by unfold Params.w; cases p.width <;> decide
    have heven : 2 ∣ 2 ^ p.w := dvd_pow_self 2 (params_w_bounds p).1.ne'
    rw [newBitmap_of_valid ⟨by dsimp only; omega, by dsimp only; omega, by dsimp only; omega⟩,
      canAllocate_of_large]
    · rfl
    · dsimp only [maxUsize]
      omega

/-! ### Pieces of work that announce nothing -/

theorem issue_calls (i : Instr) (s : State) : (issue i s).calls = [] := by
  unfold issue
  split
  · rfl
  · split
    · split <;> rfl
    · rfl
    · rfl

/-- Two pieces that announce nothing announce nothing together. -/
theorem andDo_calls_eq_nil {j : Job α} {k : α → State → Job β} (hj : j.calls = [])
    (hk : ∀ a t, (k a t).calls = []) : (andDo j k).calls = [] := by
  cases h : j.result with
  | error e => rw [andDo_of_error h]; exact hj
  | ok a => rw [andDo_of_ok h]; dsimp only; rw [hj, hk]; rfl

theorem issueFor_calls (i : Instr) (s : State) : (issueFor i s).calls = [] :=
  andDo_calls_eq_nil (issue_calls i s) fun _ _ => rfl

theorem issueAll_calls (is : List Instr) (s : State) : (issueAll is s).calls = [] := by
  induction is generalizing s with
  | nil => rfl
  | cons i is ih => exact andDo_calls_eq_nil (issueFor_calls i s) fun _ t => ih t

theorem newCompressed_calls (l d : Nat) (z : BitmapSize) (s : State) :
    (newCompressed l d z s).calls = [] := by
  refine andDo_calls_eq_nil rfl fun _ t => ?_
  split
  · rfl
  · exact andDo_calls_eq_nil (issueAll_calls _ _) fun _ _ => rfl

theorem uncompressRow_calls (l y : Nat) (b : Bitmap) (s : State) :
    (uncompressRow l y b s).calls = [] := by
  refine andDo_calls_eq_nil (issue_calls _ _) fun r t => ?_
  split
  · refine andDo_calls_eq_nil (issue_calls _ _) fun q u => ?_
    split <;> rfl
  · rfl

/-! ### The calls of a whole-image operation -/

/-- Where both pieces end well, the calls of the second follow those of the first. -/
theorem andDo_ok {j : Job α} {k : α → State → Job β} {b : β} (h : (andDo j k).result = .ok b) :
    ∃ a, j.result = .ok a ∧ (k a j.state).result = .ok b ∧ (andDo j k).state = (k a j.state).state ∧
      (andDo j k).calls = j.calls ++ (k a j.state).calls := by
  obtain ⟨a, ha, hb⟩ := andDo_result_ok.mp h
  rw [andDo_of_ok ha]
  exact ⟨a, ha, hb, rfl, rfl⟩

/-- The calls for `n` rows from row `y` on, and the last one (R183). -/
theorem compressRows_calls {l height y : Nat} {rows : List (List Pixel)}
    (h : (compressRows l height y rows s).result = .ok ()) (hy : y + rows.length = height) :
    (compressRows l height y rows s).calls =
      (List.range' y (rows.length + 1)).map fun k => (k, height) := by
  induction rows generalizing y s with
  | nil =>
    rw [compressRows, progress_calls, ← hy]
    rfl
  | cons row rows ih =>
    rw [compressRows] at h ⊢
    obtain ⟨_, -, hops, -, hcalls⟩ := andDo_ok h
    obtain ⟨_, -, hrest, -, hcalls'⟩ := andDo_ok hops
    rw [hcalls, hcalls', progress_calls, issueAll_calls, ih hrest (by rw [← hy, List.length_cons]; omega)]
    rfl

theorem writeRowAt_size {b b' : Bitmap} {y : Nat} {row : List Pixel}
    (h : writeRowAt b y row = .ok b') : b'.size = b.size := by
  unfold writeRowAt at h
  split_ifs at h
  cases h
  rfl

theorem uncompressRow_size {l y : Nat} {b b' : Bitmap} (h : (uncompressRow l y b s).result = .ok b') :
    b'.size = b.size := by
  obtain ⟨r, -, hrow, -⟩ := andDo_ok h
  split at hrow
  · obtain ⟨q, -, hq, -⟩ := andDo_ok hrow
    split at hq
    · exact writeRowAt_size hq
    · cases hq; rfl
  · cases hrow; rfl

theorem uncompressRows_calls {l n y : Nat} {b b' : Bitmap}
    (h : (uncompressRows l n y b s).result = .ok b') (hy : y + n = b.size.height) :
    (uncompressRows l n y b s).calls =
      (List.range' y (n + 1)).map fun k => (k, b.size.height) := by
  induction n generalizing y b s with
  | zero =>
    rw [uncompressRows] at h ⊢
    obtain ⟨_, -, -, -, hcalls⟩ := andDo_ok h
    rw [hcalls, progress_calls, finished_calls, ← hy]
    rfl
  | succ n ih =>
    rw [uncompressRows] at h ⊢
    obtain ⟨_, -, hrow, -, hcalls⟩ := andDo_ok h
    obtain ⟨c, hc, hrest, -, hcalls'⟩ := andDo_ok hrow
    have hsize := uncompressRow_size hc
    rw [hcalls, hcalls', progress_calls, uncompressRow_calls, ih hrest (by rw [hsize]; omega), hsize]
    rfl

@[simp] theorem length_rowsOf (b : Bitmap) : (rowsOf b).length = b.size.height := by
  simp [rowsOf]

theorem newBitmap_size {p : Params} {room : Option Nat} {z : BitmapSize} {q : Pixel} {b : Bitmap}
    (h : newBitmap p room z q = .ok b) : b.size = z := by
  unfold newBitmap at h
  split at h
  · cases h
  · split_ifs at h
    cases h
    rfl

/-- Settles O58: the setting up announces nothing, and the rows announce themselves. -/
theorem progressIsCalledOncePerRowAndAtTheEnd : Obligations.ProgressIsCalledOncePerRowAndAtTheEnd := by
  intro s l d b b' c c' room
  refine ⟨fun h => ?_, fun h => ?_⟩
  · obtain ⟨e, -, hopen, -, hcalls⟩ := andDo_ok h
    obtain ⟨_, -, hscope, -, hcalls'⟩ := andDo_ok hopen
    obtain ⟨hwork, -⟩ := leaveScope_result_ok.mp hscope
    obtain ⟨_, hrows, -, -, hcalls''⟩ := andDo_ok hwork
    rw [compress, hcalls, hcalls', newCompressed_calls, issueFor_calls, leaveScope_calls, hcalls'',
      finished_calls, compressRows_calls hrows (by simp), length_rowsOf, List.range_eq_range']
    simp
  · obtain ⟨w, hw, hopen, -, hcalls⟩ := andDo_ok h
    obtain ⟨_, -, hscope, -, hcalls'⟩ := andDo_ok hopen
    obtain ⟨hrows, -⟩ := leaveScope_result_ok.mp hscope
    have hsize : w.size = c.size := newBitmap_size hw
    rw [uncompress, hcalls, hcalls', issueFor_calls, leaveScope_calls,
      uncompressRows_calls hrows (by rw [hsize, Nat.zero_add]), hsize, List.range_eq_range']
    simp

end Sys2Proof.Machine
end

section
/-! `save` (47_host_context.md R174 to R178): machine words as bytes, a store read word by word, and the file. -/

namespace Sys2Proof.Machine

variable {α β : Type} {s t : State} {h : Nat}

/-! ### Machine words as bytes -/

@[simp] theorem length_bytesOf (n v : Nat) : (bytesOf n v).length = n := by
  induction n generalizing v with
  | zero => rfl
  | succ n ih => rw [bytesOf, List.length_cons, ih]

/-- Byte `j` of a number, the least significant first. -/
theorem getD_bytesOf {n j : Nat} (v : Nat) (hj : j < n) :
    (bytesOf n v).getD j 0 = BitVec.ofNat 8 (v / 256 ^ j) := by
  induction n generalizing v j with
  | zero => exact absurd hj (Nat.not_lt_zero j)
  | succ n ih =>
    rw [bytesOf]
    cases j with
    | zero => simp
    | succ j =>
      rw [List.getD_cons_succ, ih _ (Nat.lt_of_succ_lt_succ hj), Nat.div_div_eq_div_mul, Nat.pow_succ']

theorem getD_reverse_bytesOf {n j : Nat} (v : Nat) (hj : j < n) :
    (bytesOf n v).reverse.getD (n - 1 - j) 0 = BitVec.ofNat 8 (v / 256 ^ j) := by
  have hrev : n - 1 - (n - 1 - j) = j := by omega
  rw [List.getD_reverse _ (by rw [length_bytesOf]; omega), length_bytesOf, hrev, getD_bytesOf v hj]

@[simp] theorem length_encodeWord (p : Params) (o : ByteOrder) (v : Nat) :
    (encodeWord p o v).length = wordBytes p := by
  cases o <;> simp [encodeWord]

/-- The bytes of a number make it again, up to the bytes it has room for. -/
theorem numberOf_bytesOf (n v : Nat) : numberOf (bytesOf n v) = v % 256 ^ n := by
  induction n generalizing v with
  | zero => rw [Nat.pow_zero, Nat.mod_one]; rfl
  | succ n ih =>
    have hmod : v % 256 ^ (n + 1) = v % 256 + 256 * (v / 256 % 256 ^ n) := by
      rw [Nat.pow_succ', Nat.mod_mul]
    rw [bytesOf, numberOf, ih, hmod, BitVec.toNat_ofNat]

/-- A machine word's bytes are read back as the word. -/
theorem decodeWord_encodeWord {p : Params} (o : ByteOrder) {v : Nat} (hv : v < 2 ^ p.w) :
    decodeWord o (encodeWord p o v) = v := by
  have hbytes : 256 ^ wordBytes p = 2 ^ p.w := by
    unfold wordBytes Params.w
    cases p.width <;> decide
  have hnumber : numberOf (bytesOf (wordBytes p) v) = v := by
    rw [numberOf_bytesOf, hbytes, Nat.mod_eq_of_lt hv]
  cases o with
  | little => exact hnumber
  | big => rw [decodeWord, encodeWord, List.reverse_reverse, hnumber]

/-! ### Work that goes on at once -/

@[simp] theorem andDo_finished (a : α) (s : State) (k : α → State → Job β) :
    andDo (finished a s) k = k a s := rfl

@[simp] theorem andDo_failed (e : HostError) (s : State) (k : α → State → Job β) :
    andDo (failed e s) k = failed e s := rfl

@[simp] theorem emit_unlimited (bytes written : List Byte) (s : State) :
    emit bytes { written := written, room := none } s =
      finished { written := written ++ bytes, room := none } s := rfl

theorem issue_of_refused {i : Instr} {r : Refusal} (hw : wellFormed s.params i = true)
    (he : exec i s = .refused r) : issue i s = failed (.blockRefused r) s := by
  rw [issue, if_neg (by simp [hw]), he]

/-! ### Reading a store -/

theorem exec_bsWordCount_of_mayRead (hr : HostMayRead h s) :
    exec (.bsWordCount h) s = .next (answer (.natural (storeAt s h).wordCount) s) :=
  guarded_hostReadGuard_of_mayRead hr _

/-- Words read one by one are the store's; the state differs in the last answer alone. -/
theorem readWords_eq (hr : HostMayRead h s) {n k : Nat} (hn : k + n ≤ (storeAt s h).wordCount) :
    ∃ r, readWords h n k s =
      finished ((((storeAt s h).words.drop k).take n).map BitVec.toNat) (answer r s) := by
  induction n generalizing k s with
  | zero => exact ⟨s.response, by rw [List.take_zero]; rfl⟩
  | succ n ih =>
    have hk : k < (storeAt s h).words.length := Nat.lt_of_lt_of_le (by omega) hn
    obtain ⟨r, hrest⟩ := ih (s := answer (.word (storeAt s h).words[k]) s) hr (k := k + 1)
      (by rw [storeAt_answer]; omega)
    refine ⟨r, ?_⟩
    rw [readWords, issue_of_next rfl (exec_bsWord_of_lt hr hk) nofun, andDo_finished, hrest, andDo_finished,
      List.drop_eq_getElem_cons hk, List.take_succ_cons, List.map_cons]
    rfl

/-- A store the host may read is read whole. -/
theorem readStore_eq (hr : HostMayRead h s) :
    ∃ r, readStore h s = finished ((storeAt s h).words.map BitVec.toNat) (answer r s) := by
  obtain ⟨r, hwords⟩ := readWords_eq (s := answer (.natural (storeAt s h).wordCount) s) hr (k := 0)
    (n := (storeAt s h).wordCount) (Nat.le_of_eq (Nat.zero_add _))
  refine ⟨r, ?_⟩
  rw [readStore, issue_of_next rfl (exec_bsWordCount_of_mayRead hr) nofun, andDo_finished]
  refine hwords.trans ?_
  rw [List.drop_zero, storeAt_answer, Store.wordCount, List.take_length]
  rfl

/-- A store that was read was the host's to read. -/
theorem hostMayRead_of_readStore {ws : List Nat} (hok : (readStore h s).result = .ok ws) :
    HostMayRead h s := by
  by_contra hr
  obtain ⟨r, hrefused⟩ := guarded_hostReadGuard_refuses hr
    (.next (answer (.natural (storeAt s h).wordCount) s))
  rw [readStore, issue_of_refused (i := .bsWordCount h) rfl hrefused, andDo_failed] at hok
  cases hok

/-! ### The file -/

/-- The file of an image: its size, the lookup table's words, the count of the pixel data's words, and those (R174). -/
def fileOf (o : ByteOrder) (c : CompressedBitmap) (s : State) : List Byte :=
  encodeWord s.params o c.size.width ++ encodeWord s.params o c.size.height ++
    ((storeAt s c.lookup).words.map BitVec.toNat).flatMap (encodeWord s.params o) ++
    encodeWord s.params o (storeAt s c.pixelData).wordCount ++
    ((storeAt s c.pixelData).words.map BitVec.toNat).flatMap (encodeWord s.params o)

theorem save_eq (o : ByteOrder) {c : CompressedBitmap} (hl : HostMayRead c.lookup s)
    (hd : HostMayRead c.pixelData s) :
    ∃ r, save none o c s = finished (fileOf o c s) (answer r s) := by
  obtain ⟨r, htable⟩ := readStore_eq hl
  obtain ⟨r', hdata⟩ := readStore_eq (s := answer r s) hd
  refine ⟨r', ?_⟩
  rw [save]
  simp only [emit_unlimited, andDo_finished, htable, hdata, List.nil_append, List.length_map]
  rfl

/-- An image that was saved was the host's to read. -/
theorem hostMayRead_of_save {o : ByteOrder} {c : CompressedBitmap} {file : List Byte}
    (hok : (save none o c s).result = .ok file) :
    HostMayRead c.lookup s ∧ HostMayRead c.pixelData s := by
  rw [save] at hok
  simp only [emit_unlimited, andDo_finished] at hok
  obtain ⟨table, htable, hrest, -⟩ := andDo_ok hok
  have hl := hostMayRead_of_readStore htable
  obtain ⟨r, hread⟩ := readStore_eq hl
  rw [hread] at hrest
  obtain ⟨data, hdata, -⟩ := andDo_ok hrest
  exact ⟨hl, hostMayRead_of_readStore (s := answer r s) hdata⟩

/-- Settles O59: both stores are read whole, and each item is its words' bytes. -/
theorem saveWritesTheFileLayout : Obligations.SaveWritesTheFileLayout := by
  refine ⟨fun s o c hl hd => ?_, fun p v => ⟨length_encodeWord p _ v, length_encodeWord p _ v,
    fun j hj => ⟨getD_bytesOf v hj, getD_reverse_bytesOf v hj⟩⟩⟩
  obtain ⟨r, hsave⟩ := save_eq o hl hd
  rw [hsave, finished_result, fileOf, List.flatMap_map, List.flatMap_map]
  exact ⟨rfl, rfl⟩

end Sys2Proof.Machine
end

section
/-! `load` (47_host_context.md R177, R181): words read back from the file, stores resized and filled, and the round trip
with `save` (R186 (4)). -/

namespace Sys2Proof.Machine

variable {s t u : State} {h : Nat}

/-! ### Words of a file -/

@[simp] theorem length_flatMap_encodeWord (p : Params) (o : ByteOrder) (ws : List Nat) :
    (ws.flatMap (encodeWord p o)).length = ws.length * wordBytes p := by
  simp [List.length_flatMap]

theorem decodeWords_flatMap_encodeWord {p : Params} (o : ByteOrder) {ws : List Nat}
    (hws : ∀ v ∈ ws, v < 2 ^ p.w) (rest : List Byte) :
    decodeWords p o ws.length (ws.flatMap (encodeWord p o) ++ rest) = ws := by
  induction ws with
  | nil => rfl
  | cons v ws ih =>
    obtain ⟨hv, hws⟩ := List.forall_mem_cons.mp hws
    rw [List.length_cons, decodeWords, List.flatMap_cons, List.append_assoc,
      List.take_left' (length_encodeWord p o v), List.drop_left' (length_encodeWord p o v),
      decodeWord_encodeWord o hv, ih hws]

/-- Words asked of a file that begins with them. -/
theorem takeWords_eq {o : ByteOrder} {ws : List Nat} (hws : ∀ v ∈ ws, v < 2 ^ s.params.w)
    (rest : List Byte) :
    takeWords o ws.length (ws.flatMap (encodeWord s.params o) ++ rest) s = finished (ws, rest) s := by
  rw [takeWords, if_neg (by simp), decodeWords_flatMap_encodeWord o hws,
    List.drop_left' (length_flatMap_encodeWord _ _ _)]

/-- One word asked of a file that begins with it. -/
theorem takeWords_one {o : ByteOrder} {v : Nat} (hv : v < 2 ^ s.params.w) (rest : List Byte) :
    takeWords o 1 (encodeWord s.params o v ++ rest) s = finished ([v], rest) s := by
  have htake := takeWords_eq (o := o) (ws := [v]) (by simpa using hv) rest
  rwa [List.flatMap_singleton] at htake

/-! ### Operations that replace one store -/

/-- From `s` to `t` store `h` became `words`, and no other store and no session changed. -/
structure Replaced (h : Nat) (words : List Word) (s t : State) : Prop where
  params : t.params = s.params
  enc : t.enc = s.enc
  dec : t.dec = s.dec
  length : t.stores.length = s.stores.length
  same : storeAt t h = { words := words }
  other : ∀ g, g ≠ h → storeAt t g = storeAt s g

/-- A store replaced, whatever was drawn for it. -/
theorem Replaced.of_setStore (hh : h < s.stores.length) (words : List Word) (r : Response)
    (draws : Nat) :
    Replaced h words s (answer r { setStore s h { words := words } with draws := draws }) :=
  ⟨rfl, rfl, rfl, List.length_set, storeAt_setStore_same _ _ _ hh,
    fun _ hg => storeAt_setStore_other _ _ _ hg⟩

theorem Replaced.trans {ws ws' : List Word} (h1 : Replaced h ws s t) (h2 : Replaced h ws' t u) :
    Replaced h ws' s u :=
  ⟨h2.params.trans h1.params, h2.enc.trans h1.enc, h2.dec.trans h1.dec, h2.length.trans h1.length,
    h2.same, fun g hg => (h2.other g hg).trans (h1.other g hg)⟩

/-- What the host may write does not depend on what the stores hold. -/
theorem Replaced.mayWrite_iff {ws : List Word} (hr : Replaced h ws s t) {g : Nat} :
    HostMayWrite g t ↔ HostMayWrite g s := by
  rw [HostMayWrite, HostMayWrite, hr.length, hr.enc, hr.dec]

theorem Replaced.mayWrite {ws : List Word} (hr : Replaced h ws s t) {g : Nat}
    (hw : HostMayWrite g s) : HostMayWrite g t :=
  hr.mayWrite_iff.mpr hw

theorem wordsAllowed_zero (p : Params) : wordsAllowed p 0 = true := by
  unfold wordsAllowed
  cases p.maxWords <;> simp

theorem ceilDiv_zero (w : Nat) (hw : 0 < w) : ceilDiv 0 w = 0 :=
  Nat.div_eq_of_lt (by omega)

theorem issueFor_of_next {i : Instr} (hi : wellFormed s.params i = true) (he : exec i s = .next t)
    (hf : ∀ f, t.response ≠ .faulted f) : issueFor i s = finished () t := by
  rw [issueFor, issue_of_next hi he hf, andDo_finished]

theorem issueAll_cons_of_next {i : Instr} {is : List Instr} (hi : wellFormed s.params i = true)
    (he : exec i s = .next t) (hf : ∀ f, t.response ≠ .faulted f) :
    issueAll (i :: is) s = issueAll is t := by
  rw [issueAll, issueFor_of_next hi he hf, andDo_finished]

/-- `BS_NEW` of no bits makes a store fresh (R177, log entry 27). -/
theorem exec_bsNew_zero (hw : HostMayWrite h s) :
    exec (.bsNew h 0) s = .next (answer .done (setStore s h { words := [] })) := by
  rw [exec_bsNew_of_mayWrite 0 hw, ceilDiv_zero _ (params_w_bounds s.params).1,
    if_neg (by simp [wordsAllowed_zero])]
  rfl

/-! ### Filling a store -/

/-- Words loaded one by one stand from index `k` on. -/
theorem issueAll_loadOps {ws : List Word} {k : Nat} (hw : HostMayWrite h s)
    (hws : ∀ v ∈ ws, v.toNat < 2 ^ s.params.w) (hk : (storeAt s h).wordCount = k + ws.length) :
    ∃ t, issueAll (loadOps h k (ws.map BitVec.toNat)) s = finished () t ∧
      Replaced h ((storeAt s h).words.take k ++ ws) s t := by
  induction ws generalizing k s with
  | nil =>
    refine ⟨s, rfl, rfl, rfl, rfl, rfl, ?_, fun _ _ => rfl⟩
    rw [List.append_nil, List.take_of_length_le (Nat.le_of_eq (hk.trans (Nat.add_zero k)))]
  | cons v ws ih =>
    obtain ⟨hv, hws⟩ := List.forall_mem_cons.mp hws
    rw [List.length_cons] at hk
    have hlt : k < (storeAt s h).words.length := Nat.lt_of_lt_of_eq (by omega) hk.symm
    have hprefix : ((storeAt s h).words.set k v).take (k + 1) = (storeAt s h).words.take k ++ [v] := by
      rw [List.take_add_one, List.getElem?_set_self hlt, List.take_set_of_le le_rfl]
      rfl
    have hone := Replaced.of_setStore hw.1 ((storeAt s h).words.set k v) .done s.draws
    obtain ⟨t, hrun, hrest⟩ := ih (hone.mayWrite hw) (by rw [hone.params]; exact hws) (k := k + 1)
      (by rw [hone.same, Store.wordCount, List.length_set]
          exact hk.trans (by omega))
    refine ⟨t, ?_, ?_⟩
    · rw [List.map_cons, loadOps, BitVec.ofNat_toNat, BitVec.setWidth_eq]
      rw [issueAll_cons_of_next (i := .bsLoadWord .loader h k v) (decide_eq_true hv)
        (exec_bsLoadWord_of_mayWrite v hw hlt) nofun]
      exact hrun
    · have hreplaced := hone.trans hrest
      rwa [hone.same, hprefix, List.append_assoc] at hreplaced

/-- A fresh store resized has as many words as asked for, of any value (R51). -/
theorem exec_bsResize_of_empty {n : Nat} (hw : HostMayWrite h s) (hempty : (storeAt s h).words = [])
    (hallowed : wordsAllowed s.params n = true) :
    ∃ m ws, exec (.bsResize .loader h n) s = .next m ∧ m.response = .done ∧ ws.length = n ∧
      Replaced h ws s m := by
  have hcount : (storeAt s h).wordCount = 0 := congrArg List.length hempty
  obtain ⟨ws, hlen, -, hresize⟩ := (bsResizeAddsWordsOfAnyValue s h n).1 hw (by omega) hallowed
  rw [hcount] at hlen
  refine ⟨_, ws, hresize, rfl, hlen, ?_⟩
  rw [hempty]
  exact Replaced.of_setStore hw.1 ws .done (s.draws + ws.length)

/-- A fresh store is resized and filled with the words the file begins with. -/
theorem loadStore_eq {o : ByteOrder} {ws : List Word} (rest : List Byte) (hw : HostMayWrite h s)
    (hempty : (storeAt s h).words = []) (hws : ∀ v ∈ ws, v.toNat < 2 ^ s.params.w)
    (hallowed : wordsAllowed s.params ws.length = true) :
    ∃ t, loadStore o h ws.length
        ((ws.map BitVec.toNat).flatMap (encodeWord s.params o) ++ rest) s = finished rest t ∧
      Replaced h ws s t := by
  obtain ⟨m, drawn, hresize, hdone, hlen, hone⟩ := exec_bsResize_of_empty hw hempty hallowed
  rw [← hone.params] at hws ⊢
  obtain ⟨t, hrun, hrest⟩ := issueAll_loadOps (k := 0) (hone.mayWrite hw) hws
    (by rw [hone.same, Store.wordCount, hlen, Nat.zero_add])
  have htake := takeWords_eq (s := m) (o := o) (ws := ws.map BitVec.toNat) (by simpa using hws) rest
  rw [List.length_map] at htake
  rw [List.take_zero, List.nil_append] at hrest
  refine ⟨t, ?_, hone.trans hrest⟩
  rw [loadStore, issueFor_of_next rfl hresize (by simp [hdone]), andDo_finished, htake, andDo_finished,
    hrun, andDo_finished]

/-- Two separate stores made fresh (R177, log entry 27). -/
theorem issueAll_bsNew_two {l d : Nat} (hl : HostMayWrite l s) (hd : HostMayWrite d s) (hne : l ≠ d) :
    ∃ m t, issueAll [.bsNew l 0, .bsNew d 0] s = finished () t ∧ Replaced l [] s m ∧
      Replaced d [] m t ∧ storeAt t l = { words := [] } := by
  have hfirst := Replaced.of_setStore hl.1 [] .done s.draws
  have hd' := hfirst.mayWrite hd
  have hsecond := Replaced.of_setStore hd'.1 [] .done s.draws
  refine ⟨_, _, ?_, hfirst, hsecond, (hsecond.other l hne).trans hfirst.same⟩
  rw [issueAll_cons_of_next rfl (exec_bsNew_zero hl) nofun]
  exact issueAll_cons_of_next rfl (exec_bsNew_zero hd') nofun

/-- `load` of an image's file into two stores the host may write makes them that image's. -/
theorem load_fileOf {o : ByteOrder} {c : CompressedBitmap} {l d : Nat} (hc : CompressedValid s c)
    (hmem : Memory.wf s.params s.stores) (hp : u.params = s.params) (hl : HostMayWrite l u)
    (hd : HostMayWrite d u) (hne : l ≠ d) :
    ∃ t, load o l d (fileOf o c s) u =
        finished { size := c.size, lookup := l, pixelData := d } t ∧
      storeAt t l = storeAt s c.lookup ∧ storeAt t d = storeAt s c.pixelData := by
  obtain ⟨hsize, -, -, -, hlookup, hdata⟩ := hc
  obtain ⟨hwf, hallowed⟩ := StoreWf_storeAt hmem c.lookup
  obtain ⟨hwf', hallowed'⟩ := StoreWf_storeAt hmem c.pixelData
  obtain ⟨hw1, hh1, hprod⟩ := id hsize
  have hwidth : c.size.width < 2 ^ u.params.w := by
    rw [hp]; exact Nat.lt_of_le_of_lt (Nat.le_mul_of_pos_right _ hh1) hprod
  have hheight : c.size.height < 2 ^ u.params.w := by
    rw [hp]; exact Nat.lt_of_le_of_lt (Nat.le_mul_of_pos_left _ hw1) hprod
  obtain ⟨m1, m2, hnew, h1, h2, hemptyl⟩ := issueAll_bsNew_two hl hd hne
  have hp2 : m2.params = u.params := h2.params.trans h1.params
  obtain ⟨m3, hload3, h3⟩ := loadStore_eq (o := o) (s := m2)
    (encodeWord u.params o (storeAt s c.pixelData).wordCount ++
      ((storeAt s c.pixelData).words.map BitVec.toNat).flatMap (encodeWord u.params o))
    (h2.mayWrite (h1.mayWrite hl)) (congrArg Store.words hemptyl) (by rw [hp2, hp]; exact hwf)
    (by rw [hp2, hp]; exact hallowed)
  have hp3 : m3.params = u.params := h3.params.trans hp2
  obtain ⟨m4, hload4, h4⟩ := loadStore_eq (o := o) (s := m3) []
    (h3.mayWrite (h2.mayWrite (h1.mayWrite hd)))
    (congrArg Store.words ((h3.other d hne.symm).trans h2.same)) (by rw [hp3, hp]; exact hwf')
    (by rw [hp3, hp]; exact hallowed')
  have hcount : ceilDiv c.size.height u.params.w = (storeAt s c.lookup).words.length := by
    rw [hp]; exact hlookup.symm
  have hcountfits : (storeAt s c.pixelData).words.length < 2 ^ m3.params.w := by
    rw [hp3, hp]; exact hdata
  have hcheck : ofExcept (checkSize u.params c.size) u = finished () u := by
    rw [hp, checkSize_eq_ok_iff.mpr hsize]; rfl
  have htake := takeWords_one (o := o) hcountfits
    (((storeAt s c.pixelData).words.map BitVec.toNat).flatMap (encodeWord u.params o))
  refine ⟨m4, ?_, (h4.other l hne).trans h3.same, h4.same⟩
  rw [fileOf, ← hp]
  simp only [List.append_assoc]
  rw [load, takeWords_one hwidth, andDo_finished, takeWords_one hheight, andDo_finished]
  rw [hp2] at hload3
  rw [hp3] at hload4 htake
  rw [List.append_nil] at hload4
  simp only [List.getD_cons_zero]
  rw [hcheck, andDo_finished, if_neg hne, hnew, andDo_finished, hcount, hload3, andDo_finished]
  rw [Store.wordCount, htake, andDo_finished]
  simp only [List.getD_cons_zero]
  rw [hload4, andDo_finished]

/-- Settles O56: what was saved is the image's file, and loading that file fills both stores. -/
theorem loadRestoresWhatSaveWrote : Obligations.LoadRestoresWhatSaveWrote := by
  intro s u o c l d file hc hmem hsave hp hl hd hne
  obtain ⟨hreadl, hreadd⟩ := hostMayRead_of_save hsave
  obtain ⟨r, hfile⟩ := save_eq o hreadl hreadd
  rw [hfile] at hsave
  obtain rfl := Except.ok.inj hsave
  obtain ⟨t, hload, hsamel, hsamed⟩ := load_fileOf (o := o) hc hmem hp hl hd hne
  rw [hload]
  exact ⟨_, rfl, rfl, rfl, rfl, hsamel, hsamed⟩

end Sys2Proof.Machine
end

section
/-! What whole-image operations leave alone, however they end (47_host_context.md R152, R185). -/

namespace Sys2Proof.Machine

variable {i : Instr} {s t u : State} {l d : Nat}

/-! ### What one operation leaves alone -/

/-- Only a resize draws words (U1). -/
theorem exec_keeps_draws (hi : drawsWords i = false) (h : exec i s = .next t) : t.draws = s.draws := by
  cases exec_effect h with
  | replacesStore g st draws _ hdraws => exact hdraws hi
  | codes r c hran =>
    obtain ⟨bits, hw, -⟩ := hran.wrote
    obtain ⟨-, -, -, hdraws, -⟩ := hw.frame
    exact hdraws
  | _ => rfl

/-- A store changes only under an operation that names it, or as the encoder's own. -/
theorem exec_keeps_store {g : Nat} (hhost : hostWrites i ≠ some g)
    (hcode : advancesEnc i = true → g ≠ s.enc.bs) (h : exec i s = .next t) :
    storeAt t g = storeAt s g := by
  cases exec_effect h with
  | replacesStore g' st draws hstore =>
    have hne : g ≠ g' := by rintro rfl; exact hhost hstore
    exact storeAt_setStore_other s g' st hne
  | codes r c hran =>
    obtain ⟨bits, hw, -⟩ := hran.wrote
    obtain ⟨-, -, -, -, -, -, -, hother⟩ := hw.frame
    exact hother g (hcode hran.coding)
  | _ => rfl

/-- From `s` to `t` nothing has changed but stores `l` and `d`, the encoder's registers and the response. -/
structure ImageFrame (l d : Nat) (s t : State) : Prop where
  dec : t.dec = s.dec
  params : t.params = s.params
  inputs : t.inputs = s.inputs
  draws : t.draws = s.draws
  length : t.stores.length = s.stores.length
  other : ∀ g, g ≠ l → g ≠ d → storeAt t g = storeAt s g

theorem ImageFrame.refl (l d : Nat) (s : State) : ImageFrame l d s s :=
  ⟨rfl, rfl, rfl, rfl, rfl, fun _ _ _ => rfl⟩

theorem ImageFrame.trans (h1 : ImageFrame l d s t) (h2 : ImageFrame l d t u) : ImageFrame l d s u :=
  ⟨h2.dec.trans h1.dec, h2.params.trans h1.params, h2.inputs.trans h1.inputs,
    h2.draws.trans h1.draws, h2.length.trans h1.length,
    fun g hl hd => (h2.other g hl hd).trans (h1.other g hl hd)⟩

/-- The operations of `compress` on stores `l` and `d`. -/
inductive CompressOp (l d : Nat) : Instr → Prop where
  | newLookup (n : Nat) : CompressOp l d (.bsNew l n)
  | newData (n : Nat) : CompressOp l d (.bsNew d n)
  | setLookup (y : Nat) : CompressOp l d (.bsSet l y)
  | openData : CompressOp l d (.encOpen d)
  | encode (px : List Pixel) : CompressOp l d (.encode px)
  | close : CompressOp l d .encClose

theorem CompressOp.frame (hi : CompressOp l d i) (hbs : advancesEnc i = true → s.enc.bs = d)
    (h : exec i s = .next t) : ImageFrame l d s t := by
  obtain ⟨hparams, hlen, hin, -, -, hdec, -⟩ := elementsAreWrittenOnlyByTheirOperations i s t h
  have hdraws : drawsWords i = false := by cases hi <;> rfl
  refine ⟨hdec (by cases hi <;> rfl) (by cases hi <;> rfl), hparams, hin,
    exec_keeps_draws hdraws h, hlen, fun g hgl hgd => exec_keeps_store ?_ ?_ h⟩
  · cases hi with
    | newLookup | setLookup => exact fun hg => hgl (Option.some.inj hg).symm
    | newData => exact fun hg => hgd (Option.some.inj hg).symm
    | _ => exact nofun
  · exact fun hcode => (hbs hcode).symm ▸ hgd

/-! ### What a piece of work leaves alone -/

/-- How an operation issued for its effect ends: in its next state, or in an error, which left the state alone or is a
fault that state reports. -/
theorem issueFor_cases (i : Instr) (s : State) :
    (∃ t, wellFormed s.params i = true ∧ exec i s = .next t ∧ (∀ f, t.response ≠ .faulted f) ∧
      issueFor i s = finished () t) ∨
    (∃ e, issueFor i s = failed e s) ∨
    ∃ e t f, exec i s = .next t ∧ t.response = .faulted f ∧ issueFor i s = failed e t := by
  unfold issueFor issue
  split
  · exact .inr (.inl ⟨_, rfl⟩)
  next hw =>
    cases hexec : exec i s with
    | next t =>
      cases hr : t.response with
      | faulted f => exact .inr (.inr ⟨_, t, f, rfl, hr, by simp only [hr]; rfl⟩)
      | _ =>
        refine .inl ⟨t, by simpa using hw, rfl, by simp [hr], ?_⟩
        simp only [hr]
        rfl
    | fault x => cases x; exact .inr (.inl ⟨_, rfl⟩)
    | refused r => exact .inr (.inl ⟨_, rfl⟩)

theorem issueFor_result_ok (h : (issueFor i s).result = .ok ()) :
    ∃ t, wellFormed s.params i = true ∧ exec i s = .next t ∧ (∀ f, t.response ≠ .faulted f) ∧
      issueFor i s = finished () t := by
  obtain hok | ⟨e, he⟩ | ⟨e, t, f, -, -, he⟩ := issueFor_cases i s
  · exact hok
  · rw [he] at h; cases h
  · rw [he] at h; cases h

/-- What holds before an operation and of its next state holds after issuing it. -/
theorem issueFor_state {P : State → Prop} (hs : P s) (hi : ∀ t, exec i s = .next t → P t) :
    P (issueFor i s).state := by
  obtain ⟨t, -, ht, -, h⟩ | ⟨e, h⟩ | ⟨e, t, f, ht, -, h⟩ := issueFor_cases i s
  · rw [h]; exact hi t ht
  · rw [h]; exact hs
  · rw [h]; exact hi t ht

/-- What each of some operations keeps, issuing them one after another keeps. -/
theorem issueAll_state {P : State → Prop} {is : List Instr}
    (hi : ∀ i ∈ is, ∀ s t, P s → exec i s = .next t → P t) (hs : P s) : P (issueAll is s).state := by
  induction is generalizing s with
  | nil => exact hs
  | cons i is ih =>
    obtain ⟨hone, hrest⟩ := List.forall_mem_cons.mp hi
    exact andDo_state (issueFor_state hs fun t => hone s t hs) fun _ _ =>
      ih hrest (issueFor_state hs fun t => hone s t hs)

/-! ### `compress` before, during and after its session -/

/-- Only the image has changed, and the encoder not at all. -/
def SettingUp (l d : Nat) (s t : State) : Prop := ImageFrame l d s t ∧ t.enc = s.enc

/-- Only the image has changed, and the encoder's session is open on the pixel data store. -/
def CodingImage (l d : Nat) (s t : State) : Prop :=
  ImageFrame l d s t ∧ t.enc.isOpen = true ∧ t.enc.bs = d

theorem SettingUp.refl (l d : Nat) (s : State) : SettingUp l d s s := ⟨ImageFrame.refl l d s, rfl⟩

theorem SettingUp.exec_bsNew {h n : Nat} (hs : SettingUp l d s t) (hh : CompressOp l d (.bsNew h n))
    (hexec : exec (.bsNew h n) t = .next u) : SettingUp l d s u := by
  obtain ⟨hframe, henc⟩ := hs
  obtain ⟨-, -, -, -, hkeep, -⟩ := elementsAreWrittenOnlyByTheirOperations _ t u hexec
  exact ⟨hframe.trans (hh.frame nofun hexec), (hkeep rfl rfl).trans henc⟩

theorem newCompressed_settingUp (l d : Nat) (z : BitmapSize) (s : State) :
    SettingUp l d s (newCompressed l d z s).state := by
  have hnew : SettingUp l d s (issueAll [.bsNew l z.height, .bsNew d 0] s).state := by
    refine issueAll_state ?_ (SettingUp.refl l d s)
    simp only [List.forall_mem_cons]
    exact ⟨fun _ _ hs => hs.exec_bsNew (.newLookup _), fun _ _ hs => hs.exec_bsNew (.newData _),
      List.forall_mem_nil _⟩
  refine andDo_state (SettingUp.refl l d s) fun _ _ => ?_
  split
  · exact SettingUp.refl l d s
  · exact andDo_state hnew fun _ _ => hnew

theorem CodingImage.exec {y : Nat} {px : List Pixel} (hs : CodingImage l d s t)
    (hi : i = .bsSet l y ∨ i = .encode px) (hexec : exec i t = .next u) : CodingImage l d s u := by
  obtain ⟨hframe, hopen, hbs⟩ := hs
  obtain ⟨-, -, -, -, hkeep, -, hcode, -⟩ := elementsAreWrittenOnlyByTheirOperations _ t u hexec
  obtain rfl | rfl := hi
  · refine ⟨hframe.trans (CompressOp.frame (.setLookup y) nofun hexec), ?_⟩
    rw [hkeep rfl rfl]
    exact ⟨hopen, hbs⟩
  · obtain ⟨hopen', hbs', -⟩ := hcode rfl
    exact ⟨hframe.trans (CompressOp.frame (.encode px) (fun _ => hbs) hexec), hopen'.trans hopen,
      hbs'.trans hbs⟩

theorem compressRows_coding {height y : Nat} {rows : List (List Pixel)} (hs : CodingImage l d s t) :
    CodingImage l d s (compressRows l height y rows t).state := by
  induction rows generalizing y t with
  | nil => exact hs
  | cons row rows ih =>
    have hops : CodingImage l d s (issueAll (rowOps l y row) t).state := by
      refine issueAll_state (fun i hi a b ha hab => ?_) hs
      unfold rowOps at hi
      split at hi
      · cases hi
      · exact ha.exec (y := y) (px := row) (by simpa using hi) hab
    exact andDo_state hs fun _ _ => andDo_state hops fun _ _ => ih hops

/-- Closing the session answers, and the encoder's session is closed. -/
theorem issueFor_encClose (hopen : s.enc.isOpen = true) :
    issueFor .encClose s =
      finished () { s with enc := { s.enc with isOpen := false }, response := .done } :=
  issueFor_of_next rfl ((encCloseEndsTheSession s).1 hopen) nofun

/-- `ENC_OPEN` answers or leaves the state alone: it cannot fault. -/
theorem issueFor_encOpen_cases (d : Nat) (s : State) :
    (∃ t, exec (.encOpen d) s = .next t ∧ issueFor (.encOpen d) s = finished () t) ∨
      ∃ e, issueFor (.encOpen d) s = failed e s := by
  obtain ⟨t, -, ht, -, h⟩ | h | ⟨e, t, f, ht, hf, -⟩ := issueFor_cases (.encOpen d) s
  · exact .inl ⟨t, ht, h⟩
  · exact .inr h
  · obtain ⟨-, -, -, rfl⟩ := exec_encOpen_eq_next ht
    cases hf

/-- However `compress` ends, its session is closed and only its image has changed. -/
theorem compress_frame (l d : Nat) (b : Bitmap) (s : State) :
    ImageFrame l d s (compress l d b s).state ∧
      (compress l d b s).state.enc.isOpen = s.enc.isOpen := by
  obtain ⟨hframe, henc⟩ := newCompressed_settingUp l d b.size s
  have hstart : ImageFrame l d s (newCompressed l d b.size s).state ∧
      (newCompressed l d b.size s).state.enc.isOpen = s.enc.isOpen := ⟨hframe, congrArg _ henc⟩
  refine andDo_state (P := fun t => ImageFrame l d s t ∧ t.enc.isOpen = s.enc.isOpen) hstart
    fun c _ => ?_
  obtain ⟨u, hopen, h⟩ | ⟨e, h⟩ := issueFor_encOpen_cases d (newCompressed l d b.size s).state
  · have hu := CompressOp.frame (l := l) .openData nofun hopen
    obtain ⟨hclosed, -, -, rfl⟩ := exec_encOpen_eq_next hopen
    have hrows : CodingImage l d s (compressRows l b.size.height 0 (rowsOf b) _).state :=
      compressRows_coding ⟨hframe.trans hu, rfl, rfl⟩
    have hwork : CodingImage l d s (andDo (compressRows l b.size.height 0 (rowsOf b) _)
        fun _ v => finished c v).state := andDo_state hrows fun _ _ => hrows
    obtain ⟨hf, hisOpen, -⟩ := hwork
    rw [h, andDo_finished, leaveScope_state, issueFor_encClose hisOpen, finished_state]
    refine ⟨hf.trans ?_, hclosed.symm.trans (congrArg _ henc)⟩
    exact CompressOp.frame .close nofun ((encCloseEndsTheSession _).1 hisOpen)
  · rw [h, andDo_failed]
    exact hstart

/-! ### `uncompress` -/

/-- From `s` to `t` nothing has changed but the decoder's registers and the response. -/
structure ReadFrame (s t : State) : Prop where
  enc : t.enc = s.enc
  params : t.params = s.params
  inputs : t.inputs = s.inputs
  draws : t.draws = s.draws
  stores : t.stores = s.stores

theorem ReadFrame.refl (s : State) : ReadFrame s s := ⟨rfl, rfl, rfl, rfl, rfl⟩

theorem ReadFrame.trans (h1 : ReadFrame s t) (h2 : ReadFrame t u) : ReadFrame s u :=
  ⟨h2.enc.trans h1.enc, h2.params.trans h1.params, h2.inputs.trans h1.inputs,
    h2.draws.trans h1.draws, h2.stores.trans h1.stores⟩

/-- The operations of `uncompress` write no store and leave the encoder alone. -/
theorem ReadFrame.of_exec (hw : writesStores i = false) (he : opensOrClosesEnc i = false)
    (h : exec i s = .next t) : ReadFrame s t := by
  obtain ⟨hparams, -, hin, hstores, henc, -⟩ := elementsAreWrittenOnlyByTheirOperations i s t h
  have hcode : advancesEnc i = false := by cases i <;> cases hw <;> rfl
  have hdraws : drawsWords i = false := by cases i <;> cases hw <;> rfl
  exact ⟨henc hcode he, hparams, hin, exec_keeps_draws hdraws h, hstores hw⟩

/-- Only the decoder has changed, and its session is open. -/
def ReadingImage (s t : State) : Prop := ReadFrame s t ∧ t.dec.isOpen = true

theorem ReadingImage.exec {l y n : Nat} (hs : ReadingImage s t) (hi : i = .bsTest l y ∨ i = .decode n)
    (hexec : exec i t = .next u) : ReadingImage s u := by
  obtain ⟨hframe, hopen⟩ := hs
  obtain ⟨-, -, -, -, -, hkeep, -, hcode, -⟩ := elementsAreWrittenOnlyByTheirOperations _ t u hexec
  obtain rfl | rfl := hi
  · exact ⟨hframe.trans (ReadFrame.of_exec rfl rfl hexec), by rw [hkeep rfl rfl]; exact hopen⟩
  · exact ⟨hframe.trans (ReadFrame.of_exec rfl rfl hexec), (hcode rfl).1.trans hopen⟩

theorem ReadingImage.issue {l y n : Nat} (hs : ReadingImage s t)
    (hi : i = .bsTest l y ∨ i = .decode n) : ReadingImage s (issue i t).state := by
  obtain h | h := issue_state i t
  · rwa [h]
  · exact hs.exec hi h

theorem uncompressRow_reading {l y : Nat} {b : Bitmap} (hs : ReadingImage s t) :
    ReadingImage s (uncompressRow l y b t).state := by
  have htest : ReadingImage s (issue (.bsTest l y) t).state :=
    hs.issue (l := l) (y := y) (n := 0) (.inl rfl)
  refine andDo_state htest fun r _ => ?_
  have hdecode : ReadingImage s (issue (.decode b.size.width) (issue (.bsTest l y) t).state).state :=
    htest.issue (l := l) (y := y) (.inr rfl)
  split
  · refine andDo_state hdecode fun q _ => ?_
    split
    · exact hdecode
    · exact hdecode
  · exact htest

theorem uncompressRows_reading {l n y : Nat} {b : Bitmap} (hs : ReadingImage s t) :
    ReadingImage s (uncompressRows l n y b t).state := by
  induction n generalizing y b t with
  | zero => exact hs
  | succ n ih =>
    have hrow := uncompressRow_reading (l := l) (y := y) (b := b) hs
    exact andDo_state hs fun _ _ => andDo_state hrow fun _ _ => ih hrow

theorem issueFor_decClose (hopen : s.dec.isOpen = true) :
    issueFor .decClose s =
      finished () { s with dec := { s.dec with isOpen := false }, response := .done } :=
  issueFor_of_next rfl ((decCloseEndsTheSession s).1 hopen) nofun

/-- What a `DEC_OPEN` that was answered leaves. -/
theorem exec_decOpen_eq_next {h : Nat} (hexec : exec (.decOpen h) s = .next t) :
    s.dec.isOpen = false ∧ t = decOpened h s := by
  obtain ⟨hg, hnext⟩ := guarded_eq_next_iff.mp hexec
  exact ⟨((decOpenGuard_eq_none_iff h s).mp hg).1, (Host.Outcome.next.inj hnext).symm⟩

/-- `DEC_OPEN` answers or leaves the state alone: it cannot fault. -/
theorem issueFor_decOpen_cases (d : Nat) (s : State) :
    (∃ t, exec (.decOpen d) s = .next t ∧ issueFor (.decOpen d) s = finished () t) ∨
      ∃ e, issueFor (.decOpen d) s = failed e s := by
  obtain ⟨t, -, ht, -, h⟩ | h | ⟨e, t, f, ht, hf, -⟩ := issueFor_cases (.decOpen d) s
  · exact .inl ⟨t, ht, h⟩
  · exact .inr h
  · obtain ⟨-, rfl⟩ := exec_decOpen_eq_next ht
    cases hf

/-- However `uncompress` ends, its session is closed and no store has changed. -/
theorem uncompress_frame (room : Option Nat) (c : CompressedBitmap) (s : State) :
    ReadFrame s (uncompress room c s).state ∧
      (uncompress room c s).state.dec.isOpen = s.dec.isOpen := by
  refine andDo_state (P := fun t => ReadFrame s t ∧ t.dec.isOpen = s.dec.isOpen)
    ⟨ReadFrame.refl s, rfl⟩ fun b _ => ?_
  rw [ofExcept_state]
  obtain ⟨u, hopen, h⟩ | ⟨e, h⟩ := issueFor_decOpen_cases c.pixelData s
  · have hu := ReadFrame.of_exec rfl rfl hopen
    obtain ⟨hclosed, rfl⟩ := exec_decOpen_eq_next hopen
    obtain ⟨hf, hisOpen⟩ : ReadingImage s (uncompressRows c.lookup c.size.height 0 b _).state :=
      uncompressRows_reading ⟨hu, rfl⟩
    rw [h, andDo_finished, leaveScope_state, issueFor_decClose hisOpen, finished_state]
    exact ⟨hf.trans (ReadFrame.of_exec rfl rfl ((decCloseEndsTheSession _).1 hisOpen)), hclosed.symm⟩
  · rw [h, andDo_failed]
    exact ⟨ReadFrame.refl s, rfl⟩

end Sys2Proof.Machine
end

section
/-! What `compress` leaves in its two stores where it ends well (47_host_context.md R150, R157, R162). -/

namespace Sys2Proof.Machine

variable {i : Instr} {s t u : State} {l d : Nat}

/-! ### Operations that ended without a fault -/

theorem issueAll_cons_ok {is : List Instr} (h : (issueAll (i :: is) s).result = .ok ()) :
    ∃ t, wellFormed s.params i = true ∧ exec i s = .next t ∧ (∀ f, t.response ≠ .faulted f) ∧
      issueAll (i :: is) s = issueAll is t := by
  obtain ⟨_, hone, -⟩ := andDo_ok h
  obtain ⟨t, hw, ht, hf, heq⟩ := issueFor_result_ok hone
  exact ⟨t, hw, ht, hf, by rw [issueAll, heq, andDo_finished]⟩

theorem hostMayWrite_of_guarded_eq_next {h : Nat} {o : Host.Outcome State Fault Refusal}
    (hexec : guarded (hostWriteGuard h s) o = .next t) : HostMayWrite h s :=
  (hostWriteGuard_eq_none_iff h s).mp (guarded_eq_next_iff.mp hexec).1

/-- A `BS_NEW` that ended without a fault made words of 0. -/
theorem exec_bsNew_done {h n : Nat} (hexec : exec (.bsNew h n) s = .next t)
    (hf : ∀ f, t.response ≠ .faulted f) :
    HostMayWrite h s ∧ Replaced h (List.replicate (ceilDiv n s.params.w) 0) s t := by
  have hw : HostMayWrite h s := hostMayWrite_of_guarded_eq_next hexec
  rw [exec_bsNew_of_mayWrite n hw] at hexec
  split_ifs at hexec with hover
  · obtain rfl := Host.Outcome.next.inj hexec
    exact absurd rfl (hf _)
  · obtain rfl := Host.Outcome.next.inj hexec
    exact ⟨hw, Replaced.of_setStore hw.1 _ .done s.draws⟩

/-- A `BS_SET` that ended without a fault set its bit. -/
theorem exec_bsSet_done {h y : Nat} (hexec : exec (.bsSet h y) s = .next t)
    (hf : ∀ f, t.response ≠ .faulted f) :
    t = answer .done (setStore s h (setBit s.params.w (storeAt s h) y)) := by
  have hw : HostMayWrite h s := hostMayWrite_of_guarded_eq_next hexec
  by_cases hfit : OneFits s.params (storeAt s h).wordCount y
  · rw [exec_bsSet_of_fits hw hfit] at hexec
    exact (Host.Outcome.next.inj hexec).symm
  · rw [exec_bsSet_of_mayWrite y hw, writeSet_of_not_fits hfit] at hexec
    obtain rfl := Host.Outcome.next.inj hexec
    exact absurd rfl (hf _)

/-- An `ENCODE` that ended without a fault wrote its stream. -/
theorem exec_encode_done {px : List Pixel} (hexec : exec (.encode px) s = .next t)
    (hf : ∀ f, t.response ≠ .faulted f) :
    ∃ m, Wrote (streamOf s.params.packOrder px) s m ∧ t = answer .done m := by
  have hs := encReady_of_exec_encode hexec
  rw [exec_encode_eq_stream hs] at hexec
  obtain ⟨m, hm, hw⟩ | ⟨n, f, m, -, hm, -, -⟩ :=
    writeBits_cases (streamOf s.params.packOrder px) s hs.2.2
  · rw [hm] at hexec
    exact ⟨m, hw, (Host.Outcome.next.inj hexec).symm⟩
  · rw [hm] at hexec
    obtain rfl := Host.Outcome.next.inj hexec
    exact absurd rfl (hf _)

/-! ### What rows leave in the two stores -/

/-- A row that is encoded: one with a pixel that is not white (R150, R151). -/
def rowHasInk (row : List Pixel) : Bool := row.any fun q => decide (q ≠ 0xFF)

theorem isEmptyRow_eq (row : List Pixel) : isEmptyRow row = !rowHasInk row := by
  simp only [isEmptyRow, rowHasInk, List.not_any_eq_all_not, decide_not, Bool.not_not]
  rfl

theorem rowHasInk_iff (row : List Pixel) : rowHasInk row = true ↔ ∃ q ∈ row, q ≠ 0xFF := by
  simp [rowHasInk]

/-- The encodings of the rows that have one, in order (R150). -/
def inkStream (o : PackOrder) (rows : List (List Pixel)) : List Bool :=
  (rows.filter rowHasInk).flatMap (streamOf o)

theorem imageStream_eq (o : PackOrder) (b : Bitmap) : imageStream o b = inkStream o (rowsOf b) := rfl

theorem inkStream_cons (o : PackOrder) (row : List Pixel) (rows : List (List Pixel)) :
    inkStream o (row :: rows) = inkStream o [row] ++ inkStream o rows := by
  rw [inkStream, ← List.singleton_append, List.filter_append, List.flatMap_append]
  rfl

theorem inkStream_of_ink {o : PackOrder} {row : List Pixel} (h : rowHasInk row = true) :
    inkStream o [row] = streamOf o row := by
  simp [inkStream, h]

theorem inkStream_of_empty {o : PackOrder} {row : List Pixel} (h : rowHasInk row = false) :
    inkStream o [row] = [] := by
  simp [inkStream, h]

/-- From `s` to `t` the bits of `marks` were set in the lookup table `l`, and `bits` were written at the encoder's
cursor. -/
structure Stored (l : Nat) (marks : Nat → Bool) (bits : List Bool) (s t : State) : Prop where
  params : t.params = s.params
  length : t.stores.length = s.stores.length
  enc : t.enc = { s.enc with cursor := s.enc.cursor + bits.length }
  lookup : ∀ i, bitAt t l i = (bitAt s l i || marks i)
  count : (∀ i, marks i = true → i / s.params.w < (storeAt s l).wordCount) →
    (storeAt t l).wordCount = (storeAt s l).wordCount
  data : ∀ i, bitAt t s.enc.bs i = overlay s.enc.cursor bits (bitAt s s.enc.bs) i

theorem Stored.refl (l : Nat) (s : State) : Stored l (fun _ => false) [] s s :=
  ⟨rfl, rfl, rfl, fun i => (Bool.or_false _).symm, fun _ => rfl, fun i => by rw [overlay_nil]⟩

theorem Stored.trans {m m' : Nat → Bool} {x y : List Bool} (h1 : Stored l m x s t)
    (h2 : Stored l m' y t u) : Stored l (fun i => m i || m' i) (x ++ y) s u := by
  have hbs : t.enc.bs = s.enc.bs := by rw [h1.enc]
  have hcur : t.enc.cursor = s.enc.cursor + x.length := by rw [h1.enc]
  refine ⟨h2.params.trans h1.params, h2.length.trans h1.length, ?_, fun i => ?_, fun hall => ?_,
    fun i => ?_⟩
  · rw [h2.enc, h1.enc, List.length_append, Nat.add_assoc]
  · rw [h2.lookup, h1.lookup, Bool.or_assoc]
  · have hfirst := h1.count fun i hi => hall i (by rw [hi, Bool.true_or])
    rw [← hfirst]
    refine h2.count fun i hi => ?_
    rw [h1.params, hfirst]
    exact hall i (by rw [hi, Bool.or_true])
  · have hdata := h2.data i
    rw [hbs, hcur, funext h1.data] at hdata
    rw [hdata, overlay_append]

theorem Stored.encReady {m : Nat → Bool} {x : List Bool} (h : Stored l m x s t) (hs : EncReady s) :
    EncReady t := by
  obtain ⟨hopen, hnofault, hbs⟩ := hs
  rw [EncReady, h.enc, h.length]
  exact ⟨hopen, hnofault, hbs⟩

/-- Setting lookup bit `y` and encoding a row of ink. -/
theorem stored_set_encode {y : Nat} {px : List Pixel} (hl : l < s.stores.length) (hne : l ≠ s.enc.bs)
    (hset : exec (.bsSet l y) s = .next t) (ht : ∀ f, t.response ≠ .faulted f)
    (henc : exec (.encode px) t = .next u) (hu : ∀ f, u.response ≠ .faulted f) :
    Stored l (fun i => decide (i = y)) (streamOf s.params.packOrder px) s u := by
  obtain rfl := exec_bsSet_done hset ht
  obtain ⟨m, hw, rfl⟩ := exec_encode_done henc hu
  obtain ⟨hparams, -, -, -, -, -, hlen, hother⟩ := hw.frame
  have hlm : storeAt m l = setBit s.params.w (storeAt s l) y :=
    (hother l hne).trans (storeAt_setStore_same _ _ _ hl)
  have hd (i : Nat) : bitAt (setStore s l (setBit s.params.w (storeAt s l) y)) s.enc.bs i =
      bitAt s s.enc.bs i := by rw [bitAt_setStore, if_neg fun hc => hne hc.1.symm]
  refine ⟨hparams, hlen.trans List.length_set, hw.enc, fun i => ?_, fun hall => ?_, fun i => ?_⟩
  · have hp : m.params = s.params := hparams
    have hb := params_w_bounds s.params
    rw [bitAt_answer, bitAt, hlm, hp, testBit_setBit hb.1 hb.2, bitAt]
    by_cases hi : i = y <;> simp [hi]
  · have hy := hall y (decide_eq_true rfl)
    rw [storeAt_answer, hlm, wordCount_setBit]
    omega
  · rw [← funext hd]
    exact hw.stored i

/-- One row: nothing for an empty one, else its lookup bit and its stream (R162). -/
theorem stored_rowOps {y : Nat} {row : List Pixel} (hl : l < s.stores.length) (hne : l ≠ s.enc.bs)
    (hok : (issueAll (rowOps l y row) s).result = .ok ()) :
    Stored l (fun i => decide (i = y) && rowHasInk row) (inkStream s.params.packOrder [row]) s
      (issueAll (rowOps l y row) s).state := by
  unfold rowOps at hok ⊢
  rw [isEmptyRow_eq] at hok ⊢
  cases hink : rowHasInk row with
  | false =>
    simp only [inkStream_of_empty hink, Bool.and_false]
    exact Stored.refl l s
  | true =>
    simp only [hink, Bool.not_true, Bool.false_eq_true, if_false] at hok ⊢
    obtain ⟨t, -, hset, ht, heq⟩ := issueAll_cons_ok hok
    rw [heq] at hok
    obtain ⟨u, -, henc, hu, heq'⟩ := issueAll_cons_ok hok
    simp only [inkStream_of_ink hink, heq, heq', Bool.and_true]
    exact stored_set_encode hl hne hset ht henc hu

/-- The lookup bits of rows `y` to `y + n − 1`, row `k` being `f k`. -/
def rowMarks (f : Nat → List Pixel) (y n : Nat) (i : Nat) : Bool :=
  decide (y ≤ i ∧ i < y + n) && rowHasInk (f i)

theorem rowMarks_succ (f : Nat → List Pixel) (y n i : Nat) :
    (decide (i = y) && rowHasInk (f y) || rowMarks f (y + 1) n i) = rowMarks f y (n + 1) i := by
  unfold rowMarks
  by_cases hi : i = y
  · subst hi; simp
  · have hiff : (y + 1 ≤ i ∧ i < y + 1 + n) ↔ (y ≤ i ∧ i < y + (n + 1)) := by omega
    simp only [hi, hiff, decide_false, Bool.false_and, Bool.false_or]

/-- Rows that ended well are stored one after another. -/
theorem stored_compressRows {f : Nat → List Pixel} {height y n : Nat} (hl : l < s.stores.length)
    (hne : l ≠ s.enc.bs)
    (hok : (compressRows l height y ((List.range' y n).map f) s).result = .ok ()) :
    Stored l (rowMarks f y n) (inkStream s.params.packOrder ((List.range' y n).map f)) s
      (compressRows l height y ((List.range' y n).map f) s).state := by
  induction n generalizing y s with
  | zero =>
    have hnone : rowMarks f y 0 = fun _ => false := by
      funext i
      simp [rowMarks, show ¬ (y ≤ i ∧ i < y) by omega]
    rw [hnone]
    exact Stored.refl l s
  | succ n ih =>
    rw [List.range'_succ, List.map_cons, compressRows] at hok ⊢
    obtain ⟨_, -, hops, hstate, -⟩ := andDo_ok hok
    rw [progress_state] at hops hstate
    obtain ⟨_, hrow, hrest, hstate', -⟩ := andDo_ok hops
    have h1 := stored_rowOps hl hne hrow
    have h2 := ih (h1.length ▸ hl) (by rw [h1.enc]; exact hne) hrest
    rw [h1.params] at h2
    rw [hstate, hstate', inkStream_cons, ← funext (rowMarks_succ f y n)]
    exact h1.trans h2

end Sys2Proof.Machine
end

section
/-! A `compress` that ends well (47_host_context.md R157, R161): the image it answers represents its source, and its lookup
table tells the empty rows (R186 (2)). -/

namespace Sys2Proof.Machine

variable {s t : State} {l d : Nat} {b : Bitmap} {c : CompressedBitmap}

/-- The state in which `compress` opens its session: both stores are fresh. -/
theorem newCompressed_ok {z : BitmapSize} (h : (newCompressed l d z s).result = .ok c) :
    SizeValid s.params z ∧ l ≠ d ∧ HostMayWrite l s ∧ HostMayWrite d s ∧
      c = { size := z, lookup := l, pixelData := d } ∧
      storeAt (newCompressed l d z s).state l =
        { words := List.replicate (ceilDiv z.height s.params.w) 0 } ∧
      storeAt (newCompressed l d z s).state d = { words := [] } := by
  obtain ⟨_, hsize, hrest, hstate, -⟩ := andDo_ok h
  change (newCompressed l d z s).state = _ at hstate
  have hvalid := checkSize_eq_ok_iff.mp hsize
  rw [ofExcept_state] at hrest hstate
  by_cases heq : l = d
  · rw [if_pos heq] at hrest
    cases hrest
  · rw [if_neg heq] at hrest hstate
    obtain ⟨_, hnew, hc, hstate', -⟩ := andDo_ok hrest
    obtain ⟨t, -, hl, hft, hfirst⟩ := issueAll_cons_ok hnew
    rw [hfirst] at hnew
    obtain ⟨u, -, hd, hfu, hsecond⟩ := issueAll_cons_ok hnew
    obtain ⟨hmayl, h1⟩ := exec_bsNew_done hl hft
    obtain ⟨hmayd, h2⟩ := exec_bsNew_done hd hfu
    rw [h1.params, ceilDiv_zero _ (params_w_bounds s.params).1] at h2
    rw [hstate, hstate', hfirst, hsecond]
    exact ⟨hvalid, heq, hmayl, h1.mayWrite_iff.mp hmayd, (Except.ok.inj hc).symm,
      (h2.other l heq).trans h1.same, h2.same⟩

theorem rowsOf_eq_range' (b : Bitmap) : rowsOf b = (List.range' 0 b.size.height).map (rowPixels b) := by
  rw [rowsOf, List.range_eq_range']

/-- Bits written from index 0 on over a store of 0 bits are the store. -/
theorem overlay_zero (bits : List Bool) (i : Nat) :
    overlay 0 bits (fun _ => false) i = bits.getD i false := by
  rw [overlay]
  split_ifs with hi
  · rfl
  · rw [List.getD_eq_default _ _ (by omega)]

theorem rowMarks_all_iff (b : Bitmap) (y : Nat) :
    rowMarks (rowPixels b) 0 b.size.height y = true ↔
      y < b.size.height ∧ ∃ q ∈ rowPixels b y, q ≠ 0xFF := by
  rw [rowMarks, Bool.and_eq_true, decide_eq_true_iff, rowHasInk_iff]
  simp

theorem div_lt_ceilDiv {w i n : Nat} (hw : 0 < w) (hi : i < n) : i / w < ceilDiv n w := by
  rw [ceilDiv, Nat.div_lt_iff_lt_mul hw]
  have h1 := Nat.div_add_mod (n + w - 1) w
  have h2 := Nat.mod_lt (n + w - 1) hw
  rw [Nat.mul_comm] at h1
  omega

/-- What a `compress` that ends well has done. -/
theorem compress_ok (h : (compress l d b s).result = .ok c) :
    SizeValid s.params b.size ∧ l ≠ d ∧ HostMayWrite l s ∧ s.enc.isOpen = false ∧
      c = { size := b.size, lookup := l, pixelData := d } ∧
      Represents (compress l d b s).state c b ∧
      (storeAt (compress l d b s).state l).wordCount = ceilDiv b.size.height s.params.w := by
  obtain ⟨c', hnew, hrest, hstate, -⟩ := andDo_ok h
  change (compress l d b s).state = _ at hstate
  obtain ⟨hvalid, hne, hmayl, -, rfl, hzerol, hzerod⟩ := newCompressed_ok hnew
  obtain ⟨hframe, henc⟩ := newCompressed_settingUp l d b.size s
  generalize (newCompressed l d b.size s).state = m at *
  obtain ⟨_, hopen, -⟩ := andDo_ok hrest
  obtain ⟨u, -, hexec, -, hu⟩ := issueFor_result_ok hopen
  rw [hu, andDo_finished] at hrest hstate
  obtain ⟨hwork, -⟩ := leaveScope_result_ok.mp hrest
  obtain ⟨_, hrows, hc, hstate', -⟩ := andDo_ok hwork
  obtain rfl := Except.ok.inj hc
  have hopened := CompressOp.frame (l := l) .openData nofun hexec
  obtain ⟨hclosed, -, -, rfl⟩ := exec_encOpen_eq_next hexec
  obtain ⟨-, hisOpen, -⟩ := compressRows_coding (height := b.size.height) (y := 0) (rows := rowsOf b)
    (t := encOpened d m) ⟨hframe.trans hopened, rfl, rfl⟩
  rw [leaveScope_state, hstate', finished_state, issueFor_encClose hisOpen, finished_state] at hstate
  rw [rowsOf_eq_range'] at hrows hstate
  have hl : l < (encOpened d m).stores.length := Nat.lt_of_lt_of_eq hmayl.1 hframe.length.symm
  have hstored := stored_compressRows (f := rowPixels b) hl hne hrows
  generalize (compressRows l b.size.height 0 _ _).state = t at hstate hstored
  have hparams : t.params = s.params := hstored.params.trans hframe.params
  have hzero (i : Nat) : bitAt (encOpened d m) l i = false ∧ bitAt (encOpened d m) d i = false := by
    change testBit _ (storeAt m l) i = false ∧ testBit _ (storeAt m d) i = false
    rw [hzerol, hzerod]
    exact ⟨testBit_replicate_zero _ _ _, testBit_replicate_zero _ 0 _⟩
  rw [hstate]
  refine ⟨hvalid, hne, hmayl, (congrArg Session.isOpen henc).symm.trans hclosed, rfl,
    ⟨rfl, fun y => ?lookup, fun j => ?data⟩, ?count⟩
  case lookup =>
    have h := hstored.lookup y
    rw [(hzero y).1, Bool.false_or] at h
    exact (Bool.eq_iff_iff.mp h).trans (rowMarks_all_iff b y)
  case data =>
    have hfun : bitAt (encOpened d m) d = fun _ => false := funext fun i => (hzero i).2
    have h : bitAt t d j = overlay 0 _ (bitAt (encOpened d m) d) j := hstored.data j
    rw [hfun, overlay_zero, ← rowsOf_eq_range', ← imageStream_eq, ← hstored.params] at h
    exact h
  case count =>
    have hp : (encOpened d m).params = s.params := hframe.params
    have hcount : (storeAt (encOpened d m) l).wordCount = ceilDiv b.size.height s.params.w :=
      (congrArg Store.wordCount hzerol).trans List.length_replicate
    refine (hstored.count fun i hi => ?_).trans hcount
    rw [hcount, hp]
    exact div_lt_ceilDiv (params_w_bounds s.params).1 ((rowMarks_all_iff b i).mp hi).1

end Sys2Proof.Machine
end

section
/-! The statements about `compress` that follow from what it leaves (47_host_context.md R157, R159, R186 (2)). -/

namespace Sys2Proof.Machine

variable {s t : State} {l d : Nat} {b : Bitmap} {c : CompressedBitmap}

/-- Settles O60: the frames hold in every outcome, and a `compress` that ends well has stored its image. -/
theorem compressAnswersTheImageAndLeavesTheRest :
    Obligations.CompressAnswersTheImageAndLeavesTheRest := by
  intro s t l d b
  refine ⟨?_, fun room c => ?_⟩
  · rintro rfl
    obtain ⟨hframe, hopen⟩ := compress_frame l d b s
    refine ⟨hopen, hframe.dec, hframe.params, hframe.inputs, hframe.draws, hframe.length,
      hframe.other, fun c hc => ?_⟩
    obtain ⟨-, hne, -, -, himage, hrep, hcount⟩ := compress_ok hc
    exact ⟨himage, hne, hrep, hcount⟩
  · rintro rfl
    obtain ⟨hframe, hopen⟩ := uncompress_frame room c s
    exact ⟨hopen, hframe.enc, hframe.params, hframe.inputs, hframe.draws, hframe.stores⟩

/-- A row the lookup table has and an index can name is told by its lookup bit (R159). -/
theorem isEmptyRowAt_of_mayRead {y : Nat} (hr : HostMayRead c.lookup s) (hy : y < c.size.height)
    (hfits : indexFits s.params y = true) :
    (isEmptyRowAt c y s).result = .ok (!bitAt s c.lookup y) := by
  rw [isEmptyRowAt, if_neg (Nat.not_le.mpr hy), issue_of_next (i := .bsTest c.lookup y) hfits
    (exec_bsTest_of_mayRead y hr) nofun, andDo_finished]
  rfl

theorem isEmptyRowAt_of_not_fits {y : Nat} (hy : y < c.size.height)
    (hfits : indexFits s.params y = false) :
    (isEmptyRowAt c y s).result = .error (.notPresentable (.bsTest c.lookup y)) := by
  rw [isEmptyRowAt, if_neg (Nat.not_le.mpr hy), issue,
    if_pos (show wellFormed s.params (.bsTest c.lookup y) = false from hfits), andDo_failed]
  rfl

/-- Settles O55: with the session closed the host may read the lookup table, whose bits tell the rows. -/
theorem lookupTableMarksNonEmptyRows : Obligations.LookupTableMarksNonEmptyRows := by
  rintro s t l d b c hc rfl
  obtain ⟨hframe, hopen⟩ := compress_frame l d b s
  obtain ⟨-, -, hmay, hclosed, rfl, ⟨-, hlookup, -⟩, -⟩ := compress_ok hc
  have hr : HostMayRead l (compress l d b s).state :=
    ⟨Nat.lt_of_lt_of_eq hmay.1 hframe.length.symm,
      fun ⟨hstill, _⟩ => Bool.false_ne_true ((hclosed.symm.trans hopen.symm).trans hstill)⟩
  rw [← hframe.params]
  refine ⟨fun y hy hfits => ⟨_, isEmptyRowAt_of_mayRead hr hy hfits, ?_⟩,
    fun y hy hfits => ⟨_, isEmptyRowAt_of_not_fits hy hfits⟩, fun y hy => ?_⟩
  · rw [Bool.not_eq_true', ← Bool.not_eq_true, hlookup y]
    simp [hy]
  · rw [isEmptyRowAt, if_pos hy]
    rfl

end Sys2Proof.Machine
end

section
/-! `compress` of a bitmap on an instance without limits ends well (47_host_context.md R161, R162): nothing it asks of the
block can fault or be refused. -/

namespace Sys2Proof.Machine

variable {s t : State} {l d : Nat} {b : Bitmap}

/-- The instance bounds neither a store's words nor an index (00_scope.md R12). -/
def Unlimited (p : Params) : Prop := p.maxWords = none ∧ p.indexBits = none

theorem Unlimited.wordsAllowed {p : Params} (h : Unlimited p) (n : Nat) : wordsAllowed p n = true := by
  rw [Machine.wordsAllowed, h.1]

theorem Unlimited.cursorRoom {p : Params} (h : Unlimited p) (c n : Nat) : CursorRoom p c n := by
  intro iw hiw
  rw [h.2] at hiw
  cases hiw

theorem Unlimited.indexFits {p : Params} (h : Unlimited p) (i : Nat) : indexFits p i = true :=
  (indexFits_iff_room p i).mpr (h.cursorRoom i 0)

/-- Rows can be stored: an encoder session runs on the pixel data store, and the host may write the lookup table. -/
def RowsReady (l : Nat) (s : State) : Prop := EncReady s ∧ HostMayWrite l s ∧ Unlimited s.params

theorem RowsReady.bsSet (hs : RowsReady l s) (y : Nat) :
    ∃ t, issueFor (.bsSet l y) s = finished () t ∧ RowsReady l t := by
  obtain ⟨⟨hopen, hnofault, hbs⟩, hw, hp⟩ := hs
  refine ⟨_, issueFor_of_next (i := .bsSet l y) (hp.indexFits y)
    (exec_bsSet_of_fits hw (.inr (hp.wordsAllowed _))) nofun, ⟨hopen, hnofault, ?_⟩, ⟨?_, hw.2⟩, hp⟩
  · exact Nat.lt_of_lt_of_eq hbs List.length_set.symm
  · exact Nat.lt_of_lt_of_eq hw.1 List.length_set.symm

theorem RowsReady.encode (hs : RowsReady l s) (px : List Pixel) :
    ∃ t, issueFor (.encode px) s = finished () t ∧ RowsReady l t := by
  obtain ⟨hready, ⟨hl, hfree⟩, hp⟩ := hs
  obtain ⟨m, hm, hw⟩ := writeBits_completes (streamOf s.params.packOrder px) s hready.2.2
    (hp.cursorRoom _ _) fun _ _ _ => .inr (hp.wordsAllowed _)
  obtain ⟨hparams, hdec, -, -, hopen, hbs, hlen, -⟩ := hw.frame
  refine ⟨answer .done m, issueFor_of_next rfl (by rw [exec_encode_eq_stream hready, hm, finish_done])
    nofun, hw.encReady hready, ⟨Nat.lt_of_lt_of_eq hl hlen.symm, ?_⟩, ?_⟩
  · rw [answer_enc, answer_dec, hopen, hbs, hdec]
    exact hfree
  · rw [answer_params, hparams]
    exact hp

theorem RowsReady.rowOps (hs : RowsReady l s) (y : Nat) (row : List Pixel) :
    ∃ t, issueAll (rowOps l y row) s = finished () t ∧ RowsReady l t := by
  unfold Machine.rowOps
  split
  · exact ⟨s, rfl, hs⟩
  · obtain ⟨t, ht, hst⟩ := hs.bsSet y
    obtain ⟨u, hu, hsu⟩ := hst.encode row
    exact ⟨u, by rw [issueAll, ht, andDo_finished, issueAll, hu, andDo_finished, issueAll], hsu⟩

theorem RowsReady.compressRows (hs : RowsReady l s) (height y : Nat) (rows : List (List Pixel)) :
    (compressRows l height y rows s).result = .ok () := by
  induction rows generalizing y s with
  | nil => rfl
  | cons row rows ih =>
    obtain ⟨t, ht, hst⟩ := hs.rowOps y row
    refine andDo_result_ok.mpr ⟨(), rfl, ?_⟩
    rw [progress_state, ht, andDo_finished]
    exact ih hst (y + 1)

/-- `BS_NEW` on a store the host may write makes as many words of 0 as the bits need. -/
theorem Unlimited.exec_bsNew {h : Nat} (hp : Unlimited s.params) (hw : HostMayWrite h s) (n : Nat) :
    ∃ t, exec (.bsNew h n) s = .next t ∧ t.response = .done ∧
      Replaced h (List.replicate (ceilDiv n s.params.w) 0) s t := by
  rw [exec_bsNew_of_mayWrite n hw, if_neg (by simp [hp.wordsAllowed])]
  exact ⟨_, rfl, rfl, Replaced.of_setStore hw.1 _ .done s.draws⟩

/-- Two fresh stores for an image of a valid size. -/
theorem newCompressed_of_unlimited {z : BitmapSize} (hp : Unlimited s.params) (hz : SizeValid s.params z)
    (hl : HostMayWrite l s) (hd : HostMayWrite d s) (hne : l ≠ d) :
    ∃ t, newCompressed l d z s = finished { size := z, lookup := l, pixelData := d } t ∧
      t.params = s.params ∧ t.stores.length = s.stores.length ∧ t.enc = s.enc ∧ t.dec = s.dec := by
  obtain ⟨m, hm, hmdone, h1⟩ := hp.exec_bsNew hl z.height
  obtain ⟨t, ht, htdone, h2⟩ := (h1.params ▸ hp : Unlimited m.params).exec_bsNew (h1.mayWrite hd) 0
  refine ⟨t, ?_, h2.params.trans h1.params, h2.length.trans h1.length, h2.enc.trans h1.enc,
    h2.dec.trans h1.dec⟩
  have hcheck : ofExcept (checkSize s.params z) s = finished () s := by
    rw [checkSize_eq_ok_iff.mpr hz]; rfl
  rw [newCompressed, hcheck, andDo_finished, if_neg hne,
    issueAll_cons_of_next rfl hm (by simp [hmdone]), issueAll_cons_of_next rfl ht (by simp [htdone]),
    issueAll, andDo_finished]

/-- On an instance without limits a bitmap of a valid size is compressed into any two stores. -/
theorem compress_of_unlimited (hp : Unlimited s.params) (hz : SizeValid s.params b.size)
    (henc : s.enc.isOpen = false) (hdec : s.dec.isOpen = false) (hl : l < s.stores.length)
    (hd : d < s.stores.length) (hne : l ≠ d) :
    (compress l d b s).result = .ok { size := b.size, lookup := l, pixelData := d } := by
  have hfree (h : Nat) : ¬ (s.enc.isOpen = true ∧ s.enc.bs = h) ∧
      ¬ (s.dec.isOpen = true ∧ s.dec.bs = h) := by simp [henc, hdec]
  obtain ⟨m, hnew, hpm, hlen, hencm, hdecm⟩ :=
    newCompressed_of_unlimited hp hz ⟨hl, hfree l⟩ ⟨hd, hfree d⟩ hne
  have hopen : exec (.encOpen d) m = .next (encOpened d m) := (encOpenStartsASession m d).1
    (by rw [hencm, henc]) (by rwa [hlen]) (by rw [hdecm]; exact (hfree d).2)
  have hready : RowsReady l (encOpened d m) :=
    ⟨⟨rfl, rfl, Nat.lt_of_lt_of_eq hd hlen.symm⟩, ⟨Nat.lt_of_lt_of_eq hl hlen.symm,
      fun ⟨_, hbs⟩ => hne hbs.symm, fun hc => (hfree l).2 (hdecm ▸ hc)⟩, hpm ▸ hp⟩
  obtain ⟨-, hisOpen, -⟩ := compressRows_coding (l := l) (s := encOpened d m)
    (height := b.size.height) (y := 0) (rows := rowsOf b) ⟨ImageFrame.refl l d _, rfl, rfl⟩
  have hrows := hready.compressRows b.size.height 0 (rowsOf b)
  rw [compress, hnew, andDo_finished, issueFor_of_next rfl hopen nofun, andDo_finished]
  refine leaveScope_result_ok.mpr ⟨andDo_result_ok.mpr ⟨(), hrows, rfl⟩, ?_⟩
  rw [andDo_of_ok hrows]
  exact congrArg Job.result (issueFor_encClose hisOpen)

end Sys2Proof.Machine
end

section
/-! `uncompress` of an image gives its bitmap back (47_host_context.md R168 to R170, R186 (1)): row after row the decoder
answers what the encoder was given, and a row without a lookup bit is white already. -/

namespace Sys2Proof.Machine

variable {s t : State} {l d y n : Nat} {a a' b : Bitmap} {c : CompressedBitmap}

/-! ### A bitmap painted row by row -/

theorem getElem?_rowPixels (b : Bitmap) (y : Nat) {j : Nat} (hj : j < b.size.width) :
    (rowPixels b y)[j]? = b.pixels[y * b.size.width + j]? := by
  rw [rowPixels, List.getElem?_take, if_pos hj, List.getElem?_drop]

theorem length_rowPixels (hb : b.pixels.length = b.size.width * b.size.height)
    (hy : y < b.size.height) : (rowPixels b y).length = b.size.width := by
  have h : (y + 1) * b.size.width ≤ b.size.height * b.size.width := Nat.mul_le_mul_right _ hy
  rw [Nat.succ_mul, Nat.mul_comm b.size.height, ← hb] at h
  rw [rowPixels, List.length_take, List.length_drop]
  omega

/-- The rows of `a` before row `y` are those of `b`, the others white. -/
structure Painted (b : Bitmap) (y : Nat) (a : Bitmap) : Prop where
  size : a.size = b.size
  length : a.pixels.length = a.size.width * a.size.height
  pixel : ∀ i, a.pixels[i]? =
    if i < y * b.size.width then b.pixels[i]?
    else (List.replicate (b.size.width * b.size.height) white)[i]?

theorem painted_blank (b : Bitmap) :
    Painted b 0 { size := b.size, pixels := List.replicate (b.size.width * b.size.height) white } :=
  ⟨rfl, List.length_replicate, fun i => by simp⟩

/-- A bitmap painted to its end is the one painted. -/
theorem Painted.eq (h : Painted b b.size.height a)
    (hb : b.pixels.length = b.size.width * b.size.height) : a = b := by
  have hpixels : a.pixels = b.pixels := by
    refine List.ext_getElem? fun i => ?_
    rw [h.pixel]
    split_ifs with hi
    · rfl
    · rw [Nat.mul_comm] at hi
      rw [List.getElem?_eq_none (by simpa using hi), List.getElem?_eq_none (by omega)]
  obtain ⟨z, px⟩ := a
  obtain rfl : z = b.size := h.size
  exact congrArg (Bitmap.mk b.size) hpixels

theorem exists_writeRowAt (hy : y < a.size.height) (row : List Pixel) :
    ∃ a', writeRowAt a y row = .ok a' :=
  ⟨_, if_neg (Nat.not_le.mpr hy)⟩

/-- A row of ink is painted by writing it. -/
theorem Painted.write (h : Painted b y a) (hb : b.pixels.length = b.size.width * b.size.height)
    (hy : y < b.size.height) :
    ∃ a', writeRowAt a y (rowPixels b y) = .ok a' ∧ Painted b (y + 1) a' := by
  obtain ⟨a', ha'⟩ := exists_writeRowAt (h.size ▸ hy : y < a.size.height) (rowPixels b y)
  obtain ⟨hsize, hlen⟩ := writeRowAt_keeps h.length ha'
  refine ⟨a', ha', hsize.trans h.size, by rw [hlen, hsize, h.length], fun i => ?_⟩
  have hw : (y + 1) * b.size.width = y * b.size.width + b.size.width := Nat.succ_mul _ _
  rw [getElem_writeRowAt h.length (by rw [length_rowPixels hb hy, h.size]) ha', h.size, hw, h.pixel]
  split_ifs with hrow hlt hbefore
  · rw [getElem?_rowPixels b y (by omega), Nat.add_sub_cancel' hrow.1]
  · omega
  · rfl
  · omega
  · omega
  · rfl

theorem pixel_of_row_without_ink (hempty : rowHasInk (rowPixels b y) = false)
    (hb : b.pixels.length = b.size.width * b.size.height) (hy : y < b.size.height) {j : Nat}
    (hj : j < b.size.width) : b.pixels[y * b.size.width + j]? = some white := by
  have hlt : j < (rowPixels b y).length := Nat.lt_of_lt_of_eq hj (length_rowPixels hb hy).symm
  rw [← getElem?_rowPixels b y hj, List.getElem?_eq_getElem hlt]
  by_contra hne
  refine Bool.false_ne_true (hempty.symm.trans ((rowHasInk_iff _).mpr ?_))
  exact ⟨_, List.getElem_mem hlt, fun hwhite => hne (congrArg some hwhite)⟩

/-- A row without ink is painted as it stands. -/
theorem Painted.skip (h : Painted b y a) (hb : b.pixels.length = b.size.width * b.size.height)
    (hy : y < b.size.height) (hempty : rowHasInk (rowPixels b y) = false) : Painted b (y + 1) a := by
  refine ⟨h.size, h.length, fun i => ?_⟩
  have hw : (y + 1) * b.size.width = y * b.size.width + b.size.width := Nat.succ_mul _ _
  have hend : (y + 1) * b.size.width ≤ b.size.height * b.size.width := Nat.mul_le_mul_right _ hy
  rw [hw, Nat.mul_comm b.size.height] at hend
  rw [h.pixel, hw]
  split_ifs with hbefore hnext hrow
  · rfl
  · omega
  · have hpixel := pixel_of_row_without_ink hempty hb hy (j := i - y * b.size.width) (by omega)
    rw [Nat.add_sub_cancel' (Nat.le_of_not_lt hbefore)] at hpixel
    rw [hpixel, List.getElem?_replicate, if_pos (by omega)]
  · rfl

/-! ### Reading the rows -/

/-- The session of `uncompress` before row `y`: the lookup table tells the rows of ink, and the streams of those among
rows `y` to `y + n − 1` lie at the decoder's cursor. -/
structure RowsAtCursor (l : Nat) (b : Bitmap) (y n : Nat) (s : State) : Prop where
  ready : DecReady s
  mayRead : HostMayRead l s
  unlimited : Unlimited s.params
  marks : ∀ k < b.size.height, bitAt s l k = rowHasInk (rowPixels b k)
  bits : BitsAtCursor s (inkStream s.params.packOrder ((List.range' y n).map (rowPixels b)))

theorem RowsAtCursor.head (hs : RowsAtCursor l b y (n + 1) s) :
    BitsAtCursor s (inkStream s.params.packOrder [rowPixels b y]) := by
  have hbits := hs.bits
  rw [List.range'_succ, List.map_cons, inkStream_cons] at hbits
  exact hbits.append.1

/-- Once the stream of row `y` was read, if it has one, the next rows' streams lie at the cursor. -/
theorem RowsAtCursor.next (hs : RowsAtCursor l b y (n + 1) s) (r : Response) :
    RowsAtCursor l b (y + 1) n
      (answer r (advanceDecBy (inkStream s.params.packOrder [rowPixels b y]).length s)) := by
  have hbits := hs.bits
  rw [List.range'_succ, List.map_cons, inkStream_cons] at hbits
  exact ⟨hs.ready, hs.mayRead, hs.unlimited, hs.marks, hbits.append.2⟩

/-- A row without a lookup bit is skipped. -/
theorem uncompressRow_of_unmarked (hr : HostMayRead l s) (hfits : indexFits s.params y = true)
    (hmark : bitAt s l y = false) :
    uncompressRow l y a s = finished a (answer (.bit false) s) := by
  rw [uncompressRow, issue_of_next (i := .bsTest l y) hfits (exec_bsTest_of_mayRead y hr) nofun,
    andDo_finished, hmark]
  rfl

/-- A row with a lookup bit becomes the pixels `DECODE` answers. -/
theorem uncompressRow_of_marked {px : List Pixel} (hr : HostMayRead l s)
    (hfits : indexFits s.params y = true) (hmark : bitAt s l y = true)
    (hread : exec (.decode a.size.width) (answer (.bit true) s) = .next (answer (.pixels px) t)) :
    uncompressRow l y a s = ofExcept (writeRowAt a y px) (answer (.pixels px) t) := by
  rw [uncompressRow, issue_of_next (i := .bsTest l y) hfits (exec_bsTest_of_mayRead y hr) nofun,
    andDo_finished, hmark]
  exact (congrArg (andDo · _) (issue_of_next rfl hread nofun)).trans (andDo_finished _ _ _)

/-- One row: read where the lookup table marks it, else left white. -/
theorem uncompressRow_of_rowsAtCursor (hs : RowsAtCursor l b y (n + 1) s) (ha : Painted b y a)
    (hb : b.pixels.length = b.size.width * b.size.height) (hy : y < b.size.height) :
    ∃ a' t, uncompressRow l y a s = finished a' t ∧ Painted b (y + 1) a' ∧
      RowsAtCursor l b (y + 1) n t := by
  have hmark := hs.marks y hy
  have hfits := hs.unlimited.indexFits y
  have hhead := hs.head
  have hnext := hs.next
  cases hink : rowHasInk (rowPixels b y) with
  | false =>
    rw [hink] at hmark
    rw [inkStream_of_empty hink] at hnext
    exact ⟨a, _, uncompressRow_of_unmarked hs.mayRead hfits hmark, ha.skip hb hy hink, hnext _⟩
  | true =>
    rw [hink] at hmark
    rw [inkStream_of_ink hink] at hhead hnext
    obtain ⟨a', hwrite, ha'⟩ := ha.write hb hy
    have hread : exec (.decode a.size.width) (answer (.bit true) s) =
        .next (answer (.pixels (rowPixels b y))
          (advanceDecBy (streamOf s.params.packOrder (rowPixels b y)).length (answer (.bit true) s))) := by
      rw [exec_decode_of_ready (s := answer (.bit true) s) hs.ready, ha.size, ← length_rowPixels hb hy,
        readPixels_of_stream (s := answer (.bit true) s) hhead (hs.unlimited.cursorRoom _ _),
        finish_done]
      rfl
    refine ⟨a', _, ?_, ha', hnext (.pixels (rowPixels b y))⟩
    rw [uncompressRow_of_marked hs.mayRead hfits hmark hread, hwrite]
    rfl

/-- The rows left are painted one after another, to the whole bitmap. -/
theorem uncompressRows_of_rowsAtCursor (hs : RowsAtCursor l b y n s) (ha : Painted b y a)
    (hb : b.pixels.length = b.size.width * b.size.height) (hn : y + n = b.size.height) :
    (uncompressRows l n y a s).result = .ok b := by
  induction n generalizing y a s with
  | zero =>
    obtain rfl : y = b.size.height := hn
    rw [ha.eq hb]
    rfl
  | succ n ih =>
    obtain ⟨a', t, hrow, ha', ht⟩ := uncompressRow_of_rowsAtCursor hs ha hb (by omega)
    refine andDo_result_ok.mpr ⟨(), rfl, ?_⟩
    rw [progress_state, hrow, andDo_finished]
    exact ih ht ha' (by omega)

/-! ### The whole image -/

/-- An image that represents a bitmap is uncompressed to that bitmap. -/
theorem uncompress_of_represents (hrep : Represents s c b) (hb : BitmapValid s.params b)
    (hp : Unlimited s.params) {room : Option Nat}
    (hroom : canAllocate s.params room (b.size.width * b.size.height) = true)
    (henc : s.enc.isOpen = false) (hdec : s.dec.isOpen = false) (hl : c.lookup < s.stores.length)
    (hd : c.pixelData < s.stores.length) : (uncompress room c s).result = .ok b := by
  obtain ⟨hsize, hlookup, hdata⟩ := hrep
  obtain ⟨hvalid, hlen⟩ := hb
  have hnoenc (h : Nat) : ¬ (s.enc.isOpen = true ∧ s.enc.bs = h) := by simp [henc]
  have hopen : exec (.decOpen c.pixelData) s = .next (decOpened c.pixelData s) :=
    (decOpenStartsASession s c.pixelData).1 hdec hd (hnoenc _)
  have hrows : RowsAtCursor c.lookup b 0 b.size.height (decOpened c.pixelData s) := by
    refine ⟨⟨rfl, rfl, hd⟩, ⟨hl, hnoenc _⟩, hp, fun k hk => ?_, fun j _ => ?_⟩
    · exact Bool.eq_iff_iff.mpr (((hlookup k).trans (and_iff_right hk)).trans (rowHasInk_iff _).symm)
    · rw [← rowsOf_eq_range', ← imageStream_eq]
      exact (congrArg (bitAt s c.pixelData) (Nat.zero_add j)).trans (hdata j)
  have hblank : ofExcept (newBitmap s.params room c.size white) s = finished
      { size := b.size, pixels := List.replicate (b.size.width * b.size.height) white } s := by
    rw [hsize, newBitmap_of_valid hvalid, if_pos hroom]
    rfl
  obtain ⟨-, hisOpen⟩ := uncompressRows_reading (l := c.lookup) (n := b.size.height) (y := 0)
    (b := { size := b.size, pixels := List.replicate (b.size.width * b.size.height) white })
    (s := s) (t := decOpened c.pixelData s) ⟨.of_exec rfl rfl hopen, rfl⟩
  rw [uncompress, hblank, andDo_finished, issueFor_of_next rfl hopen nofun, andDo_finished, hsize]
  exact leaveScope_result_ok.mpr
    ⟨uncompressRows_of_rowsAtCursor hrows (painted_blank b) hlen (Nat.zero_add _),
      congrArg Job.result (issueFor_decClose hisOpen)⟩

/-- Settles O54: without limits `compress` ends well in an image that represents its source, and `uncompress` paints that
image's rows one by one. -/
theorem uncompressRestoresTheBitmap : Obligations.UncompressRestoresTheBitmap := by
  intro s room l d b henc hdec hwords hindex hl hd hne hb hroom
  have hok := compress_of_unlimited ⟨hwords, hindex⟩ hb.1 henc hdec hl hd hne
  obtain ⟨hframe, hopen⟩ := compress_frame l d b s
  obtain ⟨-, -, -, -, -, hrep, -⟩ := compress_ok hok
  refine ⟨_, hok, uncompress_of_represents hrep ?_ ?_ ?_ (hopen.trans henc) ?_
    (Nat.lt_of_lt_of_eq hl hframe.length.symm) (Nat.lt_of_lt_of_eq hd hframe.length.symm),
    (uncompress_frame _ _ _).1.stores⟩
  · rw [hframe.params]; exact hb
  · rw [hframe.params]; exact ⟨hwords, hindex⟩
  · rw [hframe.params]; exact hroom
  · rw [hframe.dec]; exact hdec

end Sys2Proof.Machine
end
